-- ==== Sys2Proof/Word.lean ====
section
/-!
DEFINITION. The word types of AQTC (spec/00_scope.md R13: a word is 32 bits, a halfword of the bitstream 16 bits).
-/
namespace Sys2Proof

/-- A byte of FBUF, or one stored byte of a memory entry. -/
abbrev Byte := BitVec 8

/-- A halfword of the bitstream (R13), also the CRC register's width (R180). -/
abbrev Half := BitVec 16

/-- A command word, a register as the host sees it, or a binary32 bit pattern (R13, R110). -/
abbrev Word := BitVec 32

end Sys2Proof
end

