-- ==== Sys2Proof/Config.lean ====
section
/-!
DEFINITION. The parameters of 00_scope.md R11, each at the value this hardware takes, and the values the spec leaves free.
A free value is an opaque constant: nothing in Lean can evaluate it, so a theorem that mentions it holds for every choice.
-/
namespace Sys2Proof.Config

/-- ID register contents, the ASCII bytes of AQTC (R29). -/
def idValue : Word := 0x41515443#32

/-- `NCH`: channels with state (R11). -/
def nch : Nat := 6

/-- `NCOEF`: coefficient slots per channel (R11). -/
def ncoef : Nat := 256

/-- `NSLOT`: entries of COEF, EXPM, BAPM and SLOT (R11). -/
def nslot : Nat := nch * ncoef

/-- `EXP_MAX`: the largest legal exponent (R11). -/
def expMax : Nat := 24

/-- `FIX_FRAC`: fraction bits of a coefficient (R11). -/
def fixFrac : Nat := 24

/-- `PLACEHOLDER`: the VAL of a slot whose mantissa its group head carries (R11, R141). -/
def placeholder : Half := 128#16

/-- `LEVELS`: the level count of each symmetric class (R11, R131), 0 for a class that has none. -/
def levels (bap : Nat) : Nat :=
  match bap with
  | 1 => 3
  | 2 => 5
  | 3 => 7
  | 4 => 11
  | 5 => 15
  | _ => 0

/-- `GROUP`: members per shared field (R11, R131), 0 for a class that is not grouped. -/
def groupSize (bap : Nat) : Nat :=
  match bap with
  | 1 => 3
  | 2 => 3
  | 4 => 2
  | _ => 0

/-- `QBITS`: code bits of an asymmetric class (R11, R131): 6 to 13 take bap - 1, 14 takes 14, 15 takes 16. -/
def qbits (bap : Nat) : Nat :=
  if bap = 14 then 14 else if bap = 15 then 16 else bap - 1

/-- `MANT_WIDTH`: bits emitted for a non-placeholder slot of a class (R163). -/
def mantWidth (bap : Nat) : Nat :=
  match bap with
  | 0 => 0
  | 1 => 5
  | 2 => 7
  | 3 => 3
  | 4 => 7
  | 5 => 4
  | b => qbits b

/-- `TD_WIN`: samples of a transient window (R11). -/
def tdWin : Nat := 512

/-- `TD_T1`: the level 1 threshold, binary32 nearest 0.100 (R11, R110). -/
def tdT1 : Word := 0x3DCCCCCD#32

/-- `TD_T2`: the level 2 threshold, binary32 nearest 0.075 (R11, R110). -/
def tdT2 : Word := 0x3D99999A#32

/-- `TD_T3`: the level 3 threshold, binary32 nearest 0.050 (R11, R110). -/
def tdT3 : Word := 0x3D4CCCCD#32

/-- `TD_FLOOR`: the silence floor, 100/32768 (R11, R110). -/
def tdFloor : Word := 0x3B480000#32

/-- An IEEE 754 binary format, by the widths of its two fields below the sign. -/
structure SampleFormat where
  /-- Bits of the biased exponent. -/
  expBits : Nat
  /-- Bits of the fraction. -/
  fracBits : Nat
  deriving DecidableEq, Repr

/-- `TD_FMT`: the sample format, IEEE 754 binary32 (R11). -/
def tdFmt : SampleFormat := { expBits := 8, fracBits := 23 }

/-- `FBUF_BYTES`: size of the frame buffer (R11). -/
def fbufBytes : Nat := 4096

/-- `FSW_MIN`: smallest legal frame size in 16-bit words (R11). -/
def fswMin : Nat := 4

/-- `FSW_MAX`: largest legal frame size in 16-bit words, half of FBUF_BYTES (R11). -/
def fswMax : Nat := fbufBytes / 2

/-- `CRC_POLY`: the generator without its x^16 term (R11, R180). -/
def crcPoly : Half := 0x8005#16

/-- The CRC register's initial value, given with `CRC_POLY` (R11, R180). -/
def crcInit : Half := 0x0000#16

/-- The two rules for the five-eighths point (R184). -/
inductive Fs58Rule where
  /-- (fs >> 1) + (fs >> 3), the default. -/
  | a52Floor
  /-- The integer nearest to 5 * fs / 8, ties toward the smaller. -/
  | nearestEven
  deriving DecidableEq, Repr

/-- `FS58_RULE`: the rule this hardware takes (R11, R184). -/
def fs58Rule : Fs58Rule := .a52Floor

/-- Bytes of the host window: 64 KiB (R11, R70). -/
def windowBytes : Nat := 0x10000

/-- Bits of the one access size the host window permits, and of the entries it is divided into (R11, R72). -/
def accessBits : Nat := 32

/-- `AQTC_BASE`: where the platform places the 64 KiB window (R70, D45). The spec leaves it open; no rule depends on it (log 9). -/
opaque aqtcBase : Nat

/-- The free contents of an unspecified memory byte: draw number, window offset (R238, R239; log 1). -/
opaque drawByte (draw addr : Nat) : Byte

/-- The free level of `irq` while `rst` is asserted, by the number of draws made so far (R235; log 4). -/
opaque irqUnderReset (draws : Nat) : Bool

end Sys2Proof.Config
end

