-- ==== Sys2Proof/Syntax.lean ====
section
/-!
DEFINITION. The commands of AQTC: one constructor per row of spec/opcode_table.json (30_encoding.md R98), each with the
fields of its format (R92 to R96) at their encoded widths.
-/
namespace Sys2Proof

/-- A decoded command. -/
inductive Instr where
  /-- NOP (R200). -/
  | nop
  /-- QBLK (R143): start a block's mantissa sharing. -/
  | qblk
  /-- QCOEF ch, k, bap, exp (R144): quantize one coefficient. -/
  | qcoef (ch : BitVec 3) (k : BitVec 8) (bap : BitVec 4) (exp : BitVec 5)
  /-- QRUN ch, n (R145): quantize coefficients 0 to n-1 of a channel. -/
  | qrun (ch : BitVec 3) (n : BitVec 9)
  /-- FBEGIN (R164): start a frame. -/
  | fbegin
  /-- PUTBITS w (R165): write the low w bits of PUTDATA. -/
  | putbits (w : BitVec 6)
  /-- FLUSH (R166): fill the current byte with zero bits. -/
  | flush
  /-- MPACK ch, n (R167): emit the mantissa codes of coefficients 0 to n-1 of a channel. -/
  | mpack (ch : BitVec 3) (n : BitVec 9)
  /-- TDRUN (R117): detect on the explicit window TDWIN. -/
  | tdrun
  /-- TDPUSH ch (R118): detect on a channel's next block, with history. -/
  | tdpush (ch : BitVec 3)
  /-- TDCLR (R119): clear all tails. -/
  | tdclr
  /-- CRCCALC (R185): CRC-16 of a range of FBUF. -/
  | crccalc
  /-- CRCZAPP (R186): append CRCBITS zero bits to CRCVAL. -/
  | crczapp
  /-- CRCINV (R187): remove CRCBITS zero bits from CRCVAL. -/
  | crcinv
  /-- FINAL (R188): flush, pad, place both CRCs, return the frame size. -/
  | final
  deriving DecidableEq, Repr

end Sys2Proof
end

