-- ==== Sys2Proof/WellFormed.lean ====
section
/-!
DEFINITION. The field ranges a command word must meet to be executed (30_encoding.md R93 to R96, R101). The exponent of
QCOEF is not among them: it is checked at execution (R101, R146).
-/
namespace Sys2Proof

/-- A channel field is legal: 0 to 5 (R93 to R95, R101). -/
def chOk (ch : BitVec 3) : Bool := decide (ch.toNat < Config.nch)

/-- An element count is legal: 0 to 256 (R94, R101). -/
def countOk (n : BitVec 9) : Bool := decide (n.toNat ≤ Config.ncoef)

/-- A field width is legal: 0 to 32 (R96, R101). -/
def widthOk (w : BitVec 6) : Bool := decide (w.toNat ≤ 32)

/-- The command's fields are in range. -/
def Instr.wf : Instr → Bool
  | .nop => true
  | .qblk => true
  | .qcoef ch _ _ _ => chOk ch
  | .qrun ch n => chOk ch && countOk n
  | .fbegin => true
  | .putbits w => widthOk w
  | .flush => true
  | .mpack ch n => chOk ch && countOk n
  | .tdrun => true
  | .tdpush ch => chOk ch
  | .tdclr => true
  | .crccalc => true
  | .crczapp => true
  | .crcinv => true
  | .final => true

end Sys2Proof
end

