-- ==== Sys2Proof/Decode.lean ====
section
/-!
DEFINITION. The decoder of command words (30_encoding.md R90 to R103), total on every 32-bit word and rejecting by the error
the spec names, and the encoder (R92 to R96, R106).
-/
namespace Sys2Proof

/-- The five formats (R92 to R96). -/
inductive Format where
  | N
  | Q
  | R
  | C
  | W
  deriving DecidableEq, Repr

/-- The fifteen opcodes of the map (R98). -/
inductive Opcode where
  | nop
  | qblk
  | qcoef
  | qrun
  | fbegin
  | putbits
  | flush
  | mpack
  | tdrun
  | tdpush
  | tdclr
  | crccalc
  | crczapp
  | crcinv
  | final
  deriving DecidableEq, Repr

/-- Why decode rejects a word (R101, R102). -/
inductive DecodeError where
  /-- Reserved opcode, reserved bits, n > 256 or w > 32 (R99 to R101). -/
  | badCmd
  /-- Channel field at least 6 (R101). -/
  | badCh
  deriving DecidableEq, Repr

/-- The op byte of each opcode (R98). -/
def opByte : Opcode → Byte
  | .nop => 0x00#8
  | .qblk => 0x01#8
  | .qcoef => 0x02#8
  | .qrun => 0x03#8
  | .fbegin => 0x08#8
  | .putbits => 0x09#8
  | .flush => 0x0A#8
  | .mpack => 0x0B#8
  | .tdrun => 0x10#8
  | .tdpush => 0x11#8
  | .tdclr => 0x12#8
  | .crccalc => 0x18#8
  | .crczapp => 0x19#8
  | .crcinv => 0x1A#8
  | .final => 0x1B#8

/-- The opcode map read from the op byte; every byte not listed is reserved (R98, R99). -/
def opcodeOfByte (b : Byte) : Option Opcode :=
  match b.toNat with
  | 0x00 => some .nop
  | 0x01 => some .qblk
  | 0x02 => some .qcoef
  | 0x03 => some .qrun
  | 0x08 => some .fbegin
  | 0x09 => some .putbits
  | 0x0A => some .flush
  | 0x0B => some .mpack
  | 0x10 => some .tdrun
  | 0x11 => some .tdpush
  | 0x12 => some .tdclr
  | 0x18 => some .crccalc
  | 0x19 => some .crczapp
  | 0x1A => some .crcinv
  | 0x1B => some .final
  | _ => none

/-- The format is known from the opcode alone (R90, R98). -/
def formatOf : Opcode → Format
  | .qcoef => .Q
  | .qrun => .R
  | .mpack => .R
  | .tdpush => .C
  | .putbits => .W
  | .nop => .N
  | .qblk => .N
  | .fbegin => .N
  | .flush => .N
  | .tdrun => .N
  | .tdclr => .N
  | .crccalc => .N
  | .crczapp => .N
  | .crcinv => .N
  | .final => .N

/-- The reserved bits of each format (R92 to R96, R100). -/
def reservedMask : Format → Word
  | .N => 0x00FFFFFF#32
  | .Q => 0x0000000F#32
  | .R => 0x00000FFF#32
  | .C => 0x001FFFFF#32
  | .W => 0x0003FFFF#32

/-- Field `op` [31:24] (R91). -/
def fieldOp (w : Word) : Byte := w.extractLsb' 24 8

/-- Field `ch` [23:21] of formats Q, R and C (R93 to R95). -/
def fieldCh (w : Word) : BitVec 3 := w.extractLsb' 21 3

/-- Field `k` [20:13] of format Q (R93). -/
def fieldK (w : Word) : BitVec 8 := w.extractLsb' 13 8

/-- Field `bap` [12:9] of format Q (R93). -/
def fieldBap (w : Word) : BitVec 4 := w.extractLsb' 9 4

/-- Field `exp` [8:4] of format Q (R93). -/
def fieldExp (w : Word) : BitVec 5 := w.extractLsb' 4 5

/-- Field `n` [20:12] of format R (R94). -/
def fieldN (w : Word) : BitVec 9 := w.extractLsb' 12 9

/-- Field `w` [23:18] of format W (R96). -/
def fieldW (w : Word) : BitVec 6 := w.extractLsb' 18 6

/-- Does the format have a channel field (R102, last check)? -/
def hasChannel : Format → Bool
  | .N => false
  | .Q => true
  | .R => true
  | .C => true
  | .W => false

/-- The command of an opcode with the fields of the word. -/
def assemble (op : Opcode) (w : Word) : Instr :=
  match op with
  | .nop => .nop
  | .qblk => .qblk
  | .qcoef => .qcoef (fieldCh w) (fieldK w) (fieldBap w) (fieldExp w)
  | .qrun => .qrun (fieldCh w) (fieldN w)
  | .fbegin => .fbegin
  | .putbits => .putbits (fieldW w)
  | .flush => .flush
  | .mpack => .mpack (fieldCh w) (fieldN w)
  | .tdrun => .tdrun
  | .tdpush => .tdpush (fieldCh w)
  | .tdclr => .tdclr
  | .crccalc => .crccalc
  | .crczapp => .crczapp
  | .crcinv => .crcinv
  | .final => .final

/-- The decode procedure, its checks in the order of R102: opcode, reserved bits, n, w, channel. -/
def decode (w : Word) : Except DecodeError Instr :=
  match opcodeOfByte (fieldOp w) with
  | none => .error .badCmd
  | some op =>
    if w &&& reservedMask (formatOf op) ≠ 0#32 then .error .badCmd
    else if formatOf op = .R ∧ countOk (fieldN w) = false then .error .badCmd
    else if formatOf op = .W ∧ widthOk (fieldW w) = false then .error .badCmd
    else if hasChannel (formatOf op) = true ∧ chOk (fieldCh w) = false then .error .badCh
    else .ok (assemble op w)

/-- The decoder as an option: none where it rejects. -/
def decode? (w : Word) : Option Instr :=
  match decode w with
  | .ok i => some i
  | .error _ => none

/-- The opcode of a command. -/
def opcodeOf : Instr → Opcode
  | .nop => .nop
  | .qblk => .qblk
  | .qcoef _ _ _ _ => .qcoef
  | .qrun _ _ => .qrun
  | .fbegin => .fbegin
  | .putbits _ => .putbits
  | .flush => .flush
  | .mpack _ _ => .mpack
  | .tdrun => .tdrun
  | .tdpush _ => .tdpush
  | .tdclr => .tdclr
  | .crccalc => .crccalc
  | .crczapp => .crczapp
  | .crcinv => .crcinv
  | .final => .final

/-- Bits [23:0] of a command, laid out as the format tables show them, most significant field first (R92 to R96). -/
def operandBits : Instr → BitVec 24
  | .qcoef ch k bap exp => ch ++ k ++ bap ++ exp ++ 0#4
  | .qrun ch n => ch ++ n ++ 0#12
  | .putbits w => w ++ 0#18
  | .mpack ch n => ch ++ n ++ 0#12
  | .tdpush ch => ch ++ 0#21
  | .nop => 0#24
  | .qblk => 0#24
  | .fbegin => 0#24
  | .flush => 0#24
  | .tdrun => 0#24
  | .tdclr => 0#24
  | .crccalc => 0#24
  | .crczapp => 0#24
  | .crcinv => 0#24
  | .final => 0#24

/-- The command word of a command (R92 to R96, R106). -/
def encode (i : Instr) : Word := opByte (opcodeOf i) ++ operandBits i

/-- What the decoder reads from an instruction whose bits are `w`, numbered as spec/opcode_table.json numbers them. Every
command is one 32-bit word (R90), so the table gives all of its bits and `nbits` is 32. -/
def decodeTableWord (nbits w : Nat) : Option Instr :=
  decode? (BitVec.ofNat 32 (w % 2 ^ nbits))

end Sys2Proof
end

