-- ==== Sys2Proof/Machine/State.lean ====
section
/-!
DEFINITION. The state of AQTC (10_state.md), the outcomes of a step, and the state right after a hard reset (R65, R236).
Every register is stored at the width of its non-reserved bits, so a reserved bit reads 0 because nothing holds it (R28).
-/
namespace Sys2Proof.Machine

open Sys2Proof

/-- The twelve error codes (R206). -/
inductive ErrCode where
  | badCmd
  | badCh
  | badExp
  | qRange
  | tdNan
  | bitOvf
  | frmOvf
  | badFs
  | crcRange
  | busyCmd
  | busyAcc
  | bus
  deriving DecidableEq, Repr

/-- The registers of the host window, in the order of their offsets (R27). -/
inductive Reg where
  | id
  | ctrl
  | status
  | cmd
  | errBits
  | errCode
  | errInfo
  | qin
  | qout
  | grpCnt
  | grpHead1
  | grpHead2
  | grpHead4
  | tdStat
  | tdRes
  | bitPos
  | putData
  | fsw
  | crc1
  | crc2
  | frameBytes
  | crcStart
  | crcLen
  | crcBits
  | crcVal
  deriving DecidableEq, Repr

/-- The three grouped classes, each with its own counter and head (R61, R138). -/
inductive Grp where
  | g1
  | g2
  | g4
  deriving DecidableEq, Repr

/-- A SLOT entry: the 21 stored bits of a quantized mantissa (R56). -/
structure Slot where
  /-- VAL: a code, a group's packed field, or 128 in a placeholder. -/
  val : Half
  /-- PH: the mantissa is carried by the group's head. -/
  ph : Bool
  /-- BAP: the class the slot was quantized with. -/
  bap : BitVec 4
  deriving DecidableEq, Repr

/-- The width of a host access (R72, R207: the BUS information word tells these four apart). -/
inductive AccessSize where
  | b8
  | b16
  | b32
  | other
  deriving DecidableEq, Repr

/-- What the outside world, or the schedule, does next (R20, R21, R235; log 3). -/
inductive Input where
  /-- A host read at a window offset. -/
  | read (size : AccessSize) (off : BitVec 16)
  /-- A host write at a window offset. -/
  | write (size : AccessSize) (off : BitVec 16) (v : Word)
  /-- The level of the `rst` input. -/
  | rst (level : Bool)
  /-- The engine's turn: its completion step, if it has one to take (R214). -/
  | engine
  deriving DecidableEq, Repr

/-- What the bus answered to the most recent host access (R22, R72; log 5). -/
inductive BusResp where
  /-- No access has been made yet. -/
  | none
  /-- The data of a read, and whether the bus gave an error response. -/
  | read (data : Word) (err : Bool)
  /-- A write, and whether the bus gave an error response. -/
  | write (err : Bool)
  deriving DecidableEq, Repr

/-- Why the machine stops with a fault. The spec gives AQTC no fault: every misuse has a defined refusal
(93_implementation_defined.md). -/
inductive Fault where
  /-- Raised by the step alone: STATUS.BUSY is set and LASTCMD does not decode to a command. No run from reset reaches such a
  state (acceptance, R213, decodes first), and no meaning of a command raises it. Safe (log 8). -/
  | pendingIllegal
  deriving DecidableEq, Repr

/-- Why the model gives no meaning. -/
inductive Refusal where
  /-- Raised by an arm of `exec` that has no meaning yet, and by nothing else. Safe. No arm of this model raises it. -/
  | notModelled (mnemonic : String)
  deriving DecidableEq, Repr

/-- The state of AQTC. -/
structure State where
  /-- CTRL: BSWEN bit 0, IE_DONE bit 1, IE_ERR bit 2 (R30). -/
  ctrl : BitVec 3
  /-- STATUS.BUSY, and with it the engine phase (R31, R62). -/
  busy : Bool
  /-- STATUS.DONE (R31). -/
  done : Bool
  /-- LASTCMD: what a read of CMD returns, and the accepted command word (R32, R62). -/
  lastCmd : Word
  /-- The BSWEN value sampled at acceptance (R62, R213). -/
  bswenSampled : Bool
  /-- ERRBITS bits 12 down to 1: bit n - 1 here is bit n of the register (R33). -/
  errBits : BitVec 12
  /-- ERRCODE (R34). -/
  errCode : BitVec 4
  /-- ERRINFO (R35). -/
  errInfo : Word
  /-- QIN (R36). -/
  qin : Word
  /-- QOUT (R37). -/
  qout : Word
  /-- GRPCNT.CNT1 (R38). -/
  cnt1 : BitVec 2
  /-- GRPCNT.CNT2 (R38). -/
  cnt2 : BitVec 2
  /-- GRPCNT.CNT4 (R38). -/
  cnt4 : BitVec 1
  /-- GRPHEAD1 (R39). -/
  head1 : BitVec 11
  /-- GRPHEAD2 (R39). -/
  head2 : BitVec 11
  /-- GRPHEAD4 (R39). -/
  head4 : BitVec 11
  /-- TDSTAT: RES 0, CODE 3:1, IDX 7:4, CH 10:8, SRC 11 (R40). -/
  tdstat : BitVec 12
  /-- TDRES: bit ch is the RES of channel ch's last TDPUSH (R41). -/
  tdres : BitVec 6
  /-- BITPOS (R42). -/
  bitpos : Word
  /-- PUTDATA (R43). -/
  putdata : Word
  /-- FSW (R44). -/
  fsw : Half
  /-- CRC1 (R45). -/
  crc1 : Half
  /-- CRC2 (R46). -/
  crc2 : Half
  /-- FRAMEBYTES (R47). -/
  frameBytes : Half
  /-- CRCSTART (R48). -/
  crcStart : Half
  /-- CRCLEN (R49). -/
  crcLen : Half
  /-- CRCBITS (R50). -/
  crcBits : Word
  /-- CRCVAL (R51). -/
  crcVal : Half
  /-- The eight memories (R52), by window offset, as the cells written since the last hard reset (log 1, log 7). -/
  mem : List Host.Cell
  /-- The model's own: the number of the draw the last hard reset made for the unspecified memories (R236, R239; log 1). -/
  memDraw : Nat
  /-- The model's own: the number of the next draw (R238, R239; log 1). -/
  draws : Nat
  /-- The `rst` input is asserted (R235). -/
  rst : Bool
  /-- The model's own: the inputs still to come, in order (log 3). -/
  inputs : List Input
  /-- The model's own: the bus response to the most recent host access (log 5). -/
  resp : BusResp
  deriving DecidableEq, Repr

/-- The machine right after a hard reset: every register at its value of R65, no memory cell written. -/
def State.reset : State where
  ctrl := 0#3
  busy := false
  done := false
  lastCmd := 0#32
  bswenSampled := false
  errBits := 0#12
  errCode := 0#4
  errInfo := 0#32
  qin := 0#32
  qout := 0#32
  cnt1 := 0#2
  cnt2 := 0#2
  cnt4 := 0#1
  head1 := 0#11
  head2 := 0#11
  head4 := 0#11
  tdstat := 0#12
  tdres := 0#6
  bitpos := 0#32
  putdata := 0#32
  fsw := 0#16
  crc1 := 0#16
  crc2 := 0#16
  frameBytes := 0#16
  crcStart := 0#16
  crcLen := 0#16
  crcBits := 0#32
  crcVal := 0#16
  mem := []
  memDraw := 0
  draws := 1
  rst := false
  inputs := []
  resp := .none

/-- An error a command raises: its code and information word (R206, R207). -/
structure CmdError where
  code : ErrCode
  info : Word
  deriving DecidableEq, Repr

/-- How far a command's rule came: the state it reached, and the error that ended it, if one did (R210). -/
structure CmdResult where
  st : State
  err : Option CmdError
  deriving DecidableEq, Repr

end Sys2Proof.Machine
end

