-- ==== Sys2Proof/Machine/Ops.lean ====
section
/-!
DEFINITION. The named operations over AQTC's memories and registers (10_state.md, 20_memory.md), raising an error (R209),
ending a command (R210, R214), and the two resets (R236 to R238).
-/
namespace Sys2Proof.Machine

open Sys2Proof

/-! ### The host window's memories -/

/-- Window offset of COEF[0] (R71). -/
def coefBase : Nat := 0x2000

/-- Window offset of EXPM[0] (R71). -/
def expmBase : Nat := 0x4000

/-- Window offset of BAPM[0] (R71). -/
def bapmBase : Nat := 0x6000

/-- Window offset of SLOT[0] (R71). -/
def slotBase : Nat := 0x8000

/-- Window offset of TDWIN[0] (R71). -/
def tdwinBase : Nat := 0xA000

/-- Window offset of TDNEW[0] (R71). -/
def tdnewBase : Nat := 0xA800

/-- Window offset of TDTAIL[0][0] (R71). -/
def tdtailBase : Nat := 0xC000

/-- Window offset of FBUF[0] (R71). -/
def fbufBase : Nat := 0xE000

/-- Offset `a` lies in the `n` bytes that start at `base`. -/
def inRange (base n a : Nat) : Bool := decide (base ≤ a ∧ a < base + n)

/-- The bytes of the window that `n` entries take, each the width of an access (R71, R72). -/
def entryBytes (n : Nat) : Nat := n * (Config.accessBits / 8)

/-- Samples of one tail, and of TDNEW: half a window (R58, R59). -/
def tailLen : Nat := Config.tdWin / 2

/-- Offset `a` belongs to TDTAIL, the one memory with reset contents (R59, R65). -/
def inTdtail (a : Nat) : Bool := inRange tdtailBase (entryBytes (Config.nch * tailLen)) a

/-- The stored bits of the byte at window offset `a` (R71, R76). COEF, TDWIN, TDNEW, TDTAIL and FBUF store every bit, EXPM bits
[7:0], BAPM bits [3:0], SLOT bits [15:0], 16 and [23:20] of an entry. Where nothing is stored the mask is 0. -/
def storeMask (a : Nat) : Byte :=
  if inRange coefBase (entryBytes Config.nslot) a then 0xFF#8
  else if inRange expmBase (entryBytes Config.nslot) a then (if a % 4 = 0 then 0xFF#8 else 0x00#8)
  else if inRange bapmBase (entryBytes Config.nslot) a then (if a % 4 = 0 then 0x0F#8 else 0x00#8)
  else if inRange slotBase (entryBytes Config.nslot) a then
    (if a % 4 = 3 then 0x00#8 else if a % 4 = 2 then 0xF1#8 else 0xFF#8)
  else if inRange tdwinBase (entryBytes Config.tdWin) a then 0xFF#8
  else if inRange tdnewBase (entryBytes tailLen) a then 0xFF#8
  else if inTdtail a then 0xFF#8
  else if inRange fbufBase Config.fbufBytes a then 0xFF#8
  else 0x00#8

/-- The contents of a byte that no cell lists, where the spec gives them: +0.0 in TDTAIL (R59, R65), and 0 where no bit is stored
(R28, R76). Elsewhere the spec gives none (R239). -/
def resetByte (a : Nat) : Option Byte :=
  if inTdtail a then some 0#8 else if storeMask a = 0#8 then some 0#8 else none

/-- What an unlisted byte reads as: its reset contents where the spec gives them, else the free value of the last hard reset's
draw, of the entry's storage width (R239; log 1). -/
def unlistedByte (draw a : Nat) : Byte :=
  match resetByte a with
  | some v => v
  | none => Config.drawByte draw a &&& storeMask a

/-- The cell listed for an offset. -/
def cellAt : List Host.Cell → Nat → Option Byte
  | [], _ => none
  | (b, v) :: r, a => if b = a then some v else cellAt r a

/-- List a byte, in its place by rising offset. -/
def insertCell (a : Nat) (v : Byte) : List Host.Cell → List Host.Cell
  | [] => [(a, v)]
  | (b, w) :: r =>
    if a < b then (a, v) :: (b, w) :: r
    else if a = b then (a, v) :: r
    else (b, w) :: insertCell a v r

/-- List no byte at an offset. -/
def eraseCell (a : Nat) (m : List Host.Cell) : List Host.Cell := m.filter (fun c => decide (c.1 ≠ a))

/-- Store a byte: the bits the entry keeps, in canonical form (R76; log 1). -/
def writeCell (a : Nat) (v : Byte) (m : List Host.Cell) : List Host.Cell :=
  if resetByte a = some (v &&& storeMask a) then eraseCell a m else insertCell a (v &&& storeMask a) m

/-- Offsets strictly rise. -/
def cellsSorted : List Host.Cell → Bool
  | [] => true
  | [_] => true
  | (a, _) :: (b, w) :: r => decide (a < b) && cellsSorted ((b, w) :: r)

/-- A cell holds only stored bits, and not the contents the byte has unlisted. -/
def cellOk (c : Host.Cell) : Bool := decide (c.2 &&& storeMask c.1 = c.2) && decide (resetByte c.1 ≠ some c.2)

/-- The canonical form of the memories (log 1). -/
def Memory.wf (m : List Host.Cell) : Bool := cellsSorted m && m.all cellOk

/-- One byte of the memories, by window offset. -/
def State.readByte (s : State) (a : Nat) : Byte :=
  match cellAt s.mem a with
  | some v => v
  | none => unlistedByte s.memDraw a

/-- Store one byte, by window offset. -/
def State.writeByte (s : State) (a : Nat) (v : Byte) : State :=
  { s with mem := writeCell a v s.mem }

/-- A whole entry as the host sees it: zero-extended to 32 bits, because bits that are not stored read 0 (R74, R76). The entry's
low byte lies at the lowest offset (log 7). -/
def State.readWord (s : State) (a : Nat) : Word :=
  s.readByte (a + 3) ++ s.readByte (a + 2) ++ s.readByte (a + 1) ++ s.readByte a

/-- Store the four bytes of an entry, the low byte at the lowest offset (log 7). -/
def writeCells (a : Nat) (v : Word) (m : List Host.Cell) : List Host.Cell :=
  writeCell (a + 3) (v.extractLsb' 24 8) (writeCell (a + 2) (v.extractLsb' 16 8)
    (writeCell (a + 1) (v.extractLsb' 8 8) (writeCell a (v.extractLsb' 0 8) m)))

/-- Store a whole entry: the low bits of its storage width (R74, R76). -/
def State.writeWord (s : State) (a : Nat) (v : Word) : State :=
  { s with mem := writeCells a v s.mem }

/-- A word of FBUF, its first byte in bits [31:24] (R77). -/
def State.readWordBE (s : State) (a : Nat) : Word :=
  s.readByte a ++ s.readByte (a + 1) ++ s.readByte (a + 2) ++ s.readByte (a + 3)

/-- Store four bytes of FBUF, bits [31:24] into the first (R77). -/
def writeCellsBE (a : Nat) (v : Word) (m : List Host.Cell) : List Host.Cell :=
  writeCell (a + 3) (v.extractLsb' 0 8) (writeCell (a + 2) (v.extractLsb' 8 8)
    (writeCell (a + 1) (v.extractLsb' 16 8) (writeCell a (v.extractLsb' 24 8) m)))

/-- Store a word of FBUF (R77). -/
def State.writeWordBE (s : State) (a : Nat) (v : Word) : State :=
  { s with mem := writeCellsBE a v s.mem }

/-- `n` entries from an offset on, the first first. -/
def State.readWords (s : State) (a : Nat) : Nat → List Word
  | 0 => []
  | n + 1 => s.readWord a :: s.readWords (a + 4) n

/-- Store entries from an offset on, the first first. -/
def writeCellsList (a : Nat) : List Word → List Host.Cell → List Host.Cell
  | [], m => m
  | v :: vs, m => writeCellsList (a + 4) vs (writeCells a v m)

/-- Store entries from an offset on, the first first. -/
def State.writeWords (s : State) (a : Nat) (vs : List Word) : State :=
  { s with mem := writeCellsList a vs s.mem }

/-- The slot index of coefficient k of channel ch (R16, R75). -/
def slotIndex (ch : BitVec 3) (k : Nat) : Nat := ch.toNat * Config.ncoef + k

/-- COEF[i] (R53). -/
def State.coef (s : State) (i : Nat) : Word := s.readWord (coefBase + 4 * i)

/-- EXPM[i] (R54). -/
def State.expm (s : State) (i : Nat) : Byte := s.readByte (expmBase + 4 * i)

/-- BAPM[i] (R55). -/
def State.bapm (s : State) (i : Nat) : BitVec 4 := (s.readByte (bapmBase + 4 * i)).extractLsb' 0 4

/-- Window offset of SLOT[i] (R71). -/
def slotAddr (i : Nat) : Nat := slotBase + 4 * i

/-- FBUF[i] (R60). -/
def State.fbuf (s : State) (i : Nat) : Byte := s.readByte (fbufBase + i)

/-- FBUF[i] <- v (R60). -/
def State.setFbuf (s : State) (i : Nat) (v : Byte) : State := s.writeByte (fbufBase + i) v

/-- FBUF[a .. a+m-1] (R185). -/
def State.fbufBytes (s : State) (a m : Nat) : List Byte := (List.range m).map fun j => s.fbuf (a + j)

/-- TDWIN as a window, the oldest sample first (R57). -/
def State.tdwin (s : State) : List Word := s.readWords tdwinBase Config.tdWin

/-- TDNEW, the oldest sample first (R58). -/
def State.tdnew (s : State) : List Word := s.readWords tdnewBase tailLen

/-- Window offset of TDTAIL[ch][0] (R71, R75). -/
def tailAddr (ch : BitVec 3) : Nat := tdtailBase + entryBytes (ch.toNat * tailLen)

/-- TDTAIL[ch], the oldest sample first (R59). -/
def State.tail (s : State) (ch : BitVec 3) : List Word := s.readWords (tailAddr ch) tailLen

/-- TDTAIL becomes +0.0 everywhere (R65, R119, R237). -/
def State.clearTails (s : State) : State :=
  { s with mem := s.mem.filter fun c => !inTdtail c.1 }

/-! ### Errors and the end of a command -/

/-- The number of an error code (R206). -/
def ErrCode.num : ErrCode → Nat
  | .badCmd => 1
  | .badCh => 2
  | .badExp => 3
  | .qRange => 4
  | .tdNan => 5
  | .bitOvf => 6
  | .frmOvf => 7
  | .badFs => 8
  | .crcRange => 9
  | .busyCmd => 10
  | .busyAcc => 11
  | .bus => 12

/-- The bit of ERRBITS that an error code sets (R206, R209). -/
def errBit (c : ErrCode) : BitVec 12 := 1#12 <<< (c.num - 1)

/-- Raise an error: latch its code and information word if no error bit is set, then set its bit (R209, R211). This is AQTC's
whole exception entry: there is no saved program counter, no vector and no mode (R205). -/
def State.raise (s : State) (c : ErrCode) (info : Word) : State :=
  { s with
    errCode := if s.errBits = 0#12 then BitVec.ofNat 4 c.num else s.errCode
    errInfo := if s.errBits = 0#12 then info else s.errInfo
    errBits := s.errBits ||| errBit c }

/-- The host's acknowledgement: a write of `v` to ERRBITS clears the bits written as 1, and the latch when no bit is left (R212).
AQTC has no other return from an error (R205). -/
def State.ackErrors (s : State) (v : Word) : State :=
  { s with
    errBits := s.errBits &&& ~~~(v.extractLsb' 1 12)
    errCode := if s.errBits &&& ~~~(v.extractLsb' 1 12) = 0#12 then 0#4 else s.errCode
    errInfo := if s.errBits &&& ~~~(v.extractLsb' 1 12) = 0#12 then 0#32 else s.errInfo }

/-- A command's rule ran to its end. -/
def CmdResult.ok (s : State) : CmdResult := { st := s, err := none }

/-- A command's rule raised an error, having reached `s` (R210). -/
def CmdResult.fail (s : State) (c : ErrCode) (info : Word) : CmdResult := { st := s, err := some { code := c, info := info } }

/-- The error that ended a command, if one did, is raised in the state it reached (R209, R210). -/
def CmdResult.settle (r : CmdResult) : State :=
  match r.err with
  | none => r.st
  | some e => r.st.raise e.code e.info

/-- Completion, with or without an error: DONE <- 1, BUSY <- 0 (R214). -/
def CmdResult.complete (r : CmdResult) : State := { r.settle with done := true, busy := false }

/-- The outcome of a command's completion step. Every command completes (R201, R214). -/
def CmdResult.outcome (r : CmdResult) : Host.Outcome State Fault Refusal := .next r.complete

/-! ### Resets -/

/-- The registers at their reset values, the memories and the model's own fields as they are (R65). -/
def State.resetRegs (s : State) : State :=
  { State.reset with
    mem := s.mem
    memDraw := s.memDraw
    draws := s.draws
    rst := s.rst
    inputs := s.inputs
    resp := s.resp }

/-- The bytes at the given offsets take unspecified values, by the next draw (R238, R239; log 1). -/
def State.drawAt (s : State) (as : List Nat) : State :=
  { s with mem := as.foldl (fun m a => writeCell a (Config.drawByte s.draws a) m) s.mem, draws := s.draws + 1 }

/-- The state when `rst` is deasserted: every register at its hard reset value, the engine idle, and fresh unspecified contents in
the memories that have no reset value (R236, R239). -/
def State.hardReset (s : State) : State :=
  { State.reset with
    mem := []
    memDraw := s.draws
    draws := s.draws + 1
    inputs := s.inputs
    resp := s.resp }

/-- A change of the `rst` input: hard reset happens when it is deasserted (R235, R236; log 4). -/
def State.setRst (s : State) (level : Bool) : State :=
  if level then { s with rst := true } else if s.rst then s.hardReset else s

/-- The word the engine executes: the last one it accepted (R62, R213). -/
def State.fetchWord (s : State) : Word := s.lastCmd

end Sys2Proof.Machine
end

