-- ==== Sys2Proof/Machine/Operands.lean ====
section
/-!
DEFINITION. The operand forms of the commands: SLOT words (R56), the group state of a class (R61, R138), bit-allocation classes
(R131), the quantizer's arithmetic (R133, R136), and samples of TD_FMT (R11, R15, R110).
-/
namespace Sys2Proof.Machine

open Sys2Proof

/-! ### SLOT words -/

/-- A SLOT entry as the host sees it: VAL | PH << 16 | BAP << 20 (R56, R76). -/
def Slot.toWord (x : Slot) : Word := 0#8 ++ x.bap ++ 0#3 ++ BitVec.ofBool x.ph ++ x.val

/-- The SLOT entry of a word, its reserved bits discarded (R56, R76). -/
def Slot.ofWord (w : Word) : Slot :=
  { val := w.extractLsb' 0 16, ph := w.getLsbD 16, bap := w.extractLsb' 20 4 }

/-- SLOT[i] (R56). -/
def State.slot (s : State) (i : Nat) : Slot := Slot.ofWord (s.readWord (slotAddr i))

/-- SLOT[i] <- x (R56). -/
def State.setSlot (s : State) (i : Nat) (x : Slot) : State := s.writeWord (slotAddr i) x.toWord

/-- SLOT[i].VAL <- v, the entry's PH and BAP unchanged (R138). -/
def State.setSlotVal (s : State) (i : Nat) (v : Half) : State :=
  { s with mem := writeCell (slotAddr i + 1) (v.extractLsb' 8 8) (writeCell (slotAddr i) (v.extractLsb' 0 8) s.mem) }

/-! ### Grouped classes -/

/-- The class number of a grouped class (R131). -/
def Grp.bap : Grp → Nat
  | .g1 => 1
  | .g2 => 2
  | .g4 => 4

/-- L of a grouped class (R138). -/
def Grp.levels (g : Grp) : Nat := Config.levels g.bap

/-- N of a grouped class (R138). -/
def Grp.size (g : Grp) : Nat := Config.groupSize g.bap

/-- CNTg (R38). -/
def State.cnt (s : State) : Grp → Nat
  | .g1 => s.cnt1.toNat
  | .g2 => s.cnt2.toNat
  | .g4 => s.cnt4.toNat

/-- CNTg <- n (R38). -/
def State.setCnt (s : State) (g : Grp) (n : Nat) : State :=
  match g with
  | .g1 => { s with cnt1 := BitVec.ofNat 2 n }
  | .g2 => { s with cnt2 := BitVec.ofNat 2 n }
  | .g4 => { s with cnt4 := BitVec.ofNat 1 n }

/-- HEADg (R39). -/
def State.head (s : State) : Grp → Nat
  | .g1 => s.head1.toNat
  | .g2 => s.head2.toNat
  | .g4 => s.head4.toNat

/-- HEADg <- i (R39). -/
def State.setHead (s : State) (g : Grp) (i : Nat) : State :=
  match g with
  | .g1 => { s with head1 := BitVec.ofNat 11 i }
  | .g2 => { s with head2 := BitVec.ofNat 11 i }
  | .g4 => { s with head4 := BitVec.ofNat 11 i }

/-! ### Bit-allocation classes -/

/-- What a class means (R131). -/
inductive ClassKind where
  /-- Class 0: zero mantissa. -/
  | zero
  /-- Classes 1, 2, 4: symmetric, shared with the other members of its group. -/
  | grouped (g : Grp)
  /-- Classes 3, 5: symmetric, on its own. -/
  | symmetric
  /-- Classes 6 to 15: asymmetric. -/
  | asymmetric
  deriving DecidableEq, Repr

/-- The class table (R131). -/
def classKind (bap : BitVec 4) : ClassKind :=
  match bap.toNat with
  | 0 => .zero
  | 1 => .grouped .g1
  | 2 => .grouped .g2
  | 3 => .symmetric
  | 4 => .grouped .g4
  | 5 => .symmetric
  | _ => .asymmetric

/-- The group a class shares its mantissas in, if it has one (R131). -/
def groupOf (bap : BitVec 4) : Option Grp :=
  match classKind bap with
  | .grouped g => some g
  | .zero => none
  | .symmetric => none
  | .asymmetric => none

/-! ### Quantizer arithmetic, on unbounded integers (R14) -/

/-- Symmetric quantization onto L levels (R133). -/
def symq (c : Int) (e L : Nat) : Int :=
  (((((L : Int) * c) >>> (Config.fixFrac - e)) + 1) >>> (1 : Nat)) + ((L / 2 : Nat) : Int)

/-- The symmetric range condition (R135). -/
def symqInRange (q : Int) (L : Nat) : Bool := decide (0 ≤ q ∧ q ≤ (L : Int) - 1)

/-- The shift of asymmetric quantization: left if non-negative (R136). -/
def asymqShift (e b : Nat) : Int := (e : Int) + ((b : Int) - 1) - (Config.fixFrac : Int)

/-- The scaled coefficient before the clip: exact to the left, floor to the right (R136). -/
def asymqScaled (c : Int) (e b : Nat) : Int :=
  if 0 ≤ asymqShift e b then c * 2 ^ (asymqShift e b).toNat else c >>> (-asymqShift e b).toNat

/-- clip(v, lo, hi) (R14). -/
def clip (v lo hi : Int) : Int := min (max v lo) hi

/-- Asymmetric quantization onto 2^b levels: the b-bit two's complement code (R136). -/
def asymq (c : Int) (e b : Nat) : Nat :=
  (clip (asymqScaled c e b) (-(2 ^ (b - 1))) (2 ^ (b - 1) - 1) % 2 ^ b).toNat

/-! ### Samples of the format TD_FMT, IEEE 754 binary32 (R11, R15) -/

/-- Fraction bits of a sample. -/
def fracBits : Nat := Config.tdFmt.fracBits

/-- The place of a sample's sign bit, above its exponent and fraction. -/
def signBit : Nat := Config.tdFmt.expBits + fracBits

/-- The exponent field of infinities and NaNs: all ones. -/
def expOnes : Nat := 2 ^ Config.tdFmt.expBits - 1

/-- The magnitude bits of infinity: exponent all ones, fraction 0. -/
def infMag : Nat := expOnes * 2 ^ fracBits

/-- The spacing of the subnormals is 2 to the power minus this. -/
def unitExp : Nat := 2 ^ (Config.tdFmt.expBits - 1) - 2 + fracBits

/-- The magnitude bits of a sample: all but the sign. -/
def magBits (x : Word) : Nat := x.toNat % 2 ^ signBit

/-- The biased exponent of a sample, x[30:23]. -/
def expField (x : Word) : Nat := magBits x / 2 ^ fracBits

/-- The fraction of a sample, x[22:0]. -/
def fracField (x : Word) : Nat := x.toNat % 2 ^ fracBits

/-- isnan(x): exponent all ones, fraction not 0 (R15). -/
def isNan (x : Word) : Bool := decide (expField x = expOnes ∧ fracField x ≠ 0)

/-- Exponent all ones, fraction 0. -/
def isInf (x : Word) : Bool := decide (magBits x = infMag)

/-- abs32(x): bit 31 cleared (R15). -/
def abs32 (x : Word) : Word := x &&& BitVec.ofNat 32 (2 ^ signBit - 1)

/-- The order of the samples that are no NaN: the signed magnitude, in which +0 and -0 are one value (R15). -/
def orderKey (x : Word) : Int := if x.getLsbD signBit then -(magBits x : Int) else (magBits x : Int)

/-- a <f b: the IEEE ordered comparison, false if either is a NaN (R15). -/
def ltF (a b : Word) : Bool := !isNan a && !isNan b && decide (orderKey a < orderKey b)

/-- a >f b (R15). -/
def gtF (a b : Word) : Bool := ltF b a

/-- A finite sample's magnitude in units of the spacing of the subnormals, 2^-149 in binary32. -/
def finiteUnits (x : Word) : Nat :=
  if expField x = 0 then fracField x else (2 ^ fracBits + fracField x) * 2 ^ (expField x - 1)

/-- p / 2^n to the nearest integer, ties to even. -/
def roundShift (p n : Nat) : Nat :=
  if p % 2 ^ n * 2 > 2 ^ n ∨ (p % 2 ^ n * 2 = 2 ^ n ∧ p / 2 ^ n % 2 = 1) then p / 2 ^ n + 1 else p / 2 ^ n

/-- How many binary places above the subnormals' spacing the spacing of the results near a product of p square units lies: 0 up to the
first normal binade, one more for each binade above it. -/
def spacing (p : Nat) : Nat := Nat.log2 (p / 2 ^ unitExp) - fracBits

/-- The magnitude bits of a product of p square units rounded to a sample: nearest, ties to even, subnormals kept, infinity where the
rounded value leaves the format (R15). -/
def roundMag (p : Nat) : Nat := min (spacing p * 2 ^ fracBits + roundShift p (unitExp + spacing p)) infMag

/-- A sample of a sign and magnitude bits. -/
def signed (neg : Bool) (m : Nat) : Word := BitVec.ofBool neg ++ BitVec.ofNat 31 m

/-- mul32(a, b): the product as a sample (R15). None is a product that IEEE 754 makes a NaN, whose bits R15 does not give; no product of
DETECT is one (log 10). -/
def mul32 (a b : Word) : Option Word :=
  if isNan a || isNan b then none
  else if isInf a || isInf b then
    if magBits a = 0 ∨ magBits b = 0 then none else some (signed (a.getLsbD signBit ^^ b.getLsbD signBit) infMag)
  else some (signed (a.getLsbD signBit ^^ b.getLsbD signBit) (roundMag (finiteUnits a * finiteUnits b)))

/-- mul32(a, t) >f b (R112 to R114); false where the product is a NaN (R15). -/
def productExceeds (a t b : Word) : Bool :=
  match mul32 a t with
  | some p => gtF p b
  | none => false

end Sys2Proof.Machine
end

