-- ==== Sys2Proof/Machine/Flags.lean ====
section
/-!
DEFINITION. The status flags and the register words the host sees (10_state.md R27 to R51, R64), and the irq output (R63, R217).
-/
namespace Sys2Proof.Machine

open Sys2Proof

/-- CTRL.BSWEN (R30). -/
def State.bswen (s : State) : Bool := s.ctrl.getLsbD 0

/-- CTRL.IE_DONE (R30). -/
def State.ieDone (s : State) : Bool := s.ctrl.getLsbD 1

/-- CTRL.IE_ERR (R30). -/
def State.ieErr (s : State) : Bool := s.ctrl.getLsbD 2

/-- STATUS as the host reads it: BUSY bit 0, DONE bit 1 (R31). -/
def State.statusWord (s : State) : Word := 0#30 ++ BitVec.ofBool s.done ++ BitVec.ofBool s.busy

/-- ERRBITS as the host reads it: bits 12 down to 1 (R33). -/
def State.errBitsWord (s : State) : Word := 0#19 ++ s.errBits ++ 0#1

/-- GRPCNT as the host reads it: CNT1 [1:0], CNT2 [3:2], CNT4 [4] (R38). -/
def State.grpCntWord (s : State) : Word := 0#27 ++ s.cnt4 ++ s.cnt2 ++ s.cnt1

/-- TDSTAT of its fields: RES | CODE << 1 | IDX << 4 | CH << 8 | SRC << 11 (R40, R117, R118). -/
def tdstatBits (res : Bool) (code : BitVec 3) (idx : BitVec 4) (ch : BitVec 3) (src : Bool) : BitVec 12 :=
  BitVec.ofBool src ++ ch ++ idx ++ code ++ BitVec.ofBool res

/-- TDRES with bit ch replaced (R41, R118). -/
def setTdres (r : BitVec 6) (ch : BitVec 3) (res : Bool) : BitVec 6 :=
  (r &&& ~~~(1#6 <<< ch.toNat)) ||| (if res then 1#6 <<< ch.toNat else 0#6)

/-- The irq output: (IE_DONE and DONE) or (IE_ERR and ERRBITS not 0) (R63, R217). While `rst` is asserted the registers it depends on
have no stated contents, so its level is free (R235; log 4). -/
def State.irq (s : State) : Bool :=
  if s.rst then Config.irqUnderReset s.draws
  else (s.ieDone && s.done) || (s.ieErr && decide (s.errBits ≠ 0#12))

/-- What a host read of a register returns (R27 to R51). -/
def State.regRead (s : State) : Reg → Word
  | .id => Config.idValue
  | .ctrl => s.ctrl.zeroExtend 32
  | .status => s.statusWord
  | .cmd => s.lastCmd
  | .errBits => s.errBitsWord
  | .errCode => s.errCode.zeroExtend 32
  | .errInfo => s.errInfo
  | .qin => s.qin
  | .qout => s.qout
  | .grpCnt => s.grpCntWord
  | .grpHead1 => s.head1.zeroExtend 32
  | .grpHead2 => s.head2.zeroExtend 32
  | .grpHead4 => s.head4.zeroExtend 32
  | .tdStat => s.tdstat.zeroExtend 32
  | .tdRes => s.tdres.zeroExtend 32
  | .bitPos => s.bitpos
  | .putData => s.putdata
  | .fsw => s.fsw.zeroExtend 32
  | .crc1 => s.crc1.zeroExtend 32
  | .crc2 => s.crc2.zeroExtend 32
  | .frameBytes => s.frameBytes.zeroExtend 32
  | .crcStart => s.crcStart.zeroExtend 32
  | .crcLen => s.crcLen.zeroExtend 32
  | .crcBits => s.crcBits
  | .crcVal => s.crcVal.zeroExtend 32

/-- The window offset of a register (R27). -/
def Reg.offset : Reg → Nat
  | .id => 0x00
  | .ctrl => 0x04
  | .status => 0x08
  | .cmd => 0x0C
  | .errBits => 0x10
  | .errCode => 0x14
  | .errInfo => 0x18
  | .qin => 0x1C
  | .qout => 0x20
  | .grpCnt => 0x24
  | .grpHead1 => 0x28
  | .grpHead2 => 0x2C
  | .grpHead4 => 0x30
  | .tdStat => 0x34
  | .tdRes => 0x38
  | .bitPos => 0x3C
  | .putData => 0x40
  | .fsw => 0x44
  | .crc1 => 0x48
  | .crc2 => 0x4C
  | .frameBytes => 0x50
  | .crcStart => 0x54
  | .crcLen => 0x58
  | .crcBits => 0x5C
  | .crcVal => 0x60

/-- The register at a window offset; 0x64 to 0xFF are reserved (R27, R71). -/
def regOfOffset (off : Nat) : Option Reg :=
  match off with
  | 0x00 => some .id
  | 0x04 => some .ctrl
  | 0x08 => some .status
  | 0x0C => some .cmd
  | 0x10 => some .errBits
  | 0x14 => some .errCode
  | 0x18 => some .errInfo
  | 0x1C => some .qin
  | 0x20 => some .qout
  | 0x24 => some .grpCnt
  | 0x28 => some .grpHead1
  | 0x2C => some .grpHead2
  | 0x30 => some .grpHead4
  | 0x34 => some .tdStat
  | 0x38 => some .tdRes
  | 0x3C => some .bitPos
  | 0x40 => some .putData
  | 0x44 => some .fsw
  | 0x48 => some .crc1
  | 0x4C => some .crc2
  | 0x50 => some .frameBytes
  | 0x54 => some .crcStart
  | 0x58 => some .crcLen
  | 0x5C => some .crcBits
  | 0x60 => some .crcVal
  | _ => none

/-- Is the register the engine's while BUSY = 1 (R27, R66)? -/
def Reg.engineOwned : Reg → Bool
  | .id => false
  | .ctrl => false
  | .status => false
  | .cmd => false
  | .errBits => false
  | .errCode => false
  | .errInfo => false
  | .qin => true
  | .qout => true
  | .grpCnt => true
  | .grpHead1 => true
  | .grpHead2 => true
  | .grpHead4 => true
  | .tdStat => true
  | .tdRes => true
  | .bitPos => true
  | .putData => true
  | .fsw => true
  | .crc1 => true
  | .crc2 => true
  | .frameBytes => true
  | .crcStart => true
  | .crcLen => true
  | .crcBits => true
  | .crcVal => true

end Sys2Proof.Machine
end

