-- ==== Sys2Proof/Machine/BitWriter.lean ====
section
/-!
DEFINITION. The bit writer and mantissa packing commands (42_bitpack.md).
-/
namespace Sys2Proof.Machine

open Sys2Proof

/-- The writer's capacity in bits (R160). -/
def writerBits : Nat := 8 * Config.fbufBytes

/-- The current byte after PutBit(b) at bit p of it: bit 7 - p set to b, the bits below it cleared (R161). -/
def placeBit (old : Byte) (p : Nat) (b : Bool) : Byte :=
  (old &&& ~~~(0xFF#8 >>> p)) ||| ((BitVec.ofBool b).zeroExtend 8 <<< (7 - p))

/-- PutBit(b) (R161). -/
def putBit (s : State) (b : Bool) : State :=
  { s with
    mem := writeCell (fbufBase + s.bitpos.toNat / 8)
      (placeBit (s.fbuf (s.bitpos.toNat / 8)) (s.bitpos.toNat % 8) b) s.mem
    bitpos := s.bitpos + 1#32 }

/-- Bits w - 1 down to 0 of v, in that order (R162). -/
def putBitsFrom : Nat → Word → State → State
  | 0, _, s => s
  | w + 1, v, s => putBitsFrom w v (putBit s (v.getLsbD w))

/-- PutBits(w, v, info): all w bits, or BITOVF and none (R162). -/
def putBits (s : State) (w : Nat) (v info : Word) : CmdResult :=
  if s.bitpos.toNat + w > writerBits then .fail s .bitOvf info else .ok (putBitsFrom w v s)

/-- PUTBITS's information word: BITPOS in bits [19:0] (R165, R207; log 11). -/
def putbitsInfo (s : State) : Word := 0#12 ++ s.bitpos.extractLsb' 0 20

/-- MPACK's information word: bit 31, slot [30:20], BITPOS [19:0] (R167, R207). -/
def mpackInfo (s : State) (i : Nat) : Word := 1#1 ++ BitVec.ofNat 11 i ++ s.bitpos.extractLsb' 0 20

/-- Zero bits up to the next byte boundary, at most `n` of them (R166). -/
def flushBits : Nat → State → State
  | 0, s => s
  | n + 1, s => if s.bitpos.toNat % 8 = 0 then s else flushBits n (putBit s false)

/-- FLUSH's rule: while BITPOS is no multiple of 8, PutBit(0) (R166); seven steps always reach one. -/
def flushWriter (s : State) : State := flushBits 7 s

/-- One slot of a run: a placeholder and a class of width 0 emit nothing, else the low bits of VAL (R167, R168). -/
def packSlot (s : State) (i : Nat) : CmdResult :=
  if (s.slot i).ph then .ok s
  else if Config.mantWidth (s.slot i).bap.toNat = 0 then .ok s
  else putBits s (Config.mantWidth (s.slot i).bap.toNat) ((s.slot i).val.zeroExtend 32) (mpackInfo s i)

/-- `m` slots of a run from coefficient `k` of channel `ch` on, stopping at the first error (R167, R210). -/
def mpackFrom (ch : BitVec 3) : Nat → Nat → State → CmdResult
  | 0, _, s => .ok s
  | m + 1, k, s =>
    match packSlot s (slotIndex ch k) with
    | { st := t, err := none } => mpackFrom ch m (k + 1) t
    | { st := t, err := some e } => { st := t, err := some e }

/-- The body of PUTBITS w (R165). -/
def putbitsBody (w : BitVec 6) (s : State) : CmdResult := putBits s w.toNat s.putdata (putbitsInfo s)

/-- The body of MPACK ch, n (R167). -/
def mpackBody (ch : BitVec 3) (n : BitVec 9) (s : State) : CmdResult := mpackFrom ch n.toNat 0 s

/-- FBEGIN (R164): the writer at the frame's first bit, the frame's results cleared, FBUF as it is. -/
def execFbegin (s : State) : Host.Outcome State Fault Refusal :=
  (CmdResult.ok { s with bitpos := 0#32, crc1 := 0#16, crc2 := 0#16, frameBytes := 0#16 }).outcome

/-- PUTBITS w (R165). -/
def execPutbits (w : BitVec 6) (s : State) : Host.Outcome State Fault Refusal := (putbitsBody w s).outcome

/-- FLUSH (R166). -/
def execFlush (s : State) : Host.Outcome State Fault Refusal := (CmdResult.ok (flushWriter s)).outcome

/-- MPACK ch, n (R167). -/
def execMpack (ch : BitVec 3) (n : BitVec 9) (s : State) : Host.Outcome State Fault Refusal := (mpackBody ch n s).outcome

end Sys2Proof.Machine
end

