-- ==== Sys2Proof/Machine/Control.lean ====
section
/-!
DEFINITION. The control command (44_control.md).
-/
namespace Sys2Proof.Machine

open Sys2Proof

/-- NOP (R200): nothing but the completion every command has. -/
def execNop (s : State) : Host.Outcome State Fault Refusal := (CmdResult.ok s).outcome

end Sys2Proof.Machine
end

