-- ==== Sys2Proof/Machine/Crc.lean ====
section
/-!
DEFINITION. The CRC unit and frame finalization (43_crc.md).
-/
namespace Sys2Proof.Machine

open Sys2Proof

/-- CRCSTEP(R, b): one data bit (R180). -/
def crcStep (r : Half) (b : Bool) : Half :=
  if r.getLsbD 15 ^^ b then (r <<< 1) ^^^ Config.crcPoly else r <<< 1

/-- Bits i - 1 down to 0 of a byte, most significant first (R181). -/
def crcBitsOf : Nat → Byte → Half → Half
  | 0, _, r => r
  | i + 1, b, r => crcBitsOf i b (crcStep r (b.getLsbD i))

/-- The CRC register after the bytes of a string, from r on (R181). -/
def crcFrom (r : Half) : List Byte → Half
  | [] => r
  | b :: bs => crcFrom (crcBitsOf 8 b r) bs

/-- CRC16(B) (R181): from the initial value 0. -/
def crc16 (bs : List Byte) : Half := crcFrom Config.crcInit bs

/-- ZAPP(R, k): k zero bits appended (R182). -/
def zapp (r : Half) : Nat → Half
  | 0 => r
  | k + 1 => zapp (crcStep r false) k

/-- One step of INV: one zero bit removed (R183). -/
def invStep (r : Half) : Half :=
  if r.getLsbD 0 then ((r ^^^ Config.crcPoly) >>> 1) ||| 0x8000#16 else r >>> 1

/-- INV(R, k): k zero bits removed (R183). -/
def inv (r : Half) : Nat → Half
  | 0 => r
  | k + 1 => inv (invStep r) k

/-- The five-eighths point in 16-bit words, by either rule (R184). NEAREST_EVEN rounds 5 * fs / 8 with ties toward the smaller. -/
def fs58Of (rule : Config.Fs58Rule) (fs : Nat) : Nat :=
  match rule with
  | .a52Floor => fs / 2 + fs / 8
  | .nearestEven => (5 * fs + 3) / 8

/-- The five-eighths point of this hardware (R184). -/
def fs58 (fs : Nat) : Nat := fs58Of Config.fs58Rule fs

/-- FBUF[i .. i+n-1] <- 0 (R188). -/
def zeroFbuf (s : State) (i : Nat) : Nat → State
  | 0 => s
  | n + 1 => zeroFbuf (s.setFbuf i 0#8) (i + 1) n

/-- FBUF[i] <- c >> 8; FBUF[i+1] <- c & 0xFF (R188). -/
def putCrc (s : State) (i : Nat) (c : Half) : State :=
  { s with mem := writeCell (fbufBase + (i + 1)) (c.extractLsb' 0 8) (writeCell (fbufBase + i) (c.extractLsb' 8 8) s.mem) }

/-- nb: the bytes the frame's fields occupy (R188). -/
def fieldBytes (s : State) : Nat := (s.bitpos.toNat + 7) / 8

/-- c1 of a frame whose fields are flushed and padded (R188, R189). -/
def crc1Of (s : State) (f : Nat) : Half := inv (crc16 (s.fbufBytes 4 (2 * f - 4))) (16 * f - 16)

/-- c2 of a frame whose CRC1 is placed (R188). -/
def crc2Of (s : State) (f fs : Nat) : Half := crc16 (s.fbufBytes (2 * f) (2 * fs - 2 - 2 * f))

/-- The frame flushed and zero-padded to 2 * fs - 2 bytes (R188). -/
def padFrame (s : State) (fs : Nat) : State :=
  zeroFbuf (flushWriter s) (fieldBytes s) (2 * fs - 2 - fieldBytes s)

/-- CRC1 placed at bytes 2 and 3 (R188). -/
def placeCrc1 (s : State) (fs : Nat) : State := putCrc s 2 (crc1Of s (fs58 fs))

/-- CRC2 placed in the frame's final two bytes (R188). -/
def placeCrc2 (s : State) (fs : Nat) : State := putCrc s (2 * fs - 2) (crc2Of s (fs58 fs) fs)

/-- FINAL's rule once its checks have passed (R188). -/
def finishFrame (s : State) (fs : Nat) : State :=
  { placeCrc2 (placeCrc1 (padFrame s fs) fs) fs with
    crc1 := crc1Of (padFrame s fs) (fs58 fs)
    crc2 := crc2Of (placeCrc1 (padFrame s fs) fs) (fs58 fs) fs
    frameBytes := BitVec.ofNat 16 (2 * fs)
    bitpos := BitVec.ofNat 32 (16 * fs) }

/-- The body of FINAL (R188): FRAMEBYTES is cleared before the checks, so a failing FINAL leaves it 0. -/
def finalBody (s : State) : CmdResult :=
  if s.fsw.toNat < Config.fswMin ∨ s.fsw.toNat > Config.fswMax then
    .fail { s with frameBytes := 0#16 } .badFs (s.fsw.zeroExtend 32)
  else if fieldBytes s > 2 * s.fsw.toNat - 2 then
    .fail { s with frameBytes := 0#16 } .frmOvf (BitVec.ofNat 32 (fieldBytes s))
  else .ok (finishFrame { s with frameBytes := 0#16 } s.fsw.toNat)

/-- The body of CRCCALC (R185). -/
def crccalcBody (s : State) : CmdResult :=
  if s.crcStart.toNat + s.crcLen.toNat > Config.fbufBytes then .fail s .crcRange (s.crcStart ++ s.crcLen)
  else .ok { s with crcVal := crc16 (s.fbufBytes s.crcStart.toNat s.crcLen.toNat) }

/-- CRCCALC (R185). -/
def execCrccalc (s : State) : Host.Outcome State Fault Refusal := (crccalcBody s).outcome

/-- CRCZAPP (R186). -/
def execCrczapp (s : State) : Host.Outcome State Fault Refusal :=
  (CmdResult.ok { s with crcVal := zapp s.crcVal s.crcBits.toNat }).outcome

/-- CRCINV (R187). -/
def execCrcinv (s : State) : Host.Outcome State Fault Refusal :=
  (CmdResult.ok { s with crcVal := inv s.crcVal s.crcBits.toNat }).outcome

/-- FINAL (R188). -/
def execFinal (s : State) : Host.Outcome State Fault Refusal := (finalBody s).outcome

end Sys2Proof.Machine
end

