-- ==== Sys2Proof/Machine/Quantizer.lean ====
section
/-!
DEFINITION. The mantissa quantizer commands (41_quantizer.md).
-/
namespace Sys2Proof.Machine

open Sys2Proof

/-- GROUP(g, i, q), the slots it writes (R138): the first member opens the group in its own slot, a later one adds into the head and
leaves a placeholder. The add comes first (R144, corner cases). -/
def groupSlots (s : State) (g : Grp) (i q : Nat) : State :=
  if s.cnt g = 0 then
    s.setSlot i { val := BitVec.ofNat 16 (q * g.levels ^ (g.size - 1)), ph := false, bap := BitVec.ofNat 4 g.bap }
  else
    (s.setSlotVal (s.head g)
        (BitVec.ofNat 16 ((s.slot (s.head g)).val.toNat + q * g.levels ^ (g.size - 1 - s.cnt g)))).setSlot i
      { val := Config.placeholder, ph := true, bap := BitVec.ofNat 4 g.bap }

/-- GROUP(g, i, q) (R138): the slots, the head index of a group it opens, and the counter. -/
def groupElem (s : State) (g : Grp) (i q : Nat) : State :=
  if s.cnt g = 0 then ((groupSlots s g i q).setHead g i).setCnt g ((s.cnt g + 1) % g.size)
  else (groupSlots s g i q).setCnt g ((s.cnt g + 1) % g.size)

/-- The information word of BADEXP and QRANGE: slot [10:0], class [15:12], exponent [23:16] (R207). -/
def elemInfo (i : Nat) (bap : BitVec 4) (e : Nat) : Word :=
  0#8 ++ BitVec.ofNat 8 e ++ bap ++ 0#1 ++ BitVec.ofNat 11 i

/-- QOUT <- SLOT[i] as a SLOT word (R37, R144). -/
def latchQout (s : State) (i : Nat) : State := { s with qout := (s.slot i).toWord }

/-- QELEM(i, c, e, bap): one quantizer element (R144). -/
def qelem (s : State) (i : Nat) (c : Int) (e : Nat) (bap : BitVec 4) : CmdResult :=
  match classKind bap with
  | .zero => .ok (latchQout (s.setSlot i { val := 0#16, ph := false, bap := 0#4 }) i)
  | .grouped g =>
    if e > Config.expMax then .fail s .badExp (elemInfo i bap e)
    else if symqInRange (symq c e (Config.levels bap.toNat)) (Config.levels bap.toNat) then
      .ok (latchQout (groupElem s g i (symq c e (Config.levels bap.toNat)).toNat) i)
    else .fail s .qRange (elemInfo i bap e)
  | .symmetric =>
    if e > Config.expMax then .fail s .badExp (elemInfo i bap e)
    else if symqInRange (symq c e (Config.levels bap.toNat)) (Config.levels bap.toNat) then
      .ok (latchQout (s.setSlot i
        { val := BitVec.ofNat 16 (symq c e (Config.levels bap.toNat)).toNat, ph := false, bap := bap }) i)
    else .fail s .qRange (elemInfo i bap e)
  | .asymmetric =>
    if e > Config.expMax then .fail s .badExp (elemInfo i bap e)
    else .ok (latchQout (s.setSlot i
      { val := BitVec.ofNat 16 (asymq c e (Config.qbits bap.toNat)), ph := false, bap := bap }) i)

/-- `m` elements of a run from coefficient `k` of channel `ch` on, stopping at the first error (R145, R210). -/
def qrunFrom (ch : BitVec 3) : Nat → Nat → State → CmdResult
  | 0, _, s => .ok s
  | m + 1, k, s =>
    match qelem s (slotIndex ch k) (s.coef (slotIndex ch k)).toInt (s.expm (slotIndex ch k)).toNat
        (s.bapm (slotIndex ch k)) with
    | { st := t, err := none } => qrunFrom ch m (k + 1) t
    | { st := t, err := some e } => { st := t, err := some e }

/-- QBLK (R143): no group of any class is open. -/
def execQblk (s : State) : Host.Outcome State Fault Refusal :=
  (CmdResult.ok { s with cnt1 := 0#2, cnt2 := 0#2, cnt4 := 0#1, head1 := 0#11, head2 := 0#11, head4 := 0#11 }).outcome

/-- QCOEF ch, k, bap, exp (R144): the element of slot ch * 256 + k, its coefficient in QIN. -/
def execQcoef (ch : BitVec 3) (k : BitVec 8) (bap : BitVec 4) (exp : BitVec 5) (s : State) :
    Host.Outcome State Fault Refusal :=
  (qelem s (slotIndex ch k.toNat) s.qin.toInt exp.toNat bap).outcome

/-- QRUN ch, n (R145): the elements of coefficients 0 to n - 1. -/
def execQrun (ch : BitVec 3) (n : BitVec 9) (s : State) : Host.Outcome State Fault Refusal :=
  (qrunFrom ch n.toNat 0 s).outcome

end Sys2Proof.Machine
end

