-- ==== Sys2Proof/Machine/Transient.lean ====
section
/-!
DEFINITION. The transient detector and its commands (40_transient.md).
-/
namespace Sys2Proof.Machine

open Sys2Proof

/-- PEAK over the samples of a segment: the largest magnitude, +0.0 if all are zero (R111). -/
def peakOf (p : Word) : List Word → Word
  | [] => p
  | x :: xs => peakOf (if gtF (abs32 x) p then abs32 x else p) xs

/-- PEAK(w, a, n) (R111). -/
def peak (w : List Word) (a n : Nat) : Word := peakOf 0#32 ((w.drop a).take n)

/-- PEAK of segment i, counted from 0, of a window cut into segments of n samples (R112 to R114). -/
def segPeak (w : List Word) (n i : Nat) : Word := peak w (n * i) n

/-- What the detector reports (R40, R115). -/
structure Detection where
  res : Bool
  code : BitVec 3
  idx : BitVec 4
  deriving DecidableEq, Repr

/-- The first index of a list of segments of n samples whose peak times t exceeds the peak of the segment before it (R113, R114). -/
def firstRise (w : List Word) (n : Nat) (t : Word) : List Nat → Option Nat
  | [] => none
  | i :: is =>
    if productExceeds (segPeak w n i) t (segPeak w n (i - 1)) then some i else firstRise w n t is

/-- DETECT(w) on TD_WIN samples without a NaN (R112 to R115): silence of a half first, then level 1 on the halves, level 2 on the quarters
and level 3 on the eighths of the window; the first rise decides. -/
def detect (w : List Word) : Detection :=
  if ltF (segPeak w (Config.tdWin / 2) 0) Config.tdFloor || ltF (segPeak w (Config.tdWin / 2) 1) Config.tdFloor then
    { res := false, code := 4#3, idx := 0#4 }
  else if productExceeds (segPeak w (Config.tdWin / 2) 1) Config.tdT1 (segPeak w (Config.tdWin / 2) 0) then
    { res := true, code := 1#3, idx := 1#4 }
  else
    match firstRise w (Config.tdWin / 4) Config.tdT2 [2, 3] with
    | some i => { res := true, code := 2#3, idx := BitVec.ofNat 4 i }
    | none =>
      match firstRise w (Config.tdWin / 8) Config.tdT3 [4, 5, 6, 7] with
      | some i => { res := true, code := 3#3, idx := BitVec.ofNat 4 i }
      | none => { res := false, code := 0#3, idx := 0#4 }

/-- The lowest index, counted from j, of a NaN sample (R116). -/
def firstNan (j : Nat) : List Word → Option Nat
  | [] => none
  | x :: xs => if isNan x then some j else firstNan (j + 1) xs

/-- TDSTAT of a detection (R40, R117, R118). -/
def Detection.stat (d : Detection) (ch : BitVec 3) (src : Bool) : BitVec 12 := tdstatBits d.res d.code d.idx ch src

/-- TDNAN's information word: window index [8:0], channel [14:12], bit 15 for TDPUSH (R207). -/
def nanInfo (j : Nat) (ch : BitVec 3) (push : Bool) : Word :=
  0#16 ++ BitVec.ofBool push ++ ch ++ 0#3 ++ BitVec.ofNat 9 j

/-- The body of TDRUN (R117): NaN check, then DETECT on TDWIN. BSWEN is not read. -/
def tdrunBody (s : State) : CmdResult :=
  match firstNan 0 s.tdwin with
  | some j => .fail s .tdNan (nanInfo j 0#3 false)
  | none => .ok { s with tdstat := (detect s.tdwin).stat 0#3 false }

/-- The window of a TDPUSH: the channel's tail, then the new samples (R118). -/
def pushWindow (s : State) (ch : BitVec 3) : List Word := s.tail ch ++ s.tdnew

/-- The body of TDPUSH ch (R118), by the BSWEN value sampled at acceptance (R121). -/
def tdpushBody (ch : BitVec 3) (s : State) : CmdResult :=
  if s.bswenSampled then
    match firstNan 0 (pushWindow s ch) with
    | some j => .fail s .tdNan (nanInfo j ch true)
    | none =>
      .ok ({ s with
          tdstat := (detect (pushWindow s ch)).stat ch true
          tdres := setTdres s.tdres ch (detect (pushWindow s ch)).res }.writeWords (tailAddr ch) s.tdnew)
  else
    .ok { s with tdstat := tdstatBits false 5#3 0#4 ch true, tdres := setTdres s.tdres ch false }

/-- TDRUN (R117). -/
def execTdrun (s : State) : Host.Outcome State Fault Refusal := (tdrunBody s).outcome

/-- TDPUSH ch (R118). -/
def execTdpush (ch : BitVec 3) (s : State) : Host.Outcome State Fault Refusal := (tdpushBody ch s).outcome

/-- TDCLR (R119): every tail is +0.0; TDSTAT and TDRES stay. -/
def execTdclr (s : State) : Host.Outcome State Fault Refusal := (CmdResult.ok s.clearTails).outcome

end Sys2Proof.Machine
end

