-- ==== Sys2Proof/Machine/Dispatch.lean ====
section
/-! DEFINITION. The meaning of each command, one arm per row of spec/opcode_table.json: the completion step that executes it (R214). -/

namespace Sys2Proof.Machine

open Sys2Proof

def exec (i : Instr) (s : State) : Host.Outcome State Fault Refusal :=
  match i with
  | .nop => Sys2Proof.Machine.execNop s
  | .qblk => Sys2Proof.Machine.execQblk s
  | .qcoef ch k bap exp => Sys2Proof.Machine.execQcoef ch k bap exp s
  | .qrun ch n => Sys2Proof.Machine.execQrun ch n s
  | .fbegin => Sys2Proof.Machine.execFbegin s
  | .putbits w => Sys2Proof.Machine.execPutbits w s
  | .flush => Sys2Proof.Machine.execFlush s
  | .mpack ch n => Sys2Proof.Machine.execMpack ch n s
  | .tdrun => Sys2Proof.Machine.execTdrun s
  | .tdpush ch => Sys2Proof.Machine.execTdpush ch s
  | .tdclr => Sys2Proof.Machine.execTdclr s
  | .crccalc => Sys2Proof.Machine.execCrccalc s
  | .crczapp => Sys2Proof.Machine.execCrczapp s
  | .crcinv => Sys2Proof.Machine.execCrcinv s
  | .final => Sys2Proof.Machine.execFinal s

end Sys2Proof.Machine
end

