-- ==== Sys2Proof/Machine/HostPort.lean ====
section
/-!
DEFINITION. The host's side of the window: where an access lands (20_memory.md R71 to R77), what is refused (R72, R73, R84), the issue
of a command (60_exceptions.md R213, R215), write-1-to-clear (R31, R212), and the soft reset (70_reset_and_hazards.md R237, R238).
-/
namespace Sys2Proof.Machine

open Sys2Proof

/-! ### Where an access lands -/

/-- What a permitted offset of the window names (R71). -/
inductive Place where
  /-- A register. -/
  | reg (r : Reg)
  /-- An entry of a memory other than FBUF, by its window offset. -/
  | entry (a : Nat)
  /-- Four bytes of FBUF, by the window offset of the first. -/
  | frame (a : Nat)
  deriving DecidableEq, Repr

/-- Offset `a` is an entry of COEF, EXPM, BAPM, SLOT, TDWIN, TDNEW or TDTAIL (R71). -/
def isEntry (a : Nat) : Bool :=
  inRange coefBase (entryBytes Config.nslot) a || inRange expmBase (entryBytes Config.nslot) a ||
    inRange bapmBase (entryBytes Config.nslot) a || inRange slotBase (entryBytes Config.nslot) a ||
    inRange tdwinBase (entryBytes Config.tdWin) a || inRange tdnewBase (entryBytes tailLen) a || inTdtail a

/-- The address map (R71) of aligned offsets; none where the window is reserved or unmapped (R73). -/
def placeOf (a : Nat) : Option Place :=
  match regOfOffset a with
  | some r => some (.reg r)
  | none =>
    if isEntry a then some (.entry a)
    else if inRange fbufBase Config.fbufBytes a then some (.frame a)
    else none

/-- The bits an access moves, where its size is one the model tells apart (R72, R207). -/
def AccessSize.bits : AccessSize → Option Nat
  | .b8 => some 8
  | .b16 => some 16
  | .b32 => some 32
  | .other => none

/-- The place an access names, if it is of the permitted size, aligned, inside the window and mapped (R72, R73). -/
def accessPlace (size : AccessSize) (off : BitVec 16) : Option Place :=
  if size.bits = some Config.accessBits ∧ off.toNat % (Config.accessBits / 8) = 0 ∧ off.toNat < Config.windowBytes then
    placeOf off.toNat
  else none

/-- Is the place the engine's while BUSY = 1: every memory, and the registers R27 marks (R66)? -/
def Place.engineOwned : Place → Bool
  | .reg r => r.engineOwned
  | .entry _ => true
  | .frame _ => true

/-- The platform address of a window offset (R70); the base is the platform's (log 9). -/
def platformAddress (off : BitVec 16) : Nat := Config.aqtcBase + off.toNat

/-! ### Information words of refused accesses -/

/-- Bits [18:17] of BUS's information word (R207). -/
def AccessSize.code : AccessSize → BitVec 2
  | .b8 => 0#2
  | .b16 => 1#2
  | .b32 => 2#2
  | .other => 3#2

/-- BUS: offset [15:0], direction 16, size [18:17] (R207). -/
def busInfo (size : AccessSize) (off : BitVec 16) (wr : Bool) : Word := 0#13 ++ size.code ++ BitVec.ofBool wr ++ off

/-- BUSYACC: offset [15:0], direction 16 (R207). -/
def busyInfo (off : BitVec 16) (wr : Bool) : Word := 0#15 ++ BitVec.ofBool wr ++ off

/-! ### Issuing a command -/

/-- The error code of a rejected word (R101, R102). -/
def DecodeError.toCode : DecodeError → ErrCode
  | .badCmd => .badCmd
  | .badCh => .badCh

/-- Acceptance of a word written to CMD while BUSY = 0, one atomic step (R213): LASTCMD, DONE and the sampled BSWEN, then decode. A
rejected word raises its error and is done; a legal one makes the engine busy. -/
def State.accept (s : State) (w : Word) : State :=
  match decode w with
  | .ok _ => { s with lastCmd := w, done := false, bswenSampled := s.bswen, busy := true }
  | .error e =>
    { ({ s with lastCmd := w, bswenSampled := s.bswen }.raise (DecodeError.toCode e) w) with done := true }

/-- A word written to CMD (R213, R215). -/
def State.writeCmd (s : State) (w : Word) : State :=
  if s.busy then s.raise .busyCmd w else s.accept w

/-! ### Soft reset -/

/-- The stored bytes of SLOT[i] (R76). -/
def slotBytes (i : Nat) : List Nat := [slotAddr i, slotAddr i + 1, slotAddr i + 2]

/-- The stored bytes of the head of an open group of a class (R238). -/
def openHeadBytes (s : State) (g : Grp) : List Nat :=
  if s.cnt g = 0 then [] else slotBytes (s.head g)

/-- The FBUF bytes from bit position p0 to the byte holding the last bit before position p1, none where no bit is written (R238). -/
def bitBytes (p0 p1 : Nat) : List Nat :=
  if p0 < p1 then (List.range ((p1 - 1) / 8 + 1 - p0 / 8)).map fun j => fbufBase + (p0 / 8 + j) else []

/-- The bytes of SLOT and FBUF that an aborted command leaves unspecified (R238, its list; log 2). -/
def abortTargets (i : Instr) (s : State) : List Nat :=
  match i with
  | .qcoef ch k bap _ =>
    slotBytes (slotIndex ch k.toNat) ++
      (match groupOf bap with
        | some g => openHeadBytes s g
        | none => [])
  | .qrun ch n =>
    ((List.range n.toNat).map fun k => slotBytes (slotIndex ch k)).flatten ++
      (openHeadBytes s .g1 ++ openHeadBytes s .g2 ++ openHeadBytes s .g4)
  | .putbits w => bitBytes s.bitpos.toNat (putbitsBody w s).st.bitpos.toNat
  | .flush => bitBytes s.bitpos.toNat (flushWriter s).bitpos.toNat
  | .mpack ch n => bitBytes s.bitpos.toNat (mpackBody ch n s).st.bitpos.toNat
  | .final =>
    ([2, 3] ++ (List.range (min (2 * s.fsw.toNat) Config.fbufBytes - s.bitpos.toNat / 8)).map
      fun j => s.bitpos.toNat / 8 + j).map fun j => fbufBase + j
  | .nop => []
  | .qblk => []
  | .fbegin => []
  | .tdrun => []
  | .tdpush _ => []
  | .tdclr => []
  | .crccalc => []
  | .crczapp => []
  | .crcinv => []

/-- What an abort does to the memories: nothing while idle, else the pending command's targets are drawn (R238). -/
def State.abortPending (s : State) : State :=
  if s.busy then
    match decode s.fetchWord with
    | .ok i => s.drawAt (abortTargets i s)
    | .error _ => s
  else s

/-- Soft reset, one atomic step (R237): the pending command is abandoned, every register takes its reset value, the tails are +0.0, and
the other memories stay but for an aborted command's targets. -/
def State.softReset (s : State) : State := s.abortPending.clearTails.resetRegs

/-! ### Accesses -/

/-- What a permitted read returns (R74, R76, R77). -/
def State.readPlace (s : State) : Place → Word
  | .reg r => s.regRead r
  | .entry a => s.readWord a
  | .frame a => s.readWordBE a

/-- What a permitted write of a register does (R28, R30 to R51): read-only registers and fields ignore it. -/
def State.writeReg (s : State) (r : Reg) (v : Word) : State :=
  match r with
  | .ctrl => if v.getLsbD 31 then s.softReset else { s with ctrl := v.extractLsb' 0 3 }
  | .status => { s with done := s.done && !v.getLsbD 1 }
  | .cmd => s.writeCmd v
  | .errBits => s.ackErrors v
  | .qin => { s with qin := v }
  | .putData => { s with putdata := v }
  | .fsw => { s with fsw := v.extractLsb' 0 16 }
  | .crcStart => { s with crcStart := v.extractLsb' 0 16 }
  | .crcLen => { s with crcLen := v.extractLsb' 0 16 }
  | .crcBits => { s with crcBits := v }
  | .crcVal => { s with crcVal := v.extractLsb' 0 16 }
  | .id => s
  | .errCode => s
  | .errInfo => s
  | .qout => s
  | .grpCnt => s
  | .grpHead1 => s
  | .grpHead2 => s
  | .grpHead4 => s
  | .tdStat => s
  | .tdRes => s
  | .bitPos => s
  | .crc1 => s
  | .crc2 => s
  | .frameBytes => s

/-- What a permitted write does (R74, R76, R77). -/
def State.writePlace (s : State) (p : Place) (v : Word) : State :=
  match p with
  | .reg r => s.writeReg r v
  | .entry a => s.writeWord a v
  | .frame a => s.writeWordBE a v

/-- The bus answers the access. -/
def State.respond (s : State) (r : BusResp) : State := { s with resp := r }

/-- A host read (R72 to R77, R84, R216, R220, R235): refused silently under `rst`, with BUS before BUSYACC, else the value read. -/
def State.hostRead (s : State) (size : AccessSize) (off : BitVec 16) : State :=
  if s.rst then s.respond (.read 0#32 false)
  else
    match accessPlace size off with
    | none => (s.raise .bus (busInfo size off false)).respond (.read 0#32 true)
    | some p =>
      if s.busy && p.engineOwned then (s.raise .busyAcc (busyInfo off false)).respond (.read 0#32 false)
      else s.respond (.read (s.readPlace p) false)

/-- A host write (R72 to R77, R84, R216, R220, R235). -/
def State.hostWrite (s : State) (size : AccessSize) (off : BitVec 16) (v : Word) : State :=
  if s.rst then s.respond (.write false)
  else
    match accessPlace size off with
    | none => (s.raise .bus (busInfo size off true)).respond (.write true)
    | some p =>
      if s.busy && p.engineOwned then (s.raise .busyAcc (busyInfo off true)).respond (.write false)
      else (s.writePlace p v).respond (.write false)

end Sys2Proof.Machine
end

