-- ==== Sys2Proof/Machine/Step.lean ====
section
/-!
DEFINITION. One step of AQTC: the next input takes effect, or the engine takes its completion step (00_scope.md R21, 60_exceptions.md
R213, R214; log 3).
-/
namespace Sys2Proof.Machine

open Sys2Proof

/-- The engine's turn. While BUSY = 1 it executes the accepted command (R214); while idle, or under `rst`, nothing happens. -/
def engineStep (s : State) : Host.Outcome State Fault Refusal :=
  if s.rst then .next s
  else if s.busy then
    match decode? s.fetchWord with
    | some i => exec i s
    | none => .fault .pendingIllegal
  else .next s

/-- One step: the first input, or the engine's turn when none is left. -/
def step (s : State) : Host.Outcome State Fault Refusal :=
  match s.inputs with
  | [] => engineStep s
  | .engine :: rest => engineStep { s with inputs := rest }
  | .read size off :: rest => .next ({ s with inputs := rest }.hostRead size off)
  | .write size off v :: rest => .next ({ s with inputs := rest }.hostWrite size off v)
  | .rst level :: rest => .next ({ s with inputs := rest }.setRst level)

/-- The inputs with the engine's turn first: nothing to add where none is left. -/
def engineFirst : List Input → List Input
  | [] => []
  | i :: is => .engine :: i :: is

/-- The state in which the very next step executes the command whose bits are `w`: `rst` is deasserted, no command is running, the
engine has just accepted the word (R213), and its turn comes before any input (log 12). -/
def State.withFetchWord (s : State) (nbits w : Nat) : State :=
  { s with rst := false, busy := false, inputs := engineFirst s.inputs }.accept (BitVec.ofNat 32 (w % 2 ^ nbits))

end Sys2Proof.Machine
end

