-- ==== Sys2Proof/Safety.lean ====
section
/-!
DEFINITION. What counts as a safe state of AQTC: the facts the spec states of every state, which every step keeps.
-/
namespace Sys2Proof.Machine

open Sys2Proof

/-- The CODE field of a TDSTAT value (R40). -/
def tdCode (t : BitVec 12) : Nat := (t.extractLsb' 1 3).toNat

/-- The IDX field of a TDSTAT value (R40). -/
def tdIdx (t : BitVec 12) : Nat := (t.extractLsb' 4 4).toNat

/-- The CH field of a TDSTAT value (R40). -/
def tdCh (t : BitVec 12) : Nat := (t.extractLsb' 8 3).toNat

/-- TDSTAT is well formed: what R40 says of its fields, clause by clause. -/
structure TdstatOk (t : BitVec 12) : Prop where
  /-- RES = 1 exactly when CODE is 1, 2 or 3. -/
  res : t.getLsbD 0 = true ↔ (1 ≤ tdCode t ∧ tdCode t ≤ 3)
  /-- CODE 6 and 7 are never written. -/
  code : tdCode t ≤ 5
  /-- IDX is 1 for level 1. -/
  level1 : tdCode t = 1 → tdIdx t = 1
  /-- IDX is 2 or 3 for level 2. -/
  level2 : tdCode t = 2 → 2 ≤ tdIdx t ∧ tdIdx t ≤ 3
  /-- IDX is 4 to 7 for level 3. -/
  level3 : tdCode t = 3 → 4 ≤ tdIdx t ∧ tdIdx t ≤ 7
  /-- IDX is 0 where no level fired. -/
  noLevel : tdCode t ≠ 1 → tdCode t ≠ 2 → tdCode t ≠ 3 → tdIdx t = 0
  /-- CH is a channel. -/
  ch : tdCh t < Config.nch
  /-- CH is 0 where SRC = 0. -/
  src : t.getLsbD 11 = false → tdCh t = 0
  /-- CODE 5 is TDPUSH's alone. -/
  disabled : tdCode t = 5 → t.getLsbD 11 = true

/-- The invariant of AQTC. -/
structure State.Inv (s : State) : Prop where
  /-- The memories are in canonical form (log 1), so every entry holds only bits of its storage width (R76). -/
  mem_wf : Memory.wf s.mem = true
  /-- BITPOS never passes the writer's capacity (R42). -/
  bitpos_le : s.bitpos.toNat ≤ writerBits
  /-- CNT1 is 0 to 2 (R38). -/
  cnt1_lt : s.cnt1.toNat < 3
  /-- CNT2 is 0 to 2 (R38). -/
  cnt2_lt : s.cnt2.toNat < 3
  /-- A head is a slot index (R39). -/
  head_lt : ∀ g : Grp, s.head g < Config.nslot
  /-- While BUSY = 1 the accepted word is a legal command (R213). -/
  busy_legal : s.busy = true → (decode? s.fetchWord).isSome = true
  /-- BUSY and DONE are never both set (R213, R214). -/
  busy_not_done : s.busy = true → s.done = false
  /-- The latch holds a code exactly while an error bit is set (R209, R211, R212). -/
  latch_code : s.errBits = 0#12 ↔ s.errCode = 0#4
  /-- With no error bit set, ERRINFO is 0 (R35, R212). -/
  latch_info : s.errBits = 0#12 → s.errInfo = 0#32
  /-- Codes 13 to 15 are never raised (R206). -/
  code_le : s.errCode.toNat ≤ 12
  /-- TDSTAT is well formed (R40). -/
  tdstat_ok : TdstatOk s.tdstat
  /-- FRAMEBYTES is twice a legal frame size, or 0 (R47). -/
  frame_bytes : s.frameBytes.toNat = 0 ∨
    (s.frameBytes.toNat % 2 = 0 ∧ 2 * Config.fswMin ≤ s.frameBytes.toNat ∧ s.frameBytes.toNat ≤ 2 * Config.fswMax)
  /-- The draw of the last hard reset was made (log 1). -/
  draw_lt : s.memDraw < s.draws

/-- Every byte of the memories reads in `t` as in `s`, but where `touched` says so. -/
def bytesKept (touched : Nat → Bool) (s t : State) : Prop :=
  ∀ a : Nat, touched a = false → t.readByte a = s.readByte a

/-- Nothing of the memories is touched. -/
def noByte : Nat → Bool := fun _ => false

/-- The bytes of SLOT[i]. -/
def slotByte (i a : Nat) : Bool := inRange (slotAddr i) 4 a

/-- The bytes of FBUF from index lo up to, and not with, index hi. -/
def frameByte (lo hi a : Nat) : Bool := decide (fbufBase + lo ≤ a ∧ a < fbufBase + hi)

/-- The bytes a command of the bit writer touches when it moves BITPOS from p0 to p1: those holding a bit written (R161, R165). -/
def writtenByte (p0 p1 a : Nat) : Bool := decide (p0 < p1) && frameByte (p0 / 8) ((p1 - 1) / 8 + 1) a

/-- Bit p of the stream: bit 7 - p mod 8 of byte p / 8 of FBUF (R160). -/
def streamBit (s : State) (p : Nat) : Bool := (s.fbuf (p / 8)).getLsbD (7 - p % 8)

/-- The bits MPACK emits for a slot, in stream order: none for a placeholder, else the low bits of VAL in the width of its class, most
significant first (R167, R168). -/
def fieldBits (x : Slot) : List Bool :=
  if x.ph then [] else (List.range (Config.mantWidth x.bap.toNat)).map fun j => x.val.getLsbD (Config.mantWidth x.bap.toNat - 1 - j)

/-- The bits of coefficients 0 to n - 1 of a channel, in stream order (R169). -/
def emittedBits (s : State) (ch : BitVec 3) (n : Nat) : List Bool :=
  (List.range n).flatMap fun k => fieldBits (s.slot (slotIndex ch k))

/-- The magnitude bits of a binary32 sample that is no NaN, as a multiple of 2^-149: the fraction in the lowest binade, above it with the
hidden bit, doubled from each binade to the next (R15). Infinity counts as 2^128, above every finite sample. -/
def binary32Units (m : Nat) : Nat := if m < 2 ^ 23 then m else (2 ^ 23 + m % 2 ^ 23) * 2 ^ (m / 2 ^ 23 - 1)

/-- The value of a binary32 sample that is no NaN, as a multiple of 2^-149 (R15). -/
def binary32Value (x : Word) : Int :=
  if x.getLsbD 31 then -(binary32Units (x.toNat % 2 ^ 31) : Int) else (binary32Units (x.toNat % 2 ^ 31) : Int)

/-- A binary32 sample is neither infinite nor a NaN (R15). -/
def binary32Finite (x : Word) : Prop := x.toNat % 2 ^ 31 < 0x7F800000

/-- Two states that agree on everything the host may look at while BUSY = 1 (R66, R216), and on what comes next. -/
def sameHostView (s t : State) : Prop :=
  s.ctrl = t.ctrl ∧ s.busy = t.busy ∧ s.done = t.done ∧ s.lastCmd = t.lastCmd ∧ s.bswenSampled = t.bswenSampled ∧
    s.errBits = t.errBits ∧ s.errCode = t.errCode ∧ s.errInfo = t.errInfo ∧ s.rst = t.rst ∧ s.inputs = t.inputs ∧ s.resp = t.resp

/-- A quantizer element raises no error: class 0, or a legal exponent and, for a symmetric class, c * 2^e in [-2^24, 2^24) (R132, R135,
R146). -/
def elementLegal (c : Int) (e : Nat) (bap : BitVec 4) : Prop :=
  bap = 0#4 ∨ (e ≤ 24 ∧ (6 ≤ bap.toNat ∨ (-(2 ^ 24 : Int) ≤ c * 2 ^ e ∧ c * 2 ^ e < 2 ^ 24)))

end Sys2Proof.Machine
end

