-- ==== Sys2Proof/Certificates/Slice0/Obligations.lean ====
section
/-!
DEFINITION. The statements about AQTC, from the numbered rules of spec/. OBLIGATIONS.json lists them with what each cites.

Throughout, an equation between two states that both have their memories replaced by those of the state before says that every register
and every field but the memories is as the right side says; what the memories hold is said byte by byte.
-/

open Sys2Proof Sys2Proof.Machine

/-! ### Encoding -/

/-- Decoding the word of a well-formed command gives the command back, with every operand (R92 to R98, R106). -/
def Obligations.EncodeThenDecode : Prop :=
  ∀ i : Instr, i.wf = true → decode (encode i) = .ok i

/-- A word that decodes is the word of the command it decodes to, and that command is well formed: no bit of it is ignored, and no two
words mean one command (R98 to R103). -/
def Obligations.DecodedWordIsItsEncoding : Prop :=
  ∀ (w : Word) (i : Instr), decode w = .ok i → i.wf = true ∧ encode i = w

/-- The example words of R106, and the plain words of the commands without operands (R98). -/
def Obligations.SpecExampleWordsDecode : Prop :=
  decode 0x02000200#32 = .ok (.qcoef 0#3 0#8 1#4 0#5) ∧ decode 0x02BFFF80#32 = .ok (.qcoef 5#3 255#8 15#4 24#5) ∧
  decode 0x03100000#32 = .ok (.qrun 0#3 256#9) ∧ decode 0x0B009000#32 = .ok (.mpack 0#3 9#9) ∧
  decode 0x09400000#32 = .ok (.putbits 16#6) ∧ decode 0x09800000#32 = .ok (.putbits 32#6) ∧
  decode 0x11400000#32 = .ok (.tdpush 2#3) ∧ decode 0x1B000000#32 = .ok .final ∧ decode 0x10000000#32 = .ok .tdrun ∧
  decode 0x18000000#32 = .ok .crccalc

/-- The decode checks and their order: opcode, reserved bits, n, w, channel (R99 to R102, R220). -/
def Obligations.DecodeChecksInOrder : Prop :=
  ∀ w : Word,
    ((∀ op : Opcode, w.extractLsb' 24 8 ≠ opByte op) → decode w = .error .badCmd) ∧
    ∀ op : Opcode, w.extractLsb' 24 8 = opByte op →
      (w &&& reservedMask (formatOf op) ≠ 0#32 → decode w = .error .badCmd) ∧
      (w &&& reservedMask (formatOf op) = 0#32 →
        (formatOf op = .R → 256 < (w.extractLsb' 12 9).toNat → decode w = .error .badCmd) ∧
        (formatOf op = .W → 32 < (w.extractLsb' 18 6).toNat → decode w = .error .badCmd) ∧
        ((formatOf op = .R → (w.extractLsb' 12 9).toNat ≤ 256) → (formatOf op = .W → (w.extractLsb' 18 6).toNat ≤ 32) →
          (formatOf op = .Q ∨ formatOf op = .R ∨ formatOf op = .C → 6 ≤ (w.extractLsb' 21 3).toNat → decode w = .error .badCh) ∧
          ((formatOf op = .Q ∨ formatOf op = .R ∨ formatOf op = .C → (w.extractLsb' 21 3).toNat < 6) →
            decode w = .ok (assemble op w))))

/-! ### Issuing and running commands -/

/-- Acceptance: a word written to CMD while idle sets LASTCMD and samples BSWEN. A legal word makes the engine busy, clears DONE and executes
nothing yet; an illegal one raises BADCMD or BADCH with the word as information and is done (R102, R208, R213). -/
def Obligations.CommandWriteIsAcceptance : Prop :=
  ∀ (s : State) (w : Word) (rest : List Input), s.rst = false → s.busy = false → s.inputs = .write .b32 0x000C#16 w :: rest →
    (∀ i : Instr, decode w = .ok i →
      step s = .next { s with
        inputs := rest
        resp := .write false
        lastCmd := w
        bswenSampled := s.ctrl.getLsbD 0
        done := false
        busy := true }) ∧
    (∀ e : DecodeError, decode w = .error e →
      step s = .next { s with
        inputs := rest
        resp := .write false
        lastCmd := w
        bswenSampled := s.ctrl.getLsbD 0
        done := true
        errBits := s.errBits ||| (if e = .badCmd then 1#12 else 2#12)
        errCode := if s.errBits = 0#12 then (if e = .badCmd then 1#4 else 2#4) else s.errCode
        errInfo := if s.errBits = 0#12 then w else s.errInfo })

/-- A word written to CMD while BUSY = 1 is discarded: BUSYCMD is raised with the word, and nothing else changes (R215). What the bus
answers is left open (log 5). -/
def Obligations.BusyCommandWriteRefused : Prop :=
  ∀ (s : State) (w : Word) (rest : List Input), s.rst = false → s.busy = true →
    s.inputs = .write .b32 0x000C#16 w :: rest →
    ∃ e : Bool, step s = .next { s with
      inputs := rest
      resp := .write e
      errBits := s.errBits ||| (1#12 <<< 9)
      errCode := if s.errBits = 0#12 then 10#4 else s.errCode
      errInfo := if s.errBits = 0#12 then w else s.errInfo }

/-- When LASTCMD decodes to a command and the engine is busy and has its turn, the step is that command's meaning (R62, R214). That the turn
is the head of the inputs, or comes because no input is left, is the model's schedule (log 3). -/
def Obligations.StepRunsAcceptedCommand : Prop :=
  ∀ (s : State) (i : Instr), s.rst = false → s.busy = true → decode s.lastCmd = .ok i →
    (s.inputs = [] → step s = exec i s) ∧
    ∀ rest : List Input, s.inputs = .engine :: rest → step s = exec i { s with inputs := rest }

/-- Every command completes from every state, with BUSY clear and DONE set, and none touches what only the host writes, or the model's
own fields (R201, R202, R210, R214). -/
def Obligations.EveryCommandCompletes : Prop :=
  ∀ (i : Instr) (s : State), ∃ t : State, exec i s = .next t ∧ t.busy = false ∧ t.done = true ∧
    t.ctrl = s.ctrl ∧ t.lastCmd = s.lastCmd ∧ t.bswenSampled = s.bswenSampled ∧ t.qin = s.qin ∧ t.putdata = s.putdata ∧
    t.fsw = s.fsw ∧ t.crcStart = s.crcStart ∧ t.crcLen = s.crcLen ∧ t.crcBits = s.crcBits ∧ t.memDraw = s.memDraw ∧
    t.draws = s.draws ∧ t.rst = s.rst ∧ t.inputs = s.inputs ∧ t.resp = s.resp

/-- A command raises no error or one of the seven errors of execution, latched only if it is the first (R206, R209, R211). -/
def Obligations.CommandRaisesAtMostOneError : Prop :=
  ∀ (i : Instr) (s t : State), exec i s = .next t →
    (t.errBits = s.errBits ∧ t.errCode = s.errCode ∧ t.errInfo = s.errInfo) ∨
    ∃ n : Nat, 3 ≤ n ∧ n ≤ 9 ∧ t.errBits = s.errBits ||| (1#12 <<< (n - 1)) ∧
      (s.errBits = 0#12 → t.errCode = BitVec.ofNat 4 n) ∧
      (s.errBits ≠ 0#12 → t.errCode = s.errCode ∧ t.errInfo = s.errInfo)

/-- What each legal command may write, column 'writes' of R202: all else keeps its value. -/
def Obligations.CommandsWriteOnlyTheirOwnState : Prop :=
  ∀ (i : Instr) (s t : State), i.wf = true → exec i s = .next t →
    (opcodeOf i ∉ [Opcode.qblk, .qcoef, .qrun] →
      t.cnt1 = s.cnt1 ∧ t.cnt2 = s.cnt2 ∧ t.cnt4 = s.cnt4 ∧ t.head1 = s.head1 ∧ t.head2 = s.head2 ∧ t.head4 = s.head4) ∧
    (opcodeOf i ∉ [Opcode.qcoef, .qrun] → t.qout = s.qout ∧
      ∀ a, inRange slotBase 0x1800 a = true → t.readByte a = s.readByte a) ∧
    (opcodeOf i ∉ [Opcode.fbegin, .putbits, .flush, .mpack, .final] → t.bitpos = s.bitpos) ∧
    (opcodeOf i ∉ [Opcode.putbits, .flush, .mpack, .final] →
      ∀ a, inRange fbufBase 0x1000 a = true → t.readByte a = s.readByte a) ∧
    (opcodeOf i ∉ [Opcode.tdrun, .tdpush] → t.tdstat = s.tdstat) ∧
    (opcodeOf i ≠ .tdpush → t.tdres = s.tdres) ∧
    (opcodeOf i ∉ [Opcode.tdpush, .tdclr] → ∀ a, inTdtail a = true → t.readByte a = s.readByte a) ∧
    (opcodeOf i ∉ [Opcode.crccalc, .crczapp, .crcinv] → t.crcVal = s.crcVal) ∧
    (opcodeOf i ∉ [Opcode.fbegin, .final] → t.crc1 = s.crc1 ∧ t.crc2 = s.crc2 ∧ t.frameBytes = s.frameBytes) ∧
    ∀ a, inRange coefBase 0x1800 a || inRange expmBase 0x1800 a || inRange bapmBase 0x1800 a || inRange tdwinBase 0x0800 a ||
      inRange tdnewBase 0x0400 a → t.readByte a = s.readByte a

/-! ### The host's accesses -/

/-- While BUSY = 1 a host access to an engine-owned register or a memory is refused: a read returns 0, a write is discarded, BUSYACC is
raised with the offset and direction, and nothing else changes (R84, R207, R216). Whether the bus also answers with an error is left open
(log 5). -/
def Obligations.BusyAccessRefused : Prop :=
  ∀ (s : State) (off : BitVec 16) (v : Word) (rest : List Input), s.rst = false → s.busy = true → off.toNat % 4 = 0 →
    ((0x1C ≤ off.toNat ∧ off.toNat < 0x64) ∨ isEntry off.toNat = true ∨ inRange fbufBase 0x1000 off.toNat = true) →
    (s.inputs = .read .b32 off :: rest →
      ∃ e : Bool, step s = .next { s with
        inputs := rest
        resp := .read 0#32 e
        errBits := s.errBits ||| (1#12 <<< 10)
        errCode := if s.errBits = 0#12 then 11#4 else s.errCode
        errInfo := if s.errBits = 0#12 then 0#16 ++ off else s.errInfo }) ∧
    (s.inputs = .write .b32 off v :: rest →
      ∃ e : Bool, step s = .next { s with
        inputs := rest
        resp := .write e
        errBits := s.errBits ||| (1#12 <<< 10)
        errCode := if s.errBits = 0#12 then 11#4 else s.errCode
        errInfo := if s.errBits = 0#12 then 1#16 ++ off else s.errInfo })

/-- An access that is not 32-bit, not aligned, or to a reserved or unmapped offset has no effect but a bus error response and BUS, busy
or not (R72, R73, R207, R220). -/
def Obligations.BusAccessRefused : Prop :=
  ∀ (s : State) (size : AccessSize) (off : BitVec 16) (v : Word) (rest : List Input), s.rst = false →
    (size ≠ .b32 ∨ off.toNat % 4 ≠ 0 ∨
      (0x64 ≤ off.toNat ∧ isEntry off.toNat = false ∧ inRange fbufBase 0x1000 off.toNat = false)) →
    (s.inputs = .read size off :: rest →
      step s = .next { s with
        inputs := rest, resp := .read 0#32 true
        errBits := s.errBits ||| (1#12 <<< 11)
        errCode := if s.errBits = 0#12 then 12#4 else s.errCode
        errInfo := if s.errBits = 0#12 then 0#13 ++ size.code ++ 0#1 ++ off else s.errInfo }) ∧
    (s.inputs = .write size off v :: rest →
      step s = .next { s with
        inputs := rest, resp := .write true
        errBits := s.errBits ||| (1#12 <<< 11)
        errCode := if s.errBits = 0#12 then 12#4 else s.errCode
        errInfo := if s.errBits = 0#12 then 0#13 ++ size.code ++ 1#1 ++ off else s.errInfo })

/-- A permitted read changes nothing but the answer on the bus (R81): every register by its offset and every memory entry. That the
byte at the lowest offset is the low byte of an entry's answer is the model's choice (log 7, DESIGN CHOICE): R74 and R76 give an entry as a
word and no byte order inside it. -/
def Obligations.ReadsHaveNoSideEffects : Prop :=
  ∀ (s : State) (rest : List Input), s.rst = false →
    (∀ r : Reg, (s.busy = false ∨ r.engineOwned = false) →
      s.inputs = .read .b32 (BitVec.ofNat 16 r.offset) :: rest →
      step s = .next { s with inputs := rest, resp := .read (s.regRead r) false }) ∧
    (∀ off : BitVec 16, s.busy = false → off.toNat % 4 = 0 → isEntry off.toNat = true → s.inputs = .read .b32 off :: rest →
      step s = .next { s with
        inputs := rest
        resp := .read (s.readByte (off.toNat + 3) ++ s.readByte (off.toNat + 2) ++ s.readByte (off.toNat + 1) ++ s.readByte off.toNat)
          false })

/-- A memory entry the host writes while idle reads back as the bits of its storage width, and every other byte is kept (R74, R76). -/
def Obligations.MemoryEntryReadsBackStoredBits : Prop :=
  ∀ (s : State) (off : BitVec 16) (v : Word) (rest : List Input), s.rst = false → s.busy = false → off.toNat % 4 = 0 →
    isEntry off.toNat = true → s.inputs = .write .b32 off v :: .read .b32 off :: rest →
    ∃ t : State, step s = .next t ∧
      step t = .next { t with
        inputs := rest
        resp := .read (v &&&
          (if inRange expmBase 0x1800 off.toNat then 0x000000FF#32
            else if inRange bapmBase 0x1800 off.toNat then 0x0000000F#32
            else if inRange slotBase 0x1800 off.toNat then 0x00F1FFFF#32
            else 0xFFFFFFFF#32)) false } ∧
      bytesKept (inRange off.toNat 4) s t ∧
      { t with mem := s.mem } = { s with inputs := .read .b32 off :: rest, resp := .write false }

/-- FBUF words are big-endian, both ways, and a write touches its four bytes alone (R77). -/
def Obligations.FrameWordsAreBigEndian : Prop :=
  ∀ (s : State) (n : Nat) (v : Word) (rest : List Input), s.rst = false → s.busy = false → n < 1024 →
    (s.inputs = .read .b32 (BitVec.ofNat 16 (0xE000 + 4 * n)) :: rest →
      step s = .next { s with
        inputs := rest
        resp := .read (s.fbuf (4 * n) ++ s.fbuf (4 * n + 1) ++ s.fbuf (4 * n + 2) ++ s.fbuf (4 * n + 3)) false }) ∧
    (s.inputs = .write .b32 (BitVec.ofNat 16 (0xE000 + 4 * n)) v :: rest →
      ∃ t : State, step s = .next t ∧ t.fbuf (4 * n) = v.extractLsb' 24 8 ∧ t.fbuf (4 * n + 1) = v.extractLsb' 16 8 ∧
        t.fbuf (4 * n + 2) = v.extractLsb' 8 8 ∧ t.fbuf (4 * n + 3) = v.extractLsb' 0 8 ∧
        bytesKept (frameByte (4 * n) (4 * n + 4)) s t ∧
        { t with mem := s.mem } = { s with inputs := rest, resp := .write false })

/-- While idle, and for a register that is not engine-owned while BUSY = 1 too: a write of a register that has no write-1-to-clear bits
and issues nothing stores its bits, which read back, the reserved ones as 0, and keeps the BSWEN value the engine sampled; a write of a
read-only register has no effect and raises no error (R28, R30, R36, R43, R44, R48 to R51, R216). CTRL with SRST = 1, STATUS, CMD and
ERRBITS have statements of their own. -/
def Obligations.RegisterWrites : Prop :=
  ∀ (s : State) (r : Reg) (v : Word) (rest : List Input), s.rst = false → (s.busy = false ∨ r.engineOwned = false) →
    s.inputs = .write .b32 (BitVec.ofNat 16 r.offset) v :: rest →
    (r ∈ [Reg.id, .errCode, .errInfo, .qout, .grpCnt, .grpHead1, .grpHead2, .grpHead4, .tdStat, .tdRes, .bitPos, .crc1, .crc2,
        .frameBytes] →
      step s = .next { s with inputs := rest, resp := .write false }) ∧
    (r ∈ [Reg.ctrl, .qin, .putData, .fsw, .crcStart, .crcLen, .crcBits, .crcVal] → (r = .ctrl → v.getLsbD 31 = false) →
      ∃ t : State, step s = .next t ∧
        t.regRead r = v &&& (if r = .ctrl then 0x00000007#32
          else if r = .qin ∨ r = .putData ∨ r = .crcBits then 0xFFFFFFFF#32
          else 0x0000FFFF#32) ∧
        (∀ r' : Reg, r' ≠ r → t.regRead r' = s.regRead r') ∧ (∀ a : Nat, t.readByte a = s.readByte a) ∧
        t.bswenSampled = s.bswenSampled ∧ t.busy = s.busy ∧ t.rst = false ∧ t.inputs = rest ∧ t.resp = .write false)

/-- What the host sees while BUSY = 1 does not depend on engine-owned state: two busy machines that agree on the rest answer alike and
stay alike, whatever their engine-owned registers and memories hold (R22, R66, R84). Soft reset and `rst` are left out: they end the
command. -/
def Obligations.BusyHidesEngineState : Prop :=
  ∀ (s s' t t' : State) (i : Input) (rest : List Input), s.busy = true → sameHostView s s' → s.inputs = i :: rest → i ≠ .engine →
    (∀ l : Bool, i ≠ .rst l) → (∀ v : Word, i = .write .b32 0x0004#16 v → v.getLsbD 31 = false) →
    step s = .next t → step s' = .next t' → sameHostView t t'

/-! ### Errors, interrupt and resets -/

/-- Raising an error latches its code and information word only if no error bit is set, and sets its bit (R209); the twelve errors have
the codes of R206's table. -/
def Obligations.RaiseLatchesFirstError : Prop :=
  (ErrCode.num .badCmd = 1 ∧ ErrCode.num .badCh = 2 ∧ ErrCode.num .badExp = 3 ∧ ErrCode.num .qRange = 4 ∧ ErrCode.num .tdNan = 5 ∧
    ErrCode.num .bitOvf = 6 ∧ ErrCode.num .frmOvf = 7 ∧ ErrCode.num .badFs = 8 ∧ ErrCode.num .crcRange = 9 ∧
    ErrCode.num .busyCmd = 10 ∧ ErrCode.num .busyAcc = 11 ∧ ErrCode.num .bus = 12) ∧
  ∀ (s : State) (c : ErrCode) (info : Word),
    { s.raise c info with errCode := s.errCode, errInfo := s.errInfo, errBits := s.errBits } = s ∧
    (∀ n : Nat, 1 ≤ n → n ≤ 12 →
      (s.raise c info).errBitsWord.getLsbD n = (s.errBitsWord.getLsbD n || decide (n = c.num))) ∧
    (s.errBits = 0#12 → (s.raise c info).errCode = BitVec.ofNat 4 c.num ∧ (s.raise c info).errInfo = info) ∧
    (s.errBits ≠ 0#12 → (s.raise c info).errCode = s.errCode ∧ (s.raise c info).errInfo = s.errInfo)

/-- A write to ERRBITS clears the bits written as 1, and the latch when none is left; a write of 1 to STATUS.DONE clears DONE; both at any
time (R31, R212). -/
def Obligations.HostAcknowledgesByWritingOnes : Prop :=
  ∀ (s : State) (v : Word) (rest : List Input), s.rst = false →
    (s.inputs = .write .b32 0x0010#16 v :: rest →
      ∃ t : State, step s = .next t ∧ t.errBitsWord = s.errBitsWord &&& ~~~v ∧
        (t.errBitsWord = 0#32 → t.errCode = 0#4 ∧ t.errInfo = 0#32) ∧
        (t.errBitsWord ≠ 0#32 → t.errCode = s.errCode ∧ t.errInfo = s.errInfo) ∧
        { t with errBits := s.errBits, errCode := s.errCode, errInfo := s.errInfo } =
          { s with inputs := rest, resp := .write false }) ∧
    (s.inputs = .write .b32 0x0008#16 v :: rest →
      step s = .next { s with inputs := rest, resp := .write false, done := s.done && !v.getLsbD 1 })

/-- Nothing but a write to ERRBITS, a soft reset or a hard reset clears an error bit (R33, R212). That hard reset is the deassertion of
`rst`, so that asserting it and the steps under it keep the bits, is the model's choice (log 4, DESIGN CHOICE). -/
def Obligations.ErrorBitsAreSticky : Prop :=
  ∀ s t : State, step s = .next t →
    (∀ n : Nat, s.errBits.getLsbD n = true → t.errBits.getLsbD n = true) ∨
    (∃ (v : Word) (rest : List Input), s.inputs = .write .b32 0x0010#16 v :: rest) ∨
    (∃ (v : Word) (rest : List Input), s.inputs = .write .b32 0x0004#16 v :: rest ∧ v.getLsbD 31 = true) ∨
    ∃ rest : List Input, s.inputs = .rst false :: rest ∧ s.rst = true

/-- The irq output, from the registers as the host reads them (R63, R217), while `rst` is not asserted (log 4). -/
def Obligations.IrqFollowsEnabledConditions : Prop :=
  ∀ s : State, s.rst = false →
    (s.irq = true ↔ ((s.regRead .ctrl).getLsbD 1 = true ∧ (s.regRead .status).getLsbD 1 = true) ∨
      ((s.regRead .ctrl).getLsbD 2 = true ∧ s.regRead .errBits ≠ 0#32))

/-- What a hard reset leaves: R65's value in every register as the host reads it, every tail +0.0, irq low. -/
def Obligations.ResetValues : Prop :=
  (∀ r : Reg, State.reset.regRead r = if r = .id then 0x41515443#32 else 0#32) ∧
  (∀ a : Nat, inTdtail a = true → State.reset.readByte a = 0#8) ∧ State.reset.busy = false ∧ State.reset.irq = false

/-- While `rst` is asserted accesses are refused silently, and when it is deasserted every register takes its hard reset value, the
engine is idle and the tails are +0.0 (R235, R236; that the bus answers without an error and that the reset happens at the deassertion are
the model's, logs 4 and 5). Nothing is said of the memories whose contents are unspecified. -/
def Obligations.HardResetByRst : Prop :=
  ∀ (s : State) (rest : List Input), s.rst = true →
    (∀ (size : AccessSize) (off : BitVec 16), s.inputs = .read size off :: rest →
      step s = .next { s with inputs := rest, resp := .read 0#32 false }) ∧
    (∀ (size : AccessSize) (off : BitVec 16) (v : Word), s.inputs = .write size off v :: rest →
      step s = .next { s with inputs := rest, resp := .write false }) ∧
    (s.inputs = .rst false :: rest →
      ∃ t : State, step s = .next t ∧ (∀ r : Reg, t.regRead r = if r = .id then 0x41515443#32 else 0#32) ∧ t.busy = false ∧
        t.rst = false ∧ t.irq = false ∧ (∀ a : Nat, inTdtail a = true → t.readByte a = 0#8) ∧ t.inputs = rest)

/-- Soft reset, idle or not: every register takes its reset value whatever else is written, a running command is abandoned and never sets
DONE, the tails are +0.0, and every other byte is kept but those of SLOT and FBUF that the abandoned command would have written (R237,
R238; which bytes those are, log 2). -/
def Obligations.SoftReset : Prop :=
  ∀ (s : State) (v : Word) (rest : List Input) (lost : List Nat), s.rst = false → v.getLsbD 31 = true →
    s.inputs = .write .b32 0x0004#16 v :: rest →
    ((s.busy = false ∧ lost = []) ∨
      ∃ i : Instr, s.busy = true ∧ decode s.lastCmd = .ok i ∧ lost = abortTargets i { s with inputs := rest }) →
    ∃ t : State, step s = .next t ∧ (∀ r : Reg, t.regRead r = if r = .id then 0x41515443#32 else 0#32) ∧ t.busy = false ∧
      (∀ a : Nat, inTdtail a = true → t.readByte a = 0#8) ∧
      (∀ a : Nat, inTdtail a = false → a ∉ lost → t.readByte a = s.readByte a) ∧
      (∀ a : Nat, a ∈ lost → inRange slotBase 0x2000 a = true ∨ fbufBase ≤ a) ∧
      (∀ i : Instr, opcodeOf i ∉ [Opcode.qcoef, .qrun, .putbits, .flush, .mpack, .final] → decode s.lastCmd = .ok i → lost = []) ∧
      t.inputs = rest ∧ t.rst = false

/-! ### Invariant -/

/-- The invariant holds right after reset. Its clauses on the memories' canonical form and on draws are about the model's own data (log 1). -/
def Obligations.ResetMeetsInvariant : Prop := State.reset.Inv

/-- From every state that meets the invariant the machine takes a step, never a fault or a refusal, and the invariant holds after it:
the memories stay in canonical form, BITPOS within the writer's capacity (R42), the group counters and heads in range (R38, R39), an
accepted word legal (R213), the error latch consistent (R209 to R212), TDSTAT well formed in every field (R40), FRAMEBYTES a legal frame size (R47). The
canonical form and the count of draws are the model's own (log 1), as is the turn of an idle engine (log 3). -/
def Obligations.EveryStepKeepsInvariant : Prop :=
  ∀ s : State, s.Inv → ∃ t : State, step s = .next t ∧ t.Inv

/-! ### Control -/

/-- NOP: nothing but completion (R200). -/
def Obligations.NopOnlyCompletes : Prop :=
  decode 0x00000000#32 = .ok .nop ∧ ∀ s : State, exec .nop s = .next { s with busy := false, done := true }

/-! ### Quantizer -/

/-- QBLK closes every group and keeps SLOT and QOUT (R143). -/
def Obligations.QblkClosesAllGroups : Prop :=
  decode 0x01000000#32 = .ok .qblk ∧ ∀ s : State,
    exec .qblk s = .next { s with
      cnt1 := 0#2, cnt2 := 0#2, cnt4 := 0#1, head1 := 0#11, head2 := 0#11, head4 := 0#11, busy := false, done := true }

/-- QCOEF of class 0 writes a zero slot whatever the coefficient and the exponent, and touches no group (R132, R144). -/
def Obligations.QcoefClassZeroWritesZeroSlot : Prop :=
  ∀ (s : State) (ch : BitVec 3) (k : BitVec 8) (exp : BitVec 5), ch.toNat < 6 →
    ∃ t : State, exec (.qcoef ch k 0#4 exp) s = .next t ∧
      t.slot (256 * ch.toNat + k.toNat) = { val := 0#16, ph := false, bap := 0#4 } ∧
      bytesKept (slotByte (256 * ch.toNat + k.toNat)) s t ∧
      { t with mem := s.mem } = { s with qout := 0#32, busy := false, done := true }

/-- QCOEF of class 3 (7 levels) or 5 (15 levels) in range writes its own code and touches no group (R131, R133, R135, R144). -/
def Obligations.QcoefSymmetricWritesItsCode : Prop :=
  ∀ (s : State) (ch : BitVec 3) (k : BitVec 8) (bap : BitVec 4) (exp : BitVec 5) (L q : Nat), ch.toNat < 6 → exp.toNat ≤ 24 →
    ((bap = 3#4 ∧ L = 7) ∨ (bap = 5#4 ∧ L = 15)) → q ≤ L - 1 →
    (q : Int) = (((((L : Int) * s.qin.toInt) >>> (24 - exp.toNat)) + 1) >>> (1 : Nat)) + ((L : Int) - 1) / 2 →
    ∃ t : State, exec (.qcoef ch k bap exp) s = .next t ∧
      t.slot (256 * ch.toNat + k.toNat) = { val := BitVec.ofNat 16 q, ph := false, bap := bap } ∧
      bytesKept (slotByte (256 * ch.toNat + k.toNat)) s t ∧
      { t with mem := s.mem } =
        { s with qout := BitVec.ofNat 32 (q + bap.toNat * 2 ^ 20), busy := false, done := true }

/-- QCOEF of an asymmetric class shifts by e + (b - 1) - 24, clips to the signed b-bit range and takes the two's complement code, never an
error for a legal exponent (R131, R136, R144). -/
def Obligations.QcoefAsymmetricWritesClippedCode : Prop :=
  ∀ (s : State) (ch : BitVec 3) (k : BitVec 8) (bap : BitVec 4) (exp : BitVec 5) (b : Nat) (v q : Int), ch.toNat < 6 →
    exp.toNat ≤ 24 → 6 ≤ bap.toNat → b = (if bap = 15#4 then 16 else if bap = 14#4 then 14 else bap.toNat - 1) →
    v = (if 25 ≤ exp.toNat + b then s.qin.toInt * 2 ^ (exp.toNat + b - 25) else s.qin.toInt >>> (25 - (exp.toNat + b))) →
    q = (if 2 ^ (b - 1) ≤ v then 2 ^ (b - 1) - 1 else if v < -(2 ^ (b - 1)) then 2 ^ (b - 1) else v % 2 ^ b) →
    ∃ t : State, exec (.qcoef ch k bap exp) s = .next t ∧
      t.slot (256 * ch.toNat + k.toNat) = { val := BitVec.ofInt 16 q, ph := false, bap := bap } ∧
      bytesKept (slotByte (256 * ch.toNat + k.toNat)) s t ∧
      { t with mem := s.mem } =
        { s with qout := (t.slot (256 * ch.toNat + k.toNat)).toWord, busy := false, done := true }

/-- The first member of a group writes its code times L^(N-1) into its own slot and opens the group there (R138, R139, R144). -/
def Obligations.QcoefFirstMemberOpensGroup : Prop :=
  ∀ (s : State) (ch : BitVec 3) (k : BitVec 8) (g : Grp) (exp : BitVec 5) (q : Nat), ch.toNat < 6 → exp.toNat ≤ 24 →
    s.cnt g = 0 → q ≤ g.levels - 1 → symq s.qin.toInt exp.toNat g.levels = (q : Int) →
    ∃ t : State, exec (.qcoef ch k (BitVec.ofNat 4 g.bap) exp) s = .next t ∧
      t.slot (256 * ch.toNat + k.toNat) =
        { val := BitVec.ofNat 16 ((match g with | .g1 => 9 | .g2 => 25 | .g4 => 11) * q), ph := false, bap := BitVec.ofNat 4 g.bap } ∧
      bytesKept (slotByte (256 * ch.toNat + k.toNat)) s t ∧
      { t with mem := s.mem } =
        ({ s with qout := (t.slot (256 * ch.toNat + k.toNat)).toWord, busy := false, done := true }.setHead g
          (256 * ch.toNat + k.toNat)).setCnt g 1

/-- A later member adds its scaled code into the head's VAL, modulo 2^16, and leaves a placeholder in its own slot; if its slot is the
head itself, the placeholder stands (R138, R140, R141, R144). -/
def Obligations.QcoefLaterMemberAddsIntoHead : Prop :=
  ∀ (s : State) (ch : BitVec 3) (k : BitVec 8) (g : Grp) (exp : BitVec 5) (q : Nat), ch.toNat < 6 → exp.toNat ≤ 24 →
    0 < s.cnt g → s.cnt g < g.size → s.head g < 1536 → q ≤ g.levels - 1 →
    symq s.qin.toInt exp.toNat g.levels = (q : Int) →
    ∃ t : State, exec (.qcoef ch k (BitVec.ofNat 4 g.bap) exp) s = .next t ∧
      t.slot (256 * ch.toNat + k.toNat) = { val := 128#16, ph := true, bap := BitVec.ofNat 4 g.bap } ∧
      (s.head g ≠ 256 * ch.toNat + k.toNat → t.slot (s.head g) =
        { s.slot (s.head g) with val := (s.slot (s.head g)).val + BitVec.ofNat 16 (q * g.levels ^ (g.size - 1 - s.cnt g)) }) ∧
      bytesKept (fun a => slotByte (256 * ch.toNat + k.toNat) a || slotByte (s.head g) a) s t ∧
      { t with mem := s.mem } =
        ({ s with qout := 0x00010080#32 ||| BitVec.ofNat 32 (g.bap * 2 ^ 20), busy := false, done := true }).setCnt g
          ((s.cnt g + 1) % g.size)

/-- QCOEF writes nothing and raises BADEXP for an exponent above 24, else QRANGE for a symmetric code out of range, with slot, class and
exponent as information (R135, R144, R146, R207, R220). -/
def Obligations.QcoefErrorsWriteNothing : Prop :=
  ∀ (s : State) (ch : BitVec 3) (k : BitVec 8) (bap : BitVec 4) (exp : BitVec 5) (info : Word), ch.toNat < 6 → bap ≠ 0#4 →
    info = BitVec.ofNat 32 (256 * ch.toNat + k.toNat + bap.toNat * 2 ^ 12 + exp.toNat * 2 ^ 16) →
    (24 < exp.toNat → exec (.qcoef ch k bap exp) s = .next { s.raise .badExp info with busy := false, done := true }) ∧
    (exp.toNat ≤ 24 → bap.toNat ≤ 5 →
      ¬ (-(2 ^ 24 : Int) ≤ s.qin.toInt * 2 ^ exp.toNat ∧ s.qin.toInt * 2 ^ exp.toNat < 2 ^ 24) →
      exec (.qcoef ch k bap exp) s = .next { s.raise .qRange info with busy := false, done := true })

/-- SYMQ lies in 0 to L - 1 exactly when c * 2^e lies in [-2^24, 2^24) (R135). -/
def Obligations.SymqInRangeExactly : Prop :=
  ∀ (c : Int) (e L : Nat), e ≤ 24 → L ∈ [3, 5, 7, 11, 15] →
    ((0 ≤ symq c e L ∧ symq c e L ≤ (L : Int) - 1) ↔ (-(2 ^ 24 : Int) ≤ c * 2 ^ e ∧ c * 2 ^ e < 2 ^ 24))

/-- SYMQ rounds to the nearest level, ties toward +∞ (R150): counted from the middle level q is the integer nearest to L * c * 2^e / 2^25,
and at e = 0 and L = 3 the levels change where R150 says. -/
def Obligations.SymqRoundsToNearestLevel : Prop :=
  (∀ (c : Int) (e L : Nat) (q : Int), e ≤ 24 → L ∈ [3, 5, 7, 11, 15] → q = symq c e L - ((L : Int) - 1) / 2 →
    (2 * q - 1) * 2 ^ 24 ≤ (L : Int) * c * 2 ^ e ∧ (L : Int) * c * 2 ^ e < (2 * q + 1) * 2 ^ 24) ∧
  ∀ c : Int, -(2 ^ 24 : Int) ≤ c → c < 2 ^ 24 →
    (symq c 0 3 = 2 ↔ 0x555556 ≤ c) ∧ (symq c 0 3 = 1 ↔ -0x555555 ≤ c ∧ c ≤ 0x555555) ∧ (symq c 0 3 = 0 ↔ c ≤ -0x555556)

/-- A complete group's field determines its members (R140, R153): three coefficients of class 1 or 2, or two of class 4, quantized by QCOEF
into different slots from a state with no group of the class open, whatever the host puts into QIN between them. -/
def Obligations.GroupFieldRoundTrip : Prop :=
  (∀ (s t₀ t₁ t₂ : State) (g : Grp) (L : Nat) (ch₀ ch₁ ch₂ : BitVec 3) (k₀ k₁ k₂ : BitVec 8) (e₀ e₁ e₂ : BitVec 5) (c₀ c₁ c₂ : Word)
      (q₀ q₁ q₂ : Nat), ((g = .g1 ∧ L = 3) ∨ (g = .g2 ∧ L = 5)) → s.cnt g = 0 →
    ch₀.toNat < 6 → ch₁.toNat < 6 → ch₂.toNat < 6 → e₀.toNat ≤ 24 → e₁.toNat ≤ 24 → e₂.toNat ≤ 24 →
    (ch₀, k₀) ≠ (ch₁, k₁) → (ch₀, k₀) ≠ (ch₂, k₂) →
    q₀ < L → q₁ < L → q₂ < L → symq c₀.toInt e₀.toNat L = (q₀ : Int) → symq c₁.toInt e₁.toNat L = (q₁ : Int) →
    symq c₂.toInt e₂.toNat L = (q₂ : Int) →
    exec (.qcoef ch₀ k₀ (BitVec.ofNat 4 g.bap) e₀) { s with qin := c₀ } = .next t₀ →
    exec (.qcoef ch₁ k₁ (BitVec.ofNat 4 g.bap) e₁) { t₀ with qin := c₁ } = .next t₁ →
    exec (.qcoef ch₂ k₂ (BitVec.ofNat 4 g.bap) e₂) { t₁ with qin := c₂ } = .next t₂ →
    t₂.cnt g = 0 ∧ (t₂.slot (256 * ch₀.toNat + k₀.toNat)).ph = false ∧
      (t₂.slot (256 * ch₀.toNat + k₀.toNat)).val.toNat / (L * L) = q₀ ∧
      (t₂.slot (256 * ch₀.toNat + k₀.toNat)).val.toNat / L % L = q₁ ∧
      (t₂.slot (256 * ch₀.toNat + k₀.toNat)).val.toNat % L = q₂) ∧
  (∀ (s t₀ t₁ : State) (ch₀ ch₁ : BitVec 3) (k₀ k₁ : BitVec 8) (e₀ e₁ : BitVec 5) (c₀ c₁ : Word) (q₀ q₁ : Nat), s.cnt4 = 0#1 →
    ch₀.toNat < 6 → ch₁.toNat < 6 → e₀.toNat ≤ 24 → e₁.toNat ≤ 24 → (ch₀, k₀) ≠ (ch₁, k₁) → q₀ < 11 → q₁ < 11 →
    symq c₀.toInt e₀.toNat 11 = (q₀ : Int) → symq c₁.toInt e₁.toNat 11 = (q₁ : Int) →
    exec (.qcoef ch₀ k₀ 4#4 e₀) { s with qin := c₀ } = .next t₀ →
    exec (.qcoef ch₁ k₁ 4#4 e₁) { t₀ with qin := c₁ } = .next t₁ →
    t₁.cnt4 = 0#1 ∧ (t₁.slot (256 * ch₀.toNat + k₀.toNat)).ph = false ∧
      (t₁.slot (256 * ch₀.toNat + k₀.toNat)).val.toNat / 11 = q₀ ∧ (t₁.slot (256 * ch₀.toNat + k₀.toNat)).val.toNat % 11 = q₁)

/-- QRUN of n + 1 elements is QRUN of n elements and then QCOEF of coefficient n with the operands in COEF, EXPM and BAPM, when the first n
raise no error (R145); an exponent QCOEF's field cannot hold is left to `QrunStopsAtFirstError`. -/
def Obligations.QrunExtendsByOneQcoef : Prop :=
  ∀ (s t u : State) (ch : BitVec 3) (n : Nat), n < 256 → qrunFrom ch n 0 s = { st := t, err := none } →
    (t.expm (256 * ch.toNat + n)).toNat < 32 →
    exec (.qcoef ch (BitVec.ofNat 8 n) (t.bapm (256 * ch.toNat + n)) ((t.expm (256 * ch.toNat + n)).extractLsb' 0 5))
      { t with qin := t.coef (256 * ch.toNat + n) } = .next u →
    exec (.qrun ch (BitVec.ofNat 9 n)) s = .next { t with busy := false, done := true } ∧
    exec (.qrun ch (BitVec.ofNat 9 (n + 1))) s = .next { u with qin := s.qin }

/-- QRUN over legal elements completes without an error, for n from 0 on: each slot of the run takes its class, and what an ungrouped class
computes if no group was open before; only the run's slots and the heads of open groups are touched (R145, R202). -/
def Obligations.QrunQuantizesChannel : Prop :=
  ∀ (s : State) (ch : BitVec 3) (n : BitVec 9), ch.toNat < 6 → n.toNat ≤ 256 → (∀ g : Grp, s.head g < 1536) →
    (∀ k : Nat, k < n.toNat → elementLegal (s.coef (256 * ch.toNat + k)).toInt (s.expm (256 * ch.toNat + k)).toNat
      (s.bapm (256 * ch.toNat + k))) →
    ∃ t : State, exec (.qrun ch n) s = .next t ∧
      (∀ k : Nat, k < n.toNat → (t.slot (256 * ch.toNat + k)).bap = s.bapm (256 * ch.toNat + k)) ∧
      ((∀ g : Grp, s.cnt g = 0) → ∀ k : Nat, k < n.toNat →
        (s.bapm (256 * ch.toNat + k) = 0#4 → t.slot (256 * ch.toNat + k) = { val := 0#16, ph := false, bap := 0#4 }) ∧
        (s.bapm (256 * ch.toNat + k) = 3#4 ∨ s.bapm (256 * ch.toNat + k) = 5#4 →
          (t.slot (256 * ch.toNat + k)).ph = false ∧ ((t.slot (256 * ch.toNat + k)).val.toNat : Int) =
            symq (s.coef (256 * ch.toNat + k)).toInt (s.expm (256 * ch.toNat + k)).toNat
              (Config.levels (s.bapm (256 * ch.toNat + k)).toNat)) ∧
        (6 ≤ (s.bapm (256 * ch.toNat + k)).toNat →
          (t.slot (256 * ch.toNat + k)).ph = false ∧ (t.slot (256 * ch.toNat + k)).val.toNat =
            asymq (s.coef (256 * ch.toNat + k)).toInt (s.expm (256 * ch.toNat + k)).toNat
              (Config.qbits (s.bapm (256 * ch.toNat + k)).toNat))) ∧
      bytesKept (fun a => inRange (slotAddr (256 * ch.toNat)) (4 * n.toNat) a ||
        (decide (s.cnt .g1 ≠ 0) && slotByte (s.head .g1) a) || (decide (s.cnt .g2 ≠ 0) && slotByte (s.head .g2) a) ||
        (decide (s.cnt .g4 ≠ 0) && slotByte (s.head .g4) a)) s t ∧
      { t with
        mem := s.mem, qout := s.qout, cnt1 := s.cnt1, cnt2 := s.cnt2, cnt4 := s.cnt4, head1 := s.head1, head2 := s.head2
        head4 := s.head4 } = { s with busy := false, done := true } ∧
      (n = 0#9 → t = { s with busy := false, done := true })

/-- The first illegal element of a QRUN ends it: BADEXP or QRANGE, the elements before it keep their effects, and neither it nor a later
one runs (R145, R146, R207, R210). -/
def Obligations.QrunStopsAtFirstError : Prop :=
  ∀ (s t : State) (ch : BitVec 3) (k : Nat) (n : BitVec 9) (info : Word), ch.toNat < 6 → k < n.toNat → n.toNat ≤ 256 →
    qrunFrom ch k 0 s = { st := t, err := none } → s.bapm (256 * ch.toNat + k) ≠ 0#4 →
    info = BitVec.ofNat 32 (256 * ch.toNat + k + (s.bapm (256 * ch.toNat + k)).toNat * 2 ^ 12 +
      (s.expm (256 * ch.toNat + k)).toNat * 2 ^ 16) →
    (24 < (s.expm (256 * ch.toNat + k)).toNat →
      exec (.qrun ch n) s = .next { t.raise .badExp info with busy := false, done := true }) ∧
    ((s.expm (256 * ch.toNat + k)).toNat ≤ 24 →
      ¬ elementLegal (s.coef (256 * ch.toNat + k)).toInt (s.expm (256 * ch.toNat + k)).toNat (s.bapm (256 * ch.toNat + k)) →
      exec (.qrun ch n) s = .next { t.raise .qRange info with busy := false, done := true })

/-! ### Bit writer -/

/-- FBEGIN puts the writer at bit 0 and clears the frame's results; FBUF is not cleared (R164). -/
def Obligations.FbeginStartsFrame : Prop :=
  decode 0x08000000#32 = .ok .fbegin ∧ ∀ s : State,
    exec .fbegin s = .next { s with bitpos := 0#32, crc1 := 0#16, crc2 := 0#16, frameBytes := 0#16, busy := false, done := true }

/-- PUTBITS w within the capacity writes the low w bits of PUTDATA, bit w - 1 first, keeps the bits before them, leaves the rest of the
last byte 0, and touches no other byte; past the capacity it raises BITOVF with BITPOS as information and writes nothing (R160 to R162,
R165). -/
def Obligations.PutbitsWritesFieldOrRefuses : Prop :=
  ∀ (s : State) (w : BitVec 6), w.toNat ≤ 32 → s.bitpos.toNat ≤ 32768 →
    (s.bitpos.toNat + w.toNat ≤ 32768 →
      ∃ t : State, exec (.putbits w) s = .next t ∧
        (∀ j : Nat, j < w.toNat → streamBit t (s.bitpos.toNat + j) = s.putdata.getLsbD (w.toNat - 1 - j)) ∧
        (∀ p : Nat, p < s.bitpos.toNat → streamBit t p = streamBit s p) ∧
        (∀ p : Nat, 0 < w.toNat → s.bitpos.toNat + w.toNat ≤ p → p / 8 = (s.bitpos.toNat + w.toNat - 1) / 8 →
          streamBit t p = false) ∧
        bytesKept (writtenByte s.bitpos.toNat (s.bitpos.toNat + w.toNat)) s t ∧
        { t with mem := s.mem } = { s with bitpos := s.bitpos + BitVec.ofNat 32 w.toNat, busy := false, done := true }) ∧
    (32768 < s.bitpos.toNat + w.toNat →
      exec (.putbits w) s = .next { s.raise .bitOvf s.bitpos with busy := false, done := true })

/-- FLUSH fills the current byte with zero bits and moves BITPOS to the next multiple of 8; at a byte boundary it does nothing (R166). -/
def Obligations.FlushFillsByteWithZeros : Prop :=
  decode 0x0A000000#32 = .ok .flush ∧ ∀ s : State, s.bitpos.toNat ≤ 32768 →
    ∃ t : State, exec .flush s = .next t ∧
      (∀ p : Nat, p < s.bitpos.toNat → streamBit t p = streamBit s p) ∧
      (∀ p : Nat, s.bitpos.toNat ≤ p → p < (s.bitpos.toNat + 7) / 8 * 8 → streamBit t p = false) ∧
      bytesKept (writtenByte s.bitpos.toNat ((s.bitpos.toNat + 7) / 8 * 8)) s t ∧
      { t with mem := s.mem } =
        { s with bitpos := BitVec.ofNat 32 ((s.bitpos.toNat + 7) / 8 * 8), busy := false, done := true }

/-- A placeholder has no field, any other slot the low bits of its VAL in the width of its class, most significant first (R163, R168); MPACK
within the capacity appends, in the order of the coefficients, the fields of the slots, and nothing else (R161, R162, R167, R169, R172). -/
def Obligations.MpackAppendsMantissaFields : Prop :=
  (∀ x : Slot, x.ph = true → fieldBits x = []) ∧
  (∀ (x : Slot) (w : Nat), x.ph = false → [0, 5, 7, 3, 7, 4, 5, 6, 7, 8, 9, 10, 11, 12, 14, 16][x.bap.toNat]? = some w →
    fieldBits x = (List.range w).map fun j => x.val.getLsbD (w - 1 - j)) ∧
  ∀ (s : State) (ch : BitVec 3) (n : BitVec 9), ch.toNat < 6 → n.toNat ≤ 256 →
    s.bitpos.toNat + (emittedBits s ch n.toNat).length ≤ 32768 →
    ∃ t : State, exec (.mpack ch n) s = .next t ∧
      (∀ j : Nat, j < (emittedBits s ch n.toNat).length →
        some (streamBit t (s.bitpos.toNat + j)) = (emittedBits s ch n.toNat)[j]?) ∧
      (∀ p : Nat, p < s.bitpos.toNat → streamBit t p = streamBit s p) ∧
      (∀ p : Nat, 0 < (emittedBits s ch n.toNat).length → s.bitpos.toNat + (emittedBits s ch n.toNat).length ≤ p →
        p / 8 = (s.bitpos.toNat + (emittedBits s ch n.toNat).length - 1) / 8 → streamBit t p = false) ∧
      bytesKept (writtenByte s.bitpos.toNat (s.bitpos.toNat + (emittedBits s ch n.toNat).length)) s t ∧
      { t with mem := s.mem } =
        { s with bitpos := s.bitpos + BitVec.ofNat 32 (emittedBits s ch n.toNat).length, busy := false, done := true }

/-- The first field of an MPACK that does not fit ends it with BITOVF; the fields before it stay written (R162, R167, R207, R210). -/
def Obligations.MpackStopsAtFirstOverflow : Prop :=
  ∀ (s u : State) (ch : BitVec 3) (k : Nat) (n : BitVec 9), ch.toNat < 6 → k < n.toNat → n.toNat ≤ 256 →
    s.bitpos.toNat + (emittedBits s ch k).length ≤ 32768 → 32768 < s.bitpos.toNat + (emittedBits s ch (k + 1)).length →
    exec (.mpack ch (BitVec.ofNat 9 k)) s = .next u →
    exec (.mpack ch n) s = .next (u.raise .bitOvf (1#1 ++ BitVec.ofNat 11 (256 * ch.toNat + k) ++ u.bitpos.extractLsb' 0 20))

/-! ### Transient detector -/

/-- The notation of the samples is binary32 arithmetic (R15, R110): isnan by the exponent and fraction, abs32 without the sign, the ordered
comparison by value, false on a NaN, and mul32 the product of two finite samples rounded to the nearest finite one, ties to the even
fraction, its sign the exclusive or of theirs, and infinity from half a place above the largest finite sample on. Infinity times a sample
that is neither zero nor a NaN is infinity (R116). A product exceeds by that comparison, and not on equality (R125, vectors T8 and T9).
Values are multiples of 2^-149, so products multiples of 2^-298. -/
def Obligations.SampleArithmeticIsBinary32 : Prop :=
  (∀ x : Word, isNan x = true ↔ x.extractLsb' 23 8 = 0xFF#8 ∧ x.extractLsb' 0 23 ≠ 0#23) ∧
  (∀ x : Word, abs32 x = 0#1 ++ x.extractLsb' 0 31) ∧
  (∀ x y : Word, (ltF x y = true ↔ isNan x = false ∧ isNan y = false ∧ binary32Value x < binary32Value y) ∧ gtF x y = ltF y x) ∧
  (∀ a b : Word, binary32Finite a → binary32Finite b →
    ∃ p : Word, mul32 a b = some p ∧ p.getLsbD 31 = (a.getLsbD 31 ^^ b.getLsbD 31) ∧
      ((2 ^ 25 - 1) * 2 ^ 401 ≤ (binary32Value a * binary32Value b).natAbs → p.toNat % 2 ^ 31 = 0x7F800000) ∧
      ((binary32Value a * binary32Value b).natAbs < (2 ^ 25 - 1) * 2 ^ 401 → binary32Finite p ∧
        ∀ q : Word, binary32Finite q →
          (binary32Value p * 2 ^ 149 - binary32Value a * binary32Value b).natAbs ≤
            (binary32Value q * 2 ^ 149 - binary32Value a * binary32Value b).natAbs ∧
          (binary32Value q ≠ binary32Value p →
            (binary32Value q * 2 ^ 149 - binary32Value a * binary32Value b).natAbs =
              (binary32Value p * 2 ^ 149 - binary32Value a * binary32Value b).natAbs → p.getLsbD 0 = false))) ∧
  (∀ a b : Word, a.toNat % 2 ^ 31 = 0x7F800000 → 0 < b.toNat % 2 ^ 31 → isNan b = false →
    ∃ p : Word, mul32 a b = some p ∧ mul32 b a = some p ∧ p.toNat % 2 ^ 31 = 0x7F800000 ∧
      p.getLsbD 31 = (a.getLsbD 31 ^^ b.getLsbD 31)) ∧
  (∀ a t b p : Word, mul32 a t = some p → productExceeds a t b = gtF p b) ∧
  productExceeds 0x3F800000#32 Config.tdT1 0x3DCCCCCD#32 = false ∧ productExceeds 0x3F800000#32 Config.tdT1 0x3DCCCCCC#32 = true

/-- PEAK of samples without a NaN is the largest magnitude among them, and +0.0 where there is none larger (R111). -/
def Obligations.PeakIsLargestMagnitude : Prop :=
  ∀ (w : List Word) (a n : Nat), (∀ x ∈ w, isNan x = false) →
    (∀ x ∈ (w.drop a).take n, (abs32 x).toNat ≤ (peak w a n).toNat) ∧
    (peak w a n = 0#32 ∨ ∃ x ∈ (w.drop a).take n, peak w a n = abs32 x)

/-- DETECT does not look at signs (R123). -/
def Obligations.DetectIgnoresSigns : Prop :=
  ∀ w w' : List Word, w.map abs32 = w'.map abs32 → detect w = detect w'

/-- Samples 0 to 127 count only through the first half's peak, samples 128 to 191 only through it and quarter 1's (R124). -/
def Obligations.DetectSeesEarlySamplesOnlyInPeaks : Prop :=
  (∀ w w' : List Word, w.drop 128 = w'.drop 128 → peak w 0 256 = peak w' 0 256 → detect w = detect w') ∧
  (∀ w w' : List Word, w.drop 192 = w'.drop 192 → peak w 0 256 = peak w' 0 256 → peak w 128 128 = peak w' 128 128 →
    detect w = detect w')

/-- TDRUN on a window without a NaN, whatever BSWEN is: silence first, then the levels in order, the first comparison that fires deciding
RES, CODE and IDX (R112 to R115, R117). -/
def Obligations.TdrunReportsFirstRise : Prop :=
  decode 0x10000000#32 = .ok .tdrun ∧
  ∀ (s : State) (w : List Word), w = s.tdwin → (∀ x ∈ w, isNan x = false) →
    ∃ d : BitVec 12, exec .tdrun s = .next { s with tdstat := d, busy := false, done := true } ∧
      (ltF (peak w 0 256) Config.tdFloor = true ∨ ltF (peak w 256 256) Config.tdFloor = true → d = 0x008#12) ∧
      (ltF (peak w 0 256) Config.tdFloor = false → ltF (peak w 256 256) Config.tdFloor = false →
        (productExceeds (peak w 256 256) Config.tdT1 (peak w 0 256) = true → d = 0x013#12) ∧
        (productExceeds (peak w 256 256) Config.tdT1 (peak w 0 256) = false →
          (∀ i ∈ [2, 3], productExceeds (peak w (128 * i) 128) Config.tdT2 (peak w (128 * (i - 1)) 128) = true →
            (∀ j ∈ [2, 3], j < i → productExceeds (peak w (128 * j) 128) Config.tdT2 (peak w (128 * (j - 1)) 128) = false) →
            d = BitVec.ofNat 12 (1 + 2 * 2 + 16 * i)) ∧
          ((∀ i ∈ [2, 3], productExceeds (peak w (128 * i) 128) Config.tdT2 (peak w (128 * (i - 1)) 128) = false) →
            (∀ i ∈ [4, 5, 6, 7], productExceeds (peak w (64 * i) 64) Config.tdT3 (peak w (64 * (i - 1)) 64) = true →
              (∀ j ∈ [4, 5, 6, 7], j < i →
                productExceeds (peak w (64 * j) 64) Config.tdT3 (peak w (64 * (j - 1)) 64) = false) →
              d = BitVec.ofNat 12 (1 + 2 * 3 + 16 * i)) ∧
            ((∀ i ∈ [4, 5, 6, 7], productExceeds (peak w (64 * i) 64) Config.tdT3 (peak w (64 * (i - 1)) 64) = false) →
              d = 0x000#12))))

/-- TDPUSH on a legal channel, by the BSWEN value sampled at acceptance. On, with no NaN in the window: the detection of the tail and the
new samples goes to TDSTAT and its RES to TDRES bit ch, and the new samples become the tail. Off: 'disabled' and the long transform,
whatever the samples, and the tail stays (R118, R120, R121). -/
def Obligations.TdpushDetectsAndShiftsTail : Prop :=
  ∀ (s : State) (ch : BitVec 3), ch.toNat < 6 →
    (s.bswenSampled = true → (∀ x ∈ s.tail ch ++ s.tdnew, isNan x = false) →
      ∃ t : State, exec (.tdpush ch) s = .next t ∧ t.tail ch = s.tdnew ∧
        bytesKept (inRange (tailAddr ch) 1024) s t ∧
        t.tdstat = 1#1 ++ ch ++ (detect (s.tail ch ++ s.tdnew)).idx ++ (detect (s.tail ch ++ s.tdnew)).code ++
          BitVec.ofBool (detect (s.tail ch ++ s.tdnew)).res ∧
        (∀ c : Nat, c < 6 →
          t.tdres.getLsbD c = if c = ch.toNat then (detect (s.tail ch ++ s.tdnew)).res else s.tdres.getLsbD c) ∧
        { t with mem := s.mem, tdstat := s.tdstat, tdres := s.tdres } = { s with busy := false, done := true }) ∧
    (s.bswenSampled = false →
      ∃ t : State, exec (.tdpush ch) s = .next t ∧ t.mem = s.mem ∧ t.tdstat = 1#1 ++ ch ++ 0#4 ++ 5#3 ++ 0#1 ∧
        (∀ c : Nat, c < 6 → t.tdres.getLsbD c = if c = ch.toNat then false else s.tdres.getLsbD c) ∧
        { t with tdstat := s.tdstat, tdres := s.tdres } = { s with busy := false, done := true })

/-- A NaN in the window of TDRUN, or of TDPUSH with block switching on, raises TDNAN with the lowest such index and writes nothing else
(R116 to R118, R207). -/
def Obligations.NanInWindowRaisesTdnan : Prop :=
  (∀ (s : State) (j : Nat) (x : Word), s.tdwin[j]? = some x → isNan x = true →
    (∀ (j' : Nat) (x' : Word), j' < j → s.tdwin[j']? = some x' → isNan x' = false) →
    exec .tdrun s = .next { s.raise .tdNan (BitVec.ofNat 32 j) with busy := false, done := true }) ∧
  (∀ (s : State) (ch : BitVec 3) (j : Nat) (x : Word), ch.toNat < 6 → s.bswenSampled = true →
    (s.tail ch ++ s.tdnew)[j]? = some x → isNan x = true →
    (∀ (j' : Nat) (x' : Word), j' < j → (s.tail ch ++ s.tdnew)[j']? = some x' → isNan x' = false) →
    exec (.tdpush ch) s = .next { s.raise .tdNan (BitVec.ofNat 32 (j + ch.toNat * 2 ^ 12 + 2 ^ 15)) with
      busy := false, done := true })

/-- TDCLR makes every tail +0.0 and changes nothing else (R119). -/
def Obligations.TdclrZeroesTails : Prop :=
  decode 0x12000000#32 = .ok .tdclr ∧ ∀ s : State,
    ∃ t : State, exec .tdclr s = .next t ∧ (∀ a : Nat, inTdtail a = true → t.readByte a = 0#8) ∧ bytesKept inTdtail s t ∧
      { t with mem := s.mem } = { s with busy := false, done := true }

/-! ### CRC unit and finalization -/

/-- CRC16 is 0 on the empty string, takes each further byte most significant bit first, one step of the register for each bit, and gives the
check value 0xFEE8 (R180, R181); CRCCALC puts the CRC16 of a range of FBUF into CRCVAL, or raises CRCRANGE and keeps it if the range
leaves FBUF (R185). -/
def Obligations.CrccalcComputesOrRefuses : Prop :=
  crc16 [] = 0#16 ∧
  (∀ (bs : List Byte) (b : Byte), crc16 (bs ++ [b]) = List.foldl
    (fun (r : Half) (j : Nat) => if r.getLsbD 15 ^^ b.getLsbD j then (r <<< 1) ^^^ 0x8005#16 else r <<< 1) (crc16 bs)
    [7, 6, 5, 4, 3, 2, 1, 0]) ∧
  crc16 [0x31#8, 0x32#8, 0x33#8, 0x34#8, 0x35#8, 0x36#8, 0x37#8, 0x38#8, 0x39#8] = 0xFEE8#16 ∧
  decode 0x18000000#32 = .ok .crccalc ∧ ∀ s : State,
    (s.crcStart.toNat + s.crcLen.toNat ≤ 4096 →
      exec .crccalc s = .next { s with
        crcVal := crc16 ((List.range s.crcLen.toNat).map fun j => s.fbuf (s.crcStart.toNat + j)), busy := false, done := true }) ∧
    (4096 < s.crcStart.toNat + s.crcLen.toNat →
      exec .crccalc s = .next { s.raise .crcRange (BitVec.ofNat 32 (s.crcStart.toNat * 2 ^ 16 + s.crcLen.toNat)) with
        busy := false, done := true })

/-- ZAPP takes one step of the register for each zero bit (R182), and by 16 of them turns a register into the CRC16 of its own two bytes;
CRCZAPP appends CRCBITS zero bits to CRCVAL, CRCINV removes them; neither changes anything else (R183, R186, R187). -/
def Obligations.CrczappAndCrcinvChangeCrcval : Prop :=
  (∀ r : Half, zapp r 0 = r ∧ ∀ k : Nat,
    zapp r (k + 1) = if (zapp r k).getLsbD 15 then (zapp r k <<< 1) ^^^ 0x8005#16 else zapp r k <<< 1) ∧
  (∀ r : Half, zapp r 16 = crc16 [r.extractLsb' 8 8, r.extractLsb' 0 8]) ∧
  decode 0x19000000#32 = .ok .crczapp ∧ decode 0x1A000000#32 = .ok .crcinv ∧ ∀ s : State,
    exec .crczapp s = .next { s with crcVal := zapp s.crcVal s.crcBits.toNat, busy := false, done := true } ∧
    exec .crcinv s = .next { s with crcVal := inv s.crcVal s.crcBits.toNat, busy := false, done := true }

/-- INV undoes ZAPP and ZAPP undoes INV, for every register and count; x^(-1) mod P is 0xC002 (R183). -/
def Obligations.InvUndoesZapp : Prop :=
  (∀ (r : Half) (k : Nat), inv (zapp r k) k = r ∧ zapp (inv r k) k = r) ∧ inv 0x0001#16 1 = 0xC002#16

/-- The order of x modulo P is 32767, so counts reduce modulo it (R193). -/
def Obligations.ZappPeriod : Prop :=
  zapp 1#16 32767 = 1#16 ∧ zapp 1#16 (32767 / 7) ≠ 1#16 ∧ zapp 1#16 (32767 / 31) ≠ 1#16 ∧ zapp 1#16 (32767 / 151) ≠ 1#16 ∧
    ∀ (r : Half) (k : Nat), zapp r k = zapp r (k % 32767) ∧ inv r k = zapp r ((32767 - k % 32767) % 32767)

/-- A frame whose fields fit is finalized: flushed and zero-padded, its CRC1 at bytes 2 and 3 and its CRC2 in the final two bytes, each
computed over its region of the frame FINAL leaves; BITPOS is 16 * fs and FRAMEBYTES 2 * fs (R184, R188). -/
def Obligations.FinalPlacesBothCrcs : Prop :=
  ∀ (s : State) (fs f nb : Nat), fs = s.fsw.toNat → 4 ≤ fs → fs ≤ 2048 → f = fs / 2 + fs / 8 → nb = (s.bitpos.toNat + 7) / 8 →
    nb ≤ 2 * fs - 2 →
    ∃ t : State, exec .final s = .next t ∧
      (∀ p : Nat, p < s.bitpos.toNat → p / 8 ≠ 2 → p / 8 ≠ 3 → streamBit t p = streamBit s p) ∧
      (∀ p : Nat, s.bitpos.toNat ≤ p → p < 8 * nb → p / 8 ≠ 2 → p / 8 ≠ 3 → streamBit t p = false) ∧
      (∀ j : Nat, nb ≤ j → j < 2 * fs - 2 → j ≠ 2 → j ≠ 3 → t.fbuf j = 0#8) ∧
      t.crc1 = inv (crc16 ((List.range (2 * f - 4)).map fun j => t.fbuf (4 + j))) (16 * f - 16) ∧
      t.fbuf 2 = t.crc1.extractLsb' 8 8 ∧ t.fbuf 3 = t.crc1.extractLsb' 0 8 ∧
      t.crc2 = crc16 ((List.range (2 * fs - 2 - 2 * f)).map fun j => t.fbuf (2 * f + j)) ∧
      t.fbuf (2 * fs - 2) = t.crc2.extractLsb' 8 8 ∧ t.fbuf (2 * fs - 1) = t.crc2.extractLsb' 0 8 ∧
      bytesKept (fun a => frameByte 2 4 a || frameByte (s.bitpos.toNat / 8) (2 * fs) a) s t ∧
      { t with mem := s.mem, crc1 := s.crc1, crc2 := s.crc2 } =
        { s with frameBytes := BitVec.ofNat 16 (2 * fs), bitpos := BitVec.ofNat 32 (16 * fs), busy := false, done := true }

/-- FINAL with an illegal frame size raises BADFS, with fields that do not fit FRMOVF, and then changes FRAMEBYTES alone (R188, R192). -/
def Obligations.FinalFailureDropsFrame : Prop :=
  ∀ s : State,
    (s.fsw.toNat < 4 ∨ 2048 < s.fsw.toNat →
      exec .final s = .next
        ({ s with frameBytes := 0#16, busy := false, done := true }.raise .badFs (BitVec.ofNat 32 s.fsw.toNat))) ∧
    (4 ≤ s.fsw.toNat → s.fsw.toNat ≤ 2048 → 2 * s.fsw.toNat - 2 < (s.bitpos.toNat + 7) / 8 →
      exec .final s = .next
        ({ s with frameBytes := 0#16, busy := false, done := true }.raise .frmOvf (BitVec.ofNat 32 ((s.bitpos.toNat + 7) / 8))))

/-- After a successful FINAL both regions of the frame, each with its stored CRC, have CRC 0 (R189, R190). -/
def Obligations.FinalizedFrameChecks : Prop :=
  ∀ (s t : State) (fs f : Nat), fs = s.fsw.toNat → 4 ≤ fs → fs ≤ 2048 → f = fs / 2 + fs / 8 →
    (s.bitpos.toNat + 7) / 8 ≤ 2 * fs - 2 → exec .final s = .next t →
    crc16 ((List.range (2 * f - 2)).map fun j => t.fbuf (2 + j)) = 0#16 ∧
    crc16 ((List.range (2 * fs - 2 * f)).map fun j => t.fbuf (2 * f + j)) = 0#16
end

