-- ==== Sys2Proof/Laws/State.lean ====
section
/-!
SUPPORT. What each named operation does to each field of the state it does not touch, and to those it sets: one lemma per field per
update, true by rfl.
-/
namespace Sys2Proof.Machine

open Sys2Proof

/-! ### writeByte -/

@[simp] theorem State.writeByte_ctrl (s : State) (a : Nat) (v : Byte) : (s.writeByte a v).ctrl = s.ctrl := rfl
@[simp] theorem State.writeByte_busy (s : State) (a : Nat) (v : Byte) : (s.writeByte a v).busy = s.busy := rfl
@[simp] theorem State.writeByte_done (s : State) (a : Nat) (v : Byte) : (s.writeByte a v).done = s.done := rfl
@[simp] theorem State.writeByte_lastCmd (s : State) (a : Nat) (v : Byte) : (s.writeByte a v).lastCmd = s.lastCmd := rfl
@[simp] theorem State.writeByte_bswenSampled (s : State) (a : Nat) (v : Byte) : (s.writeByte a v).bswenSampled = s.bswenSampled := rfl
@[simp] theorem State.writeByte_errBits (s : State) (a : Nat) (v : Byte) : (s.writeByte a v).errBits = s.errBits := rfl
@[simp] theorem State.writeByte_errCode (s : State) (a : Nat) (v : Byte) : (s.writeByte a v).errCode = s.errCode := rfl
@[simp] theorem State.writeByte_errInfo (s : State) (a : Nat) (v : Byte) : (s.writeByte a v).errInfo = s.errInfo := rfl
@[simp] theorem State.writeByte_qin (s : State) (a : Nat) (v : Byte) : (s.writeByte a v).qin = s.qin := rfl
@[simp] theorem State.writeByte_qout (s : State) (a : Nat) (v : Byte) : (s.writeByte a v).qout = s.qout := rfl
@[simp] theorem State.writeByte_cnt1 (s : State) (a : Nat) (v : Byte) : (s.writeByte a v).cnt1 = s.cnt1 := rfl
@[simp] theorem State.writeByte_cnt2 (s : State) (a : Nat) (v : Byte) : (s.writeByte a v).cnt2 = s.cnt2 := rfl
@[simp] theorem State.writeByte_cnt4 (s : State) (a : Nat) (v : Byte) : (s.writeByte a v).cnt4 = s.cnt4 := rfl
@[simp] theorem State.writeByte_head1 (s : State) (a : Nat) (v : Byte) : (s.writeByte a v).head1 = s.head1 := rfl
@[simp] theorem State.writeByte_head2 (s : State) (a : Nat) (v : Byte) : (s.writeByte a v).head2 = s.head2 := rfl
@[simp] theorem State.writeByte_head4 (s : State) (a : Nat) (v : Byte) : (s.writeByte a v).head4 = s.head4 := rfl
@[simp] theorem State.writeByte_tdstat (s : State) (a : Nat) (v : Byte) : (s.writeByte a v).tdstat = s.tdstat := rfl
@[simp] theorem State.writeByte_tdres (s : State) (a : Nat) (v : Byte) : (s.writeByte a v).tdres = s.tdres := rfl
@[simp] theorem State.writeByte_bitpos (s : State) (a : Nat) (v : Byte) : (s.writeByte a v).bitpos = s.bitpos := rfl
@[simp] theorem State.writeByte_putdata (s : State) (a : Nat) (v : Byte) : (s.writeByte a v).putdata = s.putdata := rfl
@[simp] theorem State.writeByte_fsw (s : State) (a : Nat) (v : Byte) : (s.writeByte a v).fsw = s.fsw := rfl
@[simp] theorem State.writeByte_crc1 (s : State) (a : Nat) (v : Byte) : (s.writeByte a v).crc1 = s.crc1 := rfl
@[simp] theorem State.writeByte_crc2 (s : State) (a : Nat) (v : Byte) : (s.writeByte a v).crc2 = s.crc2 := rfl
@[simp] theorem State.writeByte_frameBytes (s : State) (a : Nat) (v : Byte) : (s.writeByte a v).frameBytes = s.frameBytes := rfl
@[simp] theorem State.writeByte_crcStart (s : State) (a : Nat) (v : Byte) : (s.writeByte a v).crcStart = s.crcStart := rfl
@[simp] theorem State.writeByte_crcLen (s : State) (a : Nat) (v : Byte) : (s.writeByte a v).crcLen = s.crcLen := rfl
@[simp] theorem State.writeByte_crcBits (s : State) (a : Nat) (v : Byte) : (s.writeByte a v).crcBits = s.crcBits := rfl
@[simp] theorem State.writeByte_crcVal (s : State) (a : Nat) (v : Byte) : (s.writeByte a v).crcVal = s.crcVal := rfl
@[simp] theorem State.writeByte_memDraw (s : State) (a : Nat) (v : Byte) : (s.writeByte a v).memDraw = s.memDraw := rfl
@[simp] theorem State.writeByte_draws (s : State) (a : Nat) (v : Byte) : (s.writeByte a v).draws = s.draws := rfl
@[simp] theorem State.writeByte_rst (s : State) (a : Nat) (v : Byte) : (s.writeByte a v).rst = s.rst := rfl
@[simp] theorem State.writeByte_inputs (s : State) (a : Nat) (v : Byte) : (s.writeByte a v).inputs = s.inputs := rfl
@[simp] theorem State.writeByte_resp (s : State) (a : Nat) (v : Byte) : (s.writeByte a v).resp = s.resp := rfl

@[simp] theorem State.writeByte_mem (s : State) (a : Nat) (v : Byte) : (s.writeByte a v).mem = writeCell a v s.mem := rfl

/-! ### writeWord -/

@[simp] theorem State.writeWord_ctrl (s : State) (a : Nat) (v : Word) : (s.writeWord a v).ctrl = s.ctrl := rfl
@[simp] theorem State.writeWord_busy (s : State) (a : Nat) (v : Word) : (s.writeWord a v).busy = s.busy := rfl
@[simp] theorem State.writeWord_done (s : State) (a : Nat) (v : Word) : (s.writeWord a v).done = s.done := rfl
@[simp] theorem State.writeWord_lastCmd (s : State) (a : Nat) (v : Word) : (s.writeWord a v).lastCmd = s.lastCmd := rfl
@[simp] theorem State.writeWord_bswenSampled (s : State) (a : Nat) (v : Word) : (s.writeWord a v).bswenSampled = s.bswenSampled := rfl
@[simp] theorem State.writeWord_errBits (s : State) (a : Nat) (v : Word) : (s.writeWord a v).errBits = s.errBits := rfl
@[simp] theorem State.writeWord_errCode (s : State) (a : Nat) (v : Word) : (s.writeWord a v).errCode = s.errCode := rfl
@[simp] theorem State.writeWord_errInfo (s : State) (a : Nat) (v : Word) : (s.writeWord a v).errInfo = s.errInfo := rfl
@[simp] theorem State.writeWord_qin (s : State) (a : Nat) (v : Word) : (s.writeWord a v).qin = s.qin := rfl
@[simp] theorem State.writeWord_qout (s : State) (a : Nat) (v : Word) : (s.writeWord a v).qout = s.qout := rfl
@[simp] theorem State.writeWord_cnt1 (s : State) (a : Nat) (v : Word) : (s.writeWord a v).cnt1 = s.cnt1 := rfl
@[simp] theorem State.writeWord_cnt2 (s : State) (a : Nat) (v : Word) : (s.writeWord a v).cnt2 = s.cnt2 := rfl
@[simp] theorem State.writeWord_cnt4 (s : State) (a : Nat) (v : Word) : (s.writeWord a v).cnt4 = s.cnt4 := rfl
@[simp] theorem State.writeWord_head1 (s : State) (a : Nat) (v : Word) : (s.writeWord a v).head1 = s.head1 := rfl
@[simp] theorem State.writeWord_head2 (s : State) (a : Nat) (v : Word) : (s.writeWord a v).head2 = s.head2 := rfl
@[simp] theorem State.writeWord_head4 (s : State) (a : Nat) (v : Word) : (s.writeWord a v).head4 = s.head4 := rfl
@[simp] theorem State.writeWord_tdstat (s : State) (a : Nat) (v : Word) : (s.writeWord a v).tdstat = s.tdstat := rfl
@[simp] theorem State.writeWord_tdres (s : State) (a : Nat) (v : Word) : (s.writeWord a v).tdres = s.tdres := rfl
@[simp] theorem State.writeWord_bitpos (s : State) (a : Nat) (v : Word) : (s.writeWord a v).bitpos = s.bitpos := rfl
@[simp] theorem State.writeWord_putdata (s : State) (a : Nat) (v : Word) : (s.writeWord a v).putdata = s.putdata := rfl
@[simp] theorem State.writeWord_fsw (s : State) (a : Nat) (v : Word) : (s.writeWord a v).fsw = s.fsw := rfl
@[simp] theorem State.writeWord_crc1 (s : State) (a : Nat) (v : Word) : (s.writeWord a v).crc1 = s.crc1 := rfl
@[simp] theorem State.writeWord_crc2 (s : State) (a : Nat) (v : Word) : (s.writeWord a v).crc2 = s.crc2 := rfl
@[simp] theorem State.writeWord_frameBytes (s : State) (a : Nat) (v : Word) : (s.writeWord a v).frameBytes = s.frameBytes := rfl
@[simp] theorem State.writeWord_crcStart (s : State) (a : Nat) (v : Word) : (s.writeWord a v).crcStart = s.crcStart := rfl
@[simp] theorem State.writeWord_crcLen (s : State) (a : Nat) (v : Word) : (s.writeWord a v).crcLen = s.crcLen := rfl
@[simp] theorem State.writeWord_crcBits (s : State) (a : Nat) (v : Word) : (s.writeWord a v).crcBits = s.crcBits := rfl
@[simp] theorem State.writeWord_crcVal (s : State) (a : Nat) (v : Word) : (s.writeWord a v).crcVal = s.crcVal := rfl
@[simp] theorem State.writeWord_memDraw (s : State) (a : Nat) (v : Word) : (s.writeWord a v).memDraw = s.memDraw := rfl
@[simp] theorem State.writeWord_draws (s : State) (a : Nat) (v : Word) : (s.writeWord a v).draws = s.draws := rfl
@[simp] theorem State.writeWord_rst (s : State) (a : Nat) (v : Word) : (s.writeWord a v).rst = s.rst := rfl
@[simp] theorem State.writeWord_inputs (s : State) (a : Nat) (v : Word) : (s.writeWord a v).inputs = s.inputs := rfl
@[simp] theorem State.writeWord_resp (s : State) (a : Nat) (v : Word) : (s.writeWord a v).resp = s.resp := rfl

/-! ### writeWordBE -/

@[simp] theorem State.writeWordBE_ctrl (s : State) (a : Nat) (v : Word) : (s.writeWordBE a v).ctrl = s.ctrl := rfl
@[simp] theorem State.writeWordBE_busy (s : State) (a : Nat) (v : Word) : (s.writeWordBE a v).busy = s.busy := rfl
@[simp] theorem State.writeWordBE_done (s : State) (a : Nat) (v : Word) : (s.writeWordBE a v).done = s.done := rfl
@[simp] theorem State.writeWordBE_lastCmd (s : State) (a : Nat) (v : Word) : (s.writeWordBE a v).lastCmd = s.lastCmd := rfl
@[simp] theorem State.writeWordBE_bswenSampled (s : State) (a : Nat) (v : Word) : (s.writeWordBE a v).bswenSampled = s.bswenSampled := rfl
@[simp] theorem State.writeWordBE_errBits (s : State) (a : Nat) (v : Word) : (s.writeWordBE a v).errBits = s.errBits := rfl
@[simp] theorem State.writeWordBE_errCode (s : State) (a : Nat) (v : Word) : (s.writeWordBE a v).errCode = s.errCode := rfl
@[simp] theorem State.writeWordBE_errInfo (s : State) (a : Nat) (v : Word) : (s.writeWordBE a v).errInfo = s.errInfo := rfl
@[simp] theorem State.writeWordBE_qin (s : State) (a : Nat) (v : Word) : (s.writeWordBE a v).qin = s.qin := rfl
@[simp] theorem State.writeWordBE_qout (s : State) (a : Nat) (v : Word) : (s.writeWordBE a v).qout = s.qout := rfl
@[simp] theorem State.writeWordBE_cnt1 (s : State) (a : Nat) (v : Word) : (s.writeWordBE a v).cnt1 = s.cnt1 := rfl
@[simp] theorem State.writeWordBE_cnt2 (s : State) (a : Nat) (v : Word) : (s.writeWordBE a v).cnt2 = s.cnt2 := rfl
@[simp] theorem State.writeWordBE_cnt4 (s : State) (a : Nat) (v : Word) : (s.writeWordBE a v).cnt4 = s.cnt4 := rfl
@[simp] theorem State.writeWordBE_head1 (s : State) (a : Nat) (v : Word) : (s.writeWordBE a v).head1 = s.head1 := rfl
@[simp] theorem State.writeWordBE_head2 (s : State) (a : Nat) (v : Word) : (s.writeWordBE a v).head2 = s.head2 := rfl
@[simp] theorem State.writeWordBE_head4 (s : State) (a : Nat) (v : Word) : (s.writeWordBE a v).head4 = s.head4 := rfl
@[simp] theorem State.writeWordBE_tdstat (s : State) (a : Nat) (v : Word) : (s.writeWordBE a v).tdstat = s.tdstat := rfl
@[simp] theorem State.writeWordBE_tdres (s : State) (a : Nat) (v : Word) : (s.writeWordBE a v).tdres = s.tdres := rfl
@[simp] theorem State.writeWordBE_bitpos (s : State) (a : Nat) (v : Word) : (s.writeWordBE a v).bitpos = s.bitpos := rfl
@[simp] theorem State.writeWordBE_putdata (s : State) (a : Nat) (v : Word) : (s.writeWordBE a v).putdata = s.putdata := rfl
@[simp] theorem State.writeWordBE_fsw (s : State) (a : Nat) (v : Word) : (s.writeWordBE a v).fsw = s.fsw := rfl
@[simp] theorem State.writeWordBE_crc1 (s : State) (a : Nat) (v : Word) : (s.writeWordBE a v).crc1 = s.crc1 := rfl
@[simp] theorem State.writeWordBE_crc2 (s : State) (a : Nat) (v : Word) : (s.writeWordBE a v).crc2 = s.crc2 := rfl
@[simp] theorem State.writeWordBE_frameBytes (s : State) (a : Nat) (v : Word) : (s.writeWordBE a v).frameBytes = s.frameBytes := rfl
@[simp] theorem State.writeWordBE_crcStart (s : State) (a : Nat) (v : Word) : (s.writeWordBE a v).crcStart = s.crcStart := rfl
@[simp] theorem State.writeWordBE_crcLen (s : State) (a : Nat) (v : Word) : (s.writeWordBE a v).crcLen = s.crcLen := rfl
@[simp] theorem State.writeWordBE_crcBits (s : State) (a : Nat) (v : Word) : (s.writeWordBE a v).crcBits = s.crcBits := rfl
@[simp] theorem State.writeWordBE_crcVal (s : State) (a : Nat) (v : Word) : (s.writeWordBE a v).crcVal = s.crcVal := rfl
@[simp] theorem State.writeWordBE_memDraw (s : State) (a : Nat) (v : Word) : (s.writeWordBE a v).memDraw = s.memDraw := rfl
@[simp] theorem State.writeWordBE_draws (s : State) (a : Nat) (v : Word) : (s.writeWordBE a v).draws = s.draws := rfl
@[simp] theorem State.writeWordBE_rst (s : State) (a : Nat) (v : Word) : (s.writeWordBE a v).rst = s.rst := rfl
@[simp] theorem State.writeWordBE_inputs (s : State) (a : Nat) (v : Word) : (s.writeWordBE a v).inputs = s.inputs := rfl
@[simp] theorem State.writeWordBE_resp (s : State) (a : Nat) (v : Word) : (s.writeWordBE a v).resp = s.resp := rfl

/-! ### setFbuf -/

@[simp] theorem State.setFbuf_ctrl (s : State) (i : Nat) (v : Byte) : (s.setFbuf i v).ctrl = s.ctrl := rfl
@[simp] theorem State.setFbuf_busy (s : State) (i : Nat) (v : Byte) : (s.setFbuf i v).busy = s.busy := rfl
@[simp] theorem State.setFbuf_done (s : State) (i : Nat) (v : Byte) : (s.setFbuf i v).done = s.done := rfl
@[simp] theorem State.setFbuf_lastCmd (s : State) (i : Nat) (v : Byte) : (s.setFbuf i v).lastCmd = s.lastCmd := rfl
@[simp] theorem State.setFbuf_bswenSampled (s : State) (i : Nat) (v : Byte) : (s.setFbuf i v).bswenSampled = s.bswenSampled := rfl
@[simp] theorem State.setFbuf_errBits (s : State) (i : Nat) (v : Byte) : (s.setFbuf i v).errBits = s.errBits := rfl
@[simp] theorem State.setFbuf_errCode (s : State) (i : Nat) (v : Byte) : (s.setFbuf i v).errCode = s.errCode := rfl
@[simp] theorem State.setFbuf_errInfo (s : State) (i : Nat) (v : Byte) : (s.setFbuf i v).errInfo = s.errInfo := rfl
@[simp] theorem State.setFbuf_qin (s : State) (i : Nat) (v : Byte) : (s.setFbuf i v).qin = s.qin := rfl
@[simp] theorem State.setFbuf_qout (s : State) (i : Nat) (v : Byte) : (s.setFbuf i v).qout = s.qout := rfl
@[simp] theorem State.setFbuf_cnt1 (s : State) (i : Nat) (v : Byte) : (s.setFbuf i v).cnt1 = s.cnt1 := rfl
@[simp] theorem State.setFbuf_cnt2 (s : State) (i : Nat) (v : Byte) : (s.setFbuf i v).cnt2 = s.cnt2 := rfl
@[simp] theorem State.setFbuf_cnt4 (s : State) (i : Nat) (v : Byte) : (s.setFbuf i v).cnt4 = s.cnt4 := rfl
@[simp] theorem State.setFbuf_head1 (s : State) (i : Nat) (v : Byte) : (s.setFbuf i v).head1 = s.head1 := rfl
@[simp] theorem State.setFbuf_head2 (s : State) (i : Nat) (v : Byte) : (s.setFbuf i v).head2 = s.head2 := rfl
@[simp] theorem State.setFbuf_head4 (s : State) (i : Nat) (v : Byte) : (s.setFbuf i v).head4 = s.head4 := rfl
@[simp] theorem State.setFbuf_tdstat (s : State) (i : Nat) (v : Byte) : (s.setFbuf i v).tdstat = s.tdstat := rfl
@[simp] theorem State.setFbuf_tdres (s : State) (i : Nat) (v : Byte) : (s.setFbuf i v).tdres = s.tdres := rfl
@[simp] theorem State.setFbuf_bitpos (s : State) (i : Nat) (v : Byte) : (s.setFbuf i v).bitpos = s.bitpos := rfl
@[simp] theorem State.setFbuf_putdata (s : State) (i : Nat) (v : Byte) : (s.setFbuf i v).putdata = s.putdata := rfl
@[simp] theorem State.setFbuf_fsw (s : State) (i : Nat) (v : Byte) : (s.setFbuf i v).fsw = s.fsw := rfl
@[simp] theorem State.setFbuf_crc1 (s : State) (i : Nat) (v : Byte) : (s.setFbuf i v).crc1 = s.crc1 := rfl
@[simp] theorem State.setFbuf_crc2 (s : State) (i : Nat) (v : Byte) : (s.setFbuf i v).crc2 = s.crc2 := rfl
@[simp] theorem State.setFbuf_frameBytes (s : State) (i : Nat) (v : Byte) : (s.setFbuf i v).frameBytes = s.frameBytes := rfl
@[simp] theorem State.setFbuf_crcStart (s : State) (i : Nat) (v : Byte) : (s.setFbuf i v).crcStart = s.crcStart := rfl
@[simp] theorem State.setFbuf_crcLen (s : State) (i : Nat) (v : Byte) : (s.setFbuf i v).crcLen = s.crcLen := rfl
@[simp] theorem State.setFbuf_crcBits (s : State) (i : Nat) (v : Byte) : (s.setFbuf i v).crcBits = s.crcBits := rfl
@[simp] theorem State.setFbuf_crcVal (s : State) (i : Nat) (v : Byte) : (s.setFbuf i v).crcVal = s.crcVal := rfl
@[simp] theorem State.setFbuf_memDraw (s : State) (i : Nat) (v : Byte) : (s.setFbuf i v).memDraw = s.memDraw := rfl
@[simp] theorem State.setFbuf_draws (s : State) (i : Nat) (v : Byte) : (s.setFbuf i v).draws = s.draws := rfl
@[simp] theorem State.setFbuf_rst (s : State) (i : Nat) (v : Byte) : (s.setFbuf i v).rst = s.rst := rfl
@[simp] theorem State.setFbuf_inputs (s : State) (i : Nat) (v : Byte) : (s.setFbuf i v).inputs = s.inputs := rfl
@[simp] theorem State.setFbuf_resp (s : State) (i : Nat) (v : Byte) : (s.setFbuf i v).resp = s.resp := rfl

/-! ### setSlot -/

@[simp] theorem State.setSlot_ctrl (s : State) (i : Nat) (x : Slot) : (s.setSlot i x).ctrl = s.ctrl := rfl
@[simp] theorem State.setSlot_busy (s : State) (i : Nat) (x : Slot) : (s.setSlot i x).busy = s.busy := rfl
@[simp] theorem State.setSlot_done (s : State) (i : Nat) (x : Slot) : (s.setSlot i x).done = s.done := rfl
@[simp] theorem State.setSlot_lastCmd (s : State) (i : Nat) (x : Slot) : (s.setSlot i x).lastCmd = s.lastCmd := rfl
@[simp] theorem State.setSlot_bswenSampled (s : State) (i : Nat) (x : Slot) : (s.setSlot i x).bswenSampled = s.bswenSampled := rfl
@[simp] theorem State.setSlot_errBits (s : State) (i : Nat) (x : Slot) : (s.setSlot i x).errBits = s.errBits := rfl
@[simp] theorem State.setSlot_errCode (s : State) (i : Nat) (x : Slot) : (s.setSlot i x).errCode = s.errCode := rfl
@[simp] theorem State.setSlot_errInfo (s : State) (i : Nat) (x : Slot) : (s.setSlot i x).errInfo = s.errInfo := rfl
@[simp] theorem State.setSlot_qin (s : State) (i : Nat) (x : Slot) : (s.setSlot i x).qin = s.qin := rfl
@[simp] theorem State.setSlot_qout (s : State) (i : Nat) (x : Slot) : (s.setSlot i x).qout = s.qout := rfl
@[simp] theorem State.setSlot_cnt1 (s : State) (i : Nat) (x : Slot) : (s.setSlot i x).cnt1 = s.cnt1 := rfl
@[simp] theorem State.setSlot_cnt2 (s : State) (i : Nat) (x : Slot) : (s.setSlot i x).cnt2 = s.cnt2 := rfl
@[simp] theorem State.setSlot_cnt4 (s : State) (i : Nat) (x : Slot) : (s.setSlot i x).cnt4 = s.cnt4 := rfl
@[simp] theorem State.setSlot_head1 (s : State) (i : Nat) (x : Slot) : (s.setSlot i x).head1 = s.head1 := rfl
@[simp] theorem State.setSlot_head2 (s : State) (i : Nat) (x : Slot) : (s.setSlot i x).head2 = s.head2 := rfl
@[simp] theorem State.setSlot_head4 (s : State) (i : Nat) (x : Slot) : (s.setSlot i x).head4 = s.head4 := rfl
@[simp] theorem State.setSlot_tdstat (s : State) (i : Nat) (x : Slot) : (s.setSlot i x).tdstat = s.tdstat := rfl
@[simp] theorem State.setSlot_tdres (s : State) (i : Nat) (x : Slot) : (s.setSlot i x).tdres = s.tdres := rfl
@[simp] theorem State.setSlot_bitpos (s : State) (i : Nat) (x : Slot) : (s.setSlot i x).bitpos = s.bitpos := rfl
@[simp] theorem State.setSlot_putdata (s : State) (i : Nat) (x : Slot) : (s.setSlot i x).putdata = s.putdata := rfl
@[simp] theorem State.setSlot_fsw (s : State) (i : Nat) (x : Slot) : (s.setSlot i x).fsw = s.fsw := rfl
@[simp] theorem State.setSlot_crc1 (s : State) (i : Nat) (x : Slot) : (s.setSlot i x).crc1 = s.crc1 := rfl
@[simp] theorem State.setSlot_crc2 (s : State) (i : Nat) (x : Slot) : (s.setSlot i x).crc2 = s.crc2 := rfl
@[simp] theorem State.setSlot_frameBytes (s : State) (i : Nat) (x : Slot) : (s.setSlot i x).frameBytes = s.frameBytes := rfl
@[simp] theorem State.setSlot_crcStart (s : State) (i : Nat) (x : Slot) : (s.setSlot i x).crcStart = s.crcStart := rfl
@[simp] theorem State.setSlot_crcLen (s : State) (i : Nat) (x : Slot) : (s.setSlot i x).crcLen = s.crcLen := rfl
@[simp] theorem State.setSlot_crcBits (s : State) (i : Nat) (x : Slot) : (s.setSlot i x).crcBits = s.crcBits := rfl
@[simp] theorem State.setSlot_crcVal (s : State) (i : Nat) (x : Slot) : (s.setSlot i x).crcVal = s.crcVal := rfl
@[simp] theorem State.setSlot_memDraw (s : State) (i : Nat) (x : Slot) : (s.setSlot i x).memDraw = s.memDraw := rfl
@[simp] theorem State.setSlot_draws (s : State) (i : Nat) (x : Slot) : (s.setSlot i x).draws = s.draws := rfl
@[simp] theorem State.setSlot_rst (s : State) (i : Nat) (x : Slot) : (s.setSlot i x).rst = s.rst := rfl
@[simp] theorem State.setSlot_inputs (s : State) (i : Nat) (x : Slot) : (s.setSlot i x).inputs = s.inputs := rfl
@[simp] theorem State.setSlot_resp (s : State) (i : Nat) (x : Slot) : (s.setSlot i x).resp = s.resp := rfl

/-! ### setSlotVal -/

@[simp] theorem State.setSlotVal_ctrl (s : State) (i : Nat) (v : Half) : (s.setSlotVal i v).ctrl = s.ctrl := rfl
@[simp] theorem State.setSlotVal_busy (s : State) (i : Nat) (v : Half) : (s.setSlotVal i v).busy = s.busy := rfl
@[simp] theorem State.setSlotVal_done (s : State) (i : Nat) (v : Half) : (s.setSlotVal i v).done = s.done := rfl
@[simp] theorem State.setSlotVal_lastCmd (s : State) (i : Nat) (v : Half) : (s.setSlotVal i v).lastCmd = s.lastCmd := rfl
@[simp] theorem State.setSlotVal_bswenSampled (s : State) (i : Nat) (v : Half) : (s.setSlotVal i v).bswenSampled = s.bswenSampled := rfl
@[simp] theorem State.setSlotVal_errBits (s : State) (i : Nat) (v : Half) : (s.setSlotVal i v).errBits = s.errBits := rfl
@[simp] theorem State.setSlotVal_errCode (s : State) (i : Nat) (v : Half) : (s.setSlotVal i v).errCode = s.errCode := rfl
@[simp] theorem State.setSlotVal_errInfo (s : State) (i : Nat) (v : Half) : (s.setSlotVal i v).errInfo = s.errInfo := rfl
@[simp] theorem State.setSlotVal_qin (s : State) (i : Nat) (v : Half) : (s.setSlotVal i v).qin = s.qin := rfl
@[simp] theorem State.setSlotVal_qout (s : State) (i : Nat) (v : Half) : (s.setSlotVal i v).qout = s.qout := rfl
@[simp] theorem State.setSlotVal_cnt1 (s : State) (i : Nat) (v : Half) : (s.setSlotVal i v).cnt1 = s.cnt1 := rfl
@[simp] theorem State.setSlotVal_cnt2 (s : State) (i : Nat) (v : Half) : (s.setSlotVal i v).cnt2 = s.cnt2 := rfl
@[simp] theorem State.setSlotVal_cnt4 (s : State) (i : Nat) (v : Half) : (s.setSlotVal i v).cnt4 = s.cnt4 := rfl
@[simp] theorem State.setSlotVal_head1 (s : State) (i : Nat) (v : Half) : (s.setSlotVal i v).head1 = s.head1 := rfl
@[simp] theorem State.setSlotVal_head2 (s : State) (i : Nat) (v : Half) : (s.setSlotVal i v).head2 = s.head2 := rfl
@[simp] theorem State.setSlotVal_head4 (s : State) (i : Nat) (v : Half) : (s.setSlotVal i v).head4 = s.head4 := rfl
@[simp] theorem State.setSlotVal_tdstat (s : State) (i : Nat) (v : Half) : (s.setSlotVal i v).tdstat = s.tdstat := rfl
@[simp] theorem State.setSlotVal_tdres (s : State) (i : Nat) (v : Half) : (s.setSlotVal i v).tdres = s.tdres := rfl
@[simp] theorem State.setSlotVal_bitpos (s : State) (i : Nat) (v : Half) : (s.setSlotVal i v).bitpos = s.bitpos := rfl
@[simp] theorem State.setSlotVal_putdata (s : State) (i : Nat) (v : Half) : (s.setSlotVal i v).putdata = s.putdata := rfl
@[simp] theorem State.setSlotVal_fsw (s : State) (i : Nat) (v : Half) : (s.setSlotVal i v).fsw = s.fsw := rfl
@[simp] theorem State.setSlotVal_crc1 (s : State) (i : Nat) (v : Half) : (s.setSlotVal i v).crc1 = s.crc1 := rfl
@[simp] theorem State.setSlotVal_crc2 (s : State) (i : Nat) (v : Half) : (s.setSlotVal i v).crc2 = s.crc2 := rfl
@[simp] theorem State.setSlotVal_frameBytes (s : State) (i : Nat) (v : Half) : (s.setSlotVal i v).frameBytes = s.frameBytes := rfl
@[simp] theorem State.setSlotVal_crcStart (s : State) (i : Nat) (v : Half) : (s.setSlotVal i v).crcStart = s.crcStart := rfl
@[simp] theorem State.setSlotVal_crcLen (s : State) (i : Nat) (v : Half) : (s.setSlotVal i v).crcLen = s.crcLen := rfl
@[simp] theorem State.setSlotVal_crcBits (s : State) (i : Nat) (v : Half) : (s.setSlotVal i v).crcBits = s.crcBits := rfl
@[simp] theorem State.setSlotVal_crcVal (s : State) (i : Nat) (v : Half) : (s.setSlotVal i v).crcVal = s.crcVal := rfl
@[simp] theorem State.setSlotVal_memDraw (s : State) (i : Nat) (v : Half) : (s.setSlotVal i v).memDraw = s.memDraw := rfl
@[simp] theorem State.setSlotVal_draws (s : State) (i : Nat) (v : Half) : (s.setSlotVal i v).draws = s.draws := rfl
@[simp] theorem State.setSlotVal_rst (s : State) (i : Nat) (v : Half) : (s.setSlotVal i v).rst = s.rst := rfl
@[simp] theorem State.setSlotVal_inputs (s : State) (i : Nat) (v : Half) : (s.setSlotVal i v).inputs = s.inputs := rfl
@[simp] theorem State.setSlotVal_resp (s : State) (i : Nat) (v : Half) : (s.setSlotVal i v).resp = s.resp := rfl

/-! ### clearTails -/

@[simp] theorem State.clearTails_ctrl (s : State)  : (s.clearTails).ctrl = s.ctrl := rfl
@[simp] theorem State.clearTails_busy (s : State)  : (s.clearTails).busy = s.busy := rfl
@[simp] theorem State.clearTails_done (s : State)  : (s.clearTails).done = s.done := rfl
@[simp] theorem State.clearTails_lastCmd (s : State)  : (s.clearTails).lastCmd = s.lastCmd := rfl
@[simp] theorem State.clearTails_bswenSampled (s : State)  : (s.clearTails).bswenSampled = s.bswenSampled := rfl
@[simp] theorem State.clearTails_errBits (s : State)  : (s.clearTails).errBits = s.errBits := rfl
@[simp] theorem State.clearTails_errCode (s : State)  : (s.clearTails).errCode = s.errCode := rfl
@[simp] theorem State.clearTails_errInfo (s : State)  : (s.clearTails).errInfo = s.errInfo := rfl
@[simp] theorem State.clearTails_qin (s : State)  : (s.clearTails).qin = s.qin := rfl
@[simp] theorem State.clearTails_qout (s : State)  : (s.clearTails).qout = s.qout := rfl
@[simp] theorem State.clearTails_cnt1 (s : State)  : (s.clearTails).cnt1 = s.cnt1 := rfl
@[simp] theorem State.clearTails_cnt2 (s : State)  : (s.clearTails).cnt2 = s.cnt2 := rfl
@[simp] theorem State.clearTails_cnt4 (s : State)  : (s.clearTails).cnt4 = s.cnt4 := rfl
@[simp] theorem State.clearTails_head1 (s : State)  : (s.clearTails).head1 = s.head1 := rfl
@[simp] theorem State.clearTails_head2 (s : State)  : (s.clearTails).head2 = s.head2 := rfl
@[simp] theorem State.clearTails_head4 (s : State)  : (s.clearTails).head4 = s.head4 := rfl
@[simp] theorem State.clearTails_tdstat (s : State)  : (s.clearTails).tdstat = s.tdstat := rfl
@[simp] theorem State.clearTails_tdres (s : State)  : (s.clearTails).tdres = s.tdres := rfl
@[simp] theorem State.clearTails_bitpos (s : State)  : (s.clearTails).bitpos = s.bitpos := rfl
@[simp] theorem State.clearTails_putdata (s : State)  : (s.clearTails).putdata = s.putdata := rfl
@[simp] theorem State.clearTails_fsw (s : State)  : (s.clearTails).fsw = s.fsw := rfl
@[simp] theorem State.clearTails_crc1 (s : State)  : (s.clearTails).crc1 = s.crc1 := rfl
@[simp] theorem State.clearTails_crc2 (s : State)  : (s.clearTails).crc2 = s.crc2 := rfl
@[simp] theorem State.clearTails_frameBytes (s : State)  : (s.clearTails).frameBytes = s.frameBytes := rfl
@[simp] theorem State.clearTails_crcStart (s : State)  : (s.clearTails).crcStart = s.crcStart := rfl
@[simp] theorem State.clearTails_crcLen (s : State)  : (s.clearTails).crcLen = s.crcLen := rfl
@[simp] theorem State.clearTails_crcBits (s : State)  : (s.clearTails).crcBits = s.crcBits := rfl
@[simp] theorem State.clearTails_crcVal (s : State)  : (s.clearTails).crcVal = s.crcVal := rfl
@[simp] theorem State.clearTails_memDraw (s : State)  : (s.clearTails).memDraw = s.memDraw := rfl
@[simp] theorem State.clearTails_draws (s : State)  : (s.clearTails).draws = s.draws := rfl
@[simp] theorem State.clearTails_rst (s : State)  : (s.clearTails).rst = s.rst := rfl
@[simp] theorem State.clearTails_inputs (s : State)  : (s.clearTails).inputs = s.inputs := rfl
@[simp] theorem State.clearTails_resp (s : State)  : (s.clearTails).resp = s.resp := rfl

/-! ### raise -/

@[simp] theorem State.raise_ctrl (s : State) (c : ErrCode) (info : Word) : (s.raise c info).ctrl = s.ctrl := rfl
@[simp] theorem State.raise_busy (s : State) (c : ErrCode) (info : Word) : (s.raise c info).busy = s.busy := rfl
@[simp] theorem State.raise_done (s : State) (c : ErrCode) (info : Word) : (s.raise c info).done = s.done := rfl
@[simp] theorem State.raise_lastCmd (s : State) (c : ErrCode) (info : Word) : (s.raise c info).lastCmd = s.lastCmd := rfl
@[simp] theorem State.raise_bswenSampled (s : State) (c : ErrCode) (info : Word) : (s.raise c info).bswenSampled = s.bswenSampled := rfl
@[simp] theorem State.raise_qin (s : State) (c : ErrCode) (info : Word) : (s.raise c info).qin = s.qin := rfl
@[simp] theorem State.raise_qout (s : State) (c : ErrCode) (info : Word) : (s.raise c info).qout = s.qout := rfl
@[simp] theorem State.raise_cnt1 (s : State) (c : ErrCode) (info : Word) : (s.raise c info).cnt1 = s.cnt1 := rfl
@[simp] theorem State.raise_cnt2 (s : State) (c : ErrCode) (info : Word) : (s.raise c info).cnt2 = s.cnt2 := rfl
@[simp] theorem State.raise_cnt4 (s : State) (c : ErrCode) (info : Word) : (s.raise c info).cnt4 = s.cnt4 := rfl
@[simp] theorem State.raise_head1 (s : State) (c : ErrCode) (info : Word) : (s.raise c info).head1 = s.head1 := rfl
@[simp] theorem State.raise_head2 (s : State) (c : ErrCode) (info : Word) : (s.raise c info).head2 = s.head2 := rfl
@[simp] theorem State.raise_head4 (s : State) (c : ErrCode) (info : Word) : (s.raise c info).head4 = s.head4 := rfl
@[simp] theorem State.raise_tdstat (s : State) (c : ErrCode) (info : Word) : (s.raise c info).tdstat = s.tdstat := rfl
@[simp] theorem State.raise_tdres (s : State) (c : ErrCode) (info : Word) : (s.raise c info).tdres = s.tdres := rfl
@[simp] theorem State.raise_bitpos (s : State) (c : ErrCode) (info : Word) : (s.raise c info).bitpos = s.bitpos := rfl
@[simp] theorem State.raise_putdata (s : State) (c : ErrCode) (info : Word) : (s.raise c info).putdata = s.putdata := rfl
@[simp] theorem State.raise_fsw (s : State) (c : ErrCode) (info : Word) : (s.raise c info).fsw = s.fsw := rfl
@[simp] theorem State.raise_crc1 (s : State) (c : ErrCode) (info : Word) : (s.raise c info).crc1 = s.crc1 := rfl
@[simp] theorem State.raise_crc2 (s : State) (c : ErrCode) (info : Word) : (s.raise c info).crc2 = s.crc2 := rfl
@[simp] theorem State.raise_frameBytes (s : State) (c : ErrCode) (info : Word) : (s.raise c info).frameBytes = s.frameBytes := rfl
@[simp] theorem State.raise_crcStart (s : State) (c : ErrCode) (info : Word) : (s.raise c info).crcStart = s.crcStart := rfl
@[simp] theorem State.raise_crcLen (s : State) (c : ErrCode) (info : Word) : (s.raise c info).crcLen = s.crcLen := rfl
@[simp] theorem State.raise_crcBits (s : State) (c : ErrCode) (info : Word) : (s.raise c info).crcBits = s.crcBits := rfl
@[simp] theorem State.raise_crcVal (s : State) (c : ErrCode) (info : Word) : (s.raise c info).crcVal = s.crcVal := rfl
@[simp] theorem State.raise_mem (s : State) (c : ErrCode) (info : Word) : (s.raise c info).mem = s.mem := rfl
@[simp] theorem State.raise_memDraw (s : State) (c : ErrCode) (info : Word) : (s.raise c info).memDraw = s.memDraw := rfl
@[simp] theorem State.raise_draws (s : State) (c : ErrCode) (info : Word) : (s.raise c info).draws = s.draws := rfl
@[simp] theorem State.raise_rst (s : State) (c : ErrCode) (info : Word) : (s.raise c info).rst = s.rst := rfl
@[simp] theorem State.raise_inputs (s : State) (c : ErrCode) (info : Word) : (s.raise c info).inputs = s.inputs := rfl
@[simp] theorem State.raise_resp (s : State) (c : ErrCode) (info : Word) : (s.raise c info).resp = s.resp := rfl

@[simp] theorem State.raise_errBits (s : State) (c : ErrCode) (info : Word) : (s.raise c info).errBits = s.errBits ||| errBit c := rfl
@[simp] theorem State.raise_errCode (s : State) (c : ErrCode) (info : Word) :
    (s.raise c info).errCode = if s.errBits = 0#12 then BitVec.ofNat 4 c.num else s.errCode := rfl
@[simp] theorem State.raise_errInfo (s : State) (c : ErrCode) (info : Word) :
    (s.raise c info).errInfo = if s.errBits = 0#12 then info else s.errInfo := rfl

/-! ### ackErrors -/

@[simp] theorem State.ackErrors_ctrl (s : State) (v : Word) : (s.ackErrors v).ctrl = s.ctrl := rfl
@[simp] theorem State.ackErrors_busy (s : State) (v : Word) : (s.ackErrors v).busy = s.busy := rfl
@[simp] theorem State.ackErrors_done (s : State) (v : Word) : (s.ackErrors v).done = s.done := rfl
@[simp] theorem State.ackErrors_lastCmd (s : State) (v : Word) : (s.ackErrors v).lastCmd = s.lastCmd := rfl
@[simp] theorem State.ackErrors_bswenSampled (s : State) (v : Word) : (s.ackErrors v).bswenSampled = s.bswenSampled := rfl
@[simp] theorem State.ackErrors_qin (s : State) (v : Word) : (s.ackErrors v).qin = s.qin := rfl
@[simp] theorem State.ackErrors_qout (s : State) (v : Word) : (s.ackErrors v).qout = s.qout := rfl
@[simp] theorem State.ackErrors_cnt1 (s : State) (v : Word) : (s.ackErrors v).cnt1 = s.cnt1 := rfl
@[simp] theorem State.ackErrors_cnt2 (s : State) (v : Word) : (s.ackErrors v).cnt2 = s.cnt2 := rfl
@[simp] theorem State.ackErrors_cnt4 (s : State) (v : Word) : (s.ackErrors v).cnt4 = s.cnt4 := rfl
@[simp] theorem State.ackErrors_head1 (s : State) (v : Word) : (s.ackErrors v).head1 = s.head1 := rfl
@[simp] theorem State.ackErrors_head2 (s : State) (v : Word) : (s.ackErrors v).head2 = s.head2 := rfl
@[simp] theorem State.ackErrors_head4 (s : State) (v : Word) : (s.ackErrors v).head4 = s.head4 := rfl
@[simp] theorem State.ackErrors_tdstat (s : State) (v : Word) : (s.ackErrors v).tdstat = s.tdstat := rfl
@[simp] theorem State.ackErrors_tdres (s : State) (v : Word) : (s.ackErrors v).tdres = s.tdres := rfl
@[simp] theorem State.ackErrors_bitpos (s : State) (v : Word) : (s.ackErrors v).bitpos = s.bitpos := rfl
@[simp] theorem State.ackErrors_putdata (s : State) (v : Word) : (s.ackErrors v).putdata = s.putdata := rfl
@[simp] theorem State.ackErrors_fsw (s : State) (v : Word) : (s.ackErrors v).fsw = s.fsw := rfl
@[simp] theorem State.ackErrors_crc1 (s : State) (v : Word) : (s.ackErrors v).crc1 = s.crc1 := rfl
@[simp] theorem State.ackErrors_crc2 (s : State) (v : Word) : (s.ackErrors v).crc2 = s.crc2 := rfl
@[simp] theorem State.ackErrors_frameBytes (s : State) (v : Word) : (s.ackErrors v).frameBytes = s.frameBytes := rfl
@[simp] theorem State.ackErrors_crcStart (s : State) (v : Word) : (s.ackErrors v).crcStart = s.crcStart := rfl
@[simp] theorem State.ackErrors_crcLen (s : State) (v : Word) : (s.ackErrors v).crcLen = s.crcLen := rfl
@[simp] theorem State.ackErrors_crcBits (s : State) (v : Word) : (s.ackErrors v).crcBits = s.crcBits := rfl
@[simp] theorem State.ackErrors_crcVal (s : State) (v : Word) : (s.ackErrors v).crcVal = s.crcVal := rfl
@[simp] theorem State.ackErrors_mem (s : State) (v : Word) : (s.ackErrors v).mem = s.mem := rfl
@[simp] theorem State.ackErrors_memDraw (s : State) (v : Word) : (s.ackErrors v).memDraw = s.memDraw := rfl
@[simp] theorem State.ackErrors_draws (s : State) (v : Word) : (s.ackErrors v).draws = s.draws := rfl
@[simp] theorem State.ackErrors_rst (s : State) (v : Word) : (s.ackErrors v).rst = s.rst := rfl
@[simp] theorem State.ackErrors_inputs (s : State) (v : Word) : (s.ackErrors v).inputs = s.inputs := rfl
@[simp] theorem State.ackErrors_resp (s : State) (v : Word) : (s.ackErrors v).resp = s.resp := rfl

/-! ### respond -/

@[simp] theorem State.respond_ctrl (s : State) (r : BusResp) : (s.respond r).ctrl = s.ctrl := rfl
@[simp] theorem State.respond_busy (s : State) (r : BusResp) : (s.respond r).busy = s.busy := rfl
@[simp] theorem State.respond_done (s : State) (r : BusResp) : (s.respond r).done = s.done := rfl
@[simp] theorem State.respond_lastCmd (s : State) (r : BusResp) : (s.respond r).lastCmd = s.lastCmd := rfl
@[simp] theorem State.respond_bswenSampled (s : State) (r : BusResp) : (s.respond r).bswenSampled = s.bswenSampled := rfl
@[simp] theorem State.respond_errBits (s : State) (r : BusResp) : (s.respond r).errBits = s.errBits := rfl
@[simp] theorem State.respond_errCode (s : State) (r : BusResp) : (s.respond r).errCode = s.errCode := rfl
@[simp] theorem State.respond_errInfo (s : State) (r : BusResp) : (s.respond r).errInfo = s.errInfo := rfl
@[simp] theorem State.respond_qin (s : State) (r : BusResp) : (s.respond r).qin = s.qin := rfl
@[simp] theorem State.respond_qout (s : State) (r : BusResp) : (s.respond r).qout = s.qout := rfl
@[simp] theorem State.respond_cnt1 (s : State) (r : BusResp) : (s.respond r).cnt1 = s.cnt1 := rfl
@[simp] theorem State.respond_cnt2 (s : State) (r : BusResp) : (s.respond r).cnt2 = s.cnt2 := rfl
@[simp] theorem State.respond_cnt4 (s : State) (r : BusResp) : (s.respond r).cnt4 = s.cnt4 := rfl
@[simp] theorem State.respond_head1 (s : State) (r : BusResp) : (s.respond r).head1 = s.head1 := rfl
@[simp] theorem State.respond_head2 (s : State) (r : BusResp) : (s.respond r).head2 = s.head2 := rfl
@[simp] theorem State.respond_head4 (s : State) (r : BusResp) : (s.respond r).head4 = s.head4 := rfl
@[simp] theorem State.respond_tdstat (s : State) (r : BusResp) : (s.respond r).tdstat = s.tdstat := rfl
@[simp] theorem State.respond_tdres (s : State) (r : BusResp) : (s.respond r).tdres = s.tdres := rfl
@[simp] theorem State.respond_bitpos (s : State) (r : BusResp) : (s.respond r).bitpos = s.bitpos := rfl
@[simp] theorem State.respond_putdata (s : State) (r : BusResp) : (s.respond r).putdata = s.putdata := rfl
@[simp] theorem State.respond_fsw (s : State) (r : BusResp) : (s.respond r).fsw = s.fsw := rfl
@[simp] theorem State.respond_crc1 (s : State) (r : BusResp) : (s.respond r).crc1 = s.crc1 := rfl
@[simp] theorem State.respond_crc2 (s : State) (r : BusResp) : (s.respond r).crc2 = s.crc2 := rfl
@[simp] theorem State.respond_frameBytes (s : State) (r : BusResp) : (s.respond r).frameBytes = s.frameBytes := rfl
@[simp] theorem State.respond_crcStart (s : State) (r : BusResp) : (s.respond r).crcStart = s.crcStart := rfl
@[simp] theorem State.respond_crcLen (s : State) (r : BusResp) : (s.respond r).crcLen = s.crcLen := rfl
@[simp] theorem State.respond_crcBits (s : State) (r : BusResp) : (s.respond r).crcBits = s.crcBits := rfl
@[simp] theorem State.respond_crcVal (s : State) (r : BusResp) : (s.respond r).crcVal = s.crcVal := rfl
@[simp] theorem State.respond_mem (s : State) (r : BusResp) : (s.respond r).mem = s.mem := rfl
@[simp] theorem State.respond_memDraw (s : State) (r : BusResp) : (s.respond r).memDraw = s.memDraw := rfl
@[simp] theorem State.respond_draws (s : State) (r : BusResp) : (s.respond r).draws = s.draws := rfl
@[simp] theorem State.respond_rst (s : State) (r : BusResp) : (s.respond r).rst = s.rst := rfl
@[simp] theorem State.respond_inputs (s : State) (r : BusResp) : (s.respond r).inputs = s.inputs := rfl

@[simp] theorem State.respond_resp (s : State) (r : BusResp) : (s.respond r).resp = r := rfl

/-! ### drawAt -/

@[simp] theorem State.drawAt_ctrl (s : State) (l : List Nat) : (s.drawAt l).ctrl = s.ctrl := rfl
@[simp] theorem State.drawAt_busy (s : State) (l : List Nat) : (s.drawAt l).busy = s.busy := rfl
@[simp] theorem State.drawAt_done (s : State) (l : List Nat) : (s.drawAt l).done = s.done := rfl
@[simp] theorem State.drawAt_lastCmd (s : State) (l : List Nat) : (s.drawAt l).lastCmd = s.lastCmd := rfl
@[simp] theorem State.drawAt_bswenSampled (s : State) (l : List Nat) : (s.drawAt l).bswenSampled = s.bswenSampled := rfl
@[simp] theorem State.drawAt_errBits (s : State) (l : List Nat) : (s.drawAt l).errBits = s.errBits := rfl
@[simp] theorem State.drawAt_errCode (s : State) (l : List Nat) : (s.drawAt l).errCode = s.errCode := rfl
@[simp] theorem State.drawAt_errInfo (s : State) (l : List Nat) : (s.drawAt l).errInfo = s.errInfo := rfl
@[simp] theorem State.drawAt_qin (s : State) (l : List Nat) : (s.drawAt l).qin = s.qin := rfl
@[simp] theorem State.drawAt_qout (s : State) (l : List Nat) : (s.drawAt l).qout = s.qout := rfl
@[simp] theorem State.drawAt_cnt1 (s : State) (l : List Nat) : (s.drawAt l).cnt1 = s.cnt1 := rfl
@[simp] theorem State.drawAt_cnt2 (s : State) (l : List Nat) : (s.drawAt l).cnt2 = s.cnt2 := rfl
@[simp] theorem State.drawAt_cnt4 (s : State) (l : List Nat) : (s.drawAt l).cnt4 = s.cnt4 := rfl
@[simp] theorem State.drawAt_head1 (s : State) (l : List Nat) : (s.drawAt l).head1 = s.head1 := rfl
@[simp] theorem State.drawAt_head2 (s : State) (l : List Nat) : (s.drawAt l).head2 = s.head2 := rfl
@[simp] theorem State.drawAt_head4 (s : State) (l : List Nat) : (s.drawAt l).head4 = s.head4 := rfl
@[simp] theorem State.drawAt_tdstat (s : State) (l : List Nat) : (s.drawAt l).tdstat = s.tdstat := rfl
@[simp] theorem State.drawAt_tdres (s : State) (l : List Nat) : (s.drawAt l).tdres = s.tdres := rfl
@[simp] theorem State.drawAt_bitpos (s : State) (l : List Nat) : (s.drawAt l).bitpos = s.bitpos := rfl
@[simp] theorem State.drawAt_putdata (s : State) (l : List Nat) : (s.drawAt l).putdata = s.putdata := rfl
@[simp] theorem State.drawAt_fsw (s : State) (l : List Nat) : (s.drawAt l).fsw = s.fsw := rfl
@[simp] theorem State.drawAt_crc1 (s : State) (l : List Nat) : (s.drawAt l).crc1 = s.crc1 := rfl
@[simp] theorem State.drawAt_crc2 (s : State) (l : List Nat) : (s.drawAt l).crc2 = s.crc2 := rfl
@[simp] theorem State.drawAt_frameBytes (s : State) (l : List Nat) : (s.drawAt l).frameBytes = s.frameBytes := rfl
@[simp] theorem State.drawAt_crcStart (s : State) (l : List Nat) : (s.drawAt l).crcStart = s.crcStart := rfl
@[simp] theorem State.drawAt_crcLen (s : State) (l : List Nat) : (s.drawAt l).crcLen = s.crcLen := rfl
@[simp] theorem State.drawAt_crcBits (s : State) (l : List Nat) : (s.drawAt l).crcBits = s.crcBits := rfl
@[simp] theorem State.drawAt_crcVal (s : State) (l : List Nat) : (s.drawAt l).crcVal = s.crcVal := rfl
@[simp] theorem State.drawAt_memDraw (s : State) (l : List Nat) : (s.drawAt l).memDraw = s.memDraw := rfl
@[simp] theorem State.drawAt_rst (s : State) (l : List Nat) : (s.drawAt l).rst = s.rst := rfl
@[simp] theorem State.drawAt_inputs (s : State) (l : List Nat) : (s.drawAt l).inputs = s.inputs := rfl
@[simp] theorem State.drawAt_resp (s : State) (l : List Nat) : (s.drawAt l).resp = s.resp := rfl

@[simp] theorem State.drawAt_draws (s : State) (l : List Nat) : (s.drawAt l).draws = s.draws + 1 := rfl

/-! ### resetRegs -/

@[simp] theorem State.resetRegs_ctrl (s : State) : s.resetRegs.ctrl = State.reset.ctrl := rfl
@[simp] theorem State.resetRegs_busy (s : State) : s.resetRegs.busy = State.reset.busy := rfl
@[simp] theorem State.resetRegs_done (s : State) : s.resetRegs.done = State.reset.done := rfl
@[simp] theorem State.resetRegs_lastCmd (s : State) : s.resetRegs.lastCmd = State.reset.lastCmd := rfl
@[simp] theorem State.resetRegs_bswenSampled (s : State) : s.resetRegs.bswenSampled = State.reset.bswenSampled := rfl
@[simp] theorem State.resetRegs_errBits (s : State) : s.resetRegs.errBits = State.reset.errBits := rfl
@[simp] theorem State.resetRegs_errCode (s : State) : s.resetRegs.errCode = State.reset.errCode := rfl
@[simp] theorem State.resetRegs_errInfo (s : State) : s.resetRegs.errInfo = State.reset.errInfo := rfl
@[simp] theorem State.resetRegs_qin (s : State) : s.resetRegs.qin = State.reset.qin := rfl
@[simp] theorem State.resetRegs_qout (s : State) : s.resetRegs.qout = State.reset.qout := rfl
@[simp] theorem State.resetRegs_cnt1 (s : State) : s.resetRegs.cnt1 = State.reset.cnt1 := rfl
@[simp] theorem State.resetRegs_cnt2 (s : State) : s.resetRegs.cnt2 = State.reset.cnt2 := rfl
@[simp] theorem State.resetRegs_cnt4 (s : State) : s.resetRegs.cnt4 = State.reset.cnt4 := rfl
@[simp] theorem State.resetRegs_head1 (s : State) : s.resetRegs.head1 = State.reset.head1 := rfl
@[simp] theorem State.resetRegs_head2 (s : State) : s.resetRegs.head2 = State.reset.head2 := rfl
@[simp] theorem State.resetRegs_head4 (s : State) : s.resetRegs.head4 = State.reset.head4 := rfl
@[simp] theorem State.resetRegs_tdstat (s : State) : s.resetRegs.tdstat = State.reset.tdstat := rfl
@[simp] theorem State.resetRegs_tdres (s : State) : s.resetRegs.tdres = State.reset.tdres := rfl
@[simp] theorem State.resetRegs_bitpos (s : State) : s.resetRegs.bitpos = State.reset.bitpos := rfl
@[simp] theorem State.resetRegs_putdata (s : State) : s.resetRegs.putdata = State.reset.putdata := rfl
@[simp] theorem State.resetRegs_fsw (s : State) : s.resetRegs.fsw = State.reset.fsw := rfl
@[simp] theorem State.resetRegs_crc1 (s : State) : s.resetRegs.crc1 = State.reset.crc1 := rfl
@[simp] theorem State.resetRegs_crc2 (s : State) : s.resetRegs.crc2 = State.reset.crc2 := rfl
@[simp] theorem State.resetRegs_frameBytes (s : State) : s.resetRegs.frameBytes = State.reset.frameBytes := rfl
@[simp] theorem State.resetRegs_crcStart (s : State) : s.resetRegs.crcStart = State.reset.crcStart := rfl
@[simp] theorem State.resetRegs_crcLen (s : State) : s.resetRegs.crcLen = State.reset.crcLen := rfl
@[simp] theorem State.resetRegs_crcBits (s : State) : s.resetRegs.crcBits = State.reset.crcBits := rfl
@[simp] theorem State.resetRegs_crcVal (s : State) : s.resetRegs.crcVal = State.reset.crcVal := rfl
@[simp] theorem State.resetRegs_mem (s : State) : s.resetRegs.mem = s.mem := rfl
@[simp] theorem State.resetRegs_memDraw (s : State) : s.resetRegs.memDraw = s.memDraw := rfl
@[simp] theorem State.resetRegs_draws (s : State) : s.resetRegs.draws = s.draws := rfl
@[simp] theorem State.resetRegs_rst (s : State) : s.resetRegs.rst = s.rst := rfl
@[simp] theorem State.resetRegs_inputs (s : State) : s.resetRegs.inputs = s.inputs := rfl
@[simp] theorem State.resetRegs_resp (s : State) : s.resetRegs.resp = s.resp := rfl

/-! ### hardReset -/

@[simp] theorem State.hardReset_ctrl (s : State) : s.hardReset.ctrl = State.reset.ctrl := rfl
@[simp] theorem State.hardReset_busy (s : State) : s.hardReset.busy = State.reset.busy := rfl
@[simp] theorem State.hardReset_done (s : State) : s.hardReset.done = State.reset.done := rfl
@[simp] theorem State.hardReset_lastCmd (s : State) : s.hardReset.lastCmd = State.reset.lastCmd := rfl
@[simp] theorem State.hardReset_bswenSampled (s : State) : s.hardReset.bswenSampled = State.reset.bswenSampled := rfl
@[simp] theorem State.hardReset_errBits (s : State) : s.hardReset.errBits = State.reset.errBits := rfl
@[simp] theorem State.hardReset_errCode (s : State) : s.hardReset.errCode = State.reset.errCode := rfl
@[simp] theorem State.hardReset_errInfo (s : State) : s.hardReset.errInfo = State.reset.errInfo := rfl
@[simp] theorem State.hardReset_qin (s : State) : s.hardReset.qin = State.reset.qin := rfl
@[simp] theorem State.hardReset_qout (s : State) : s.hardReset.qout = State.reset.qout := rfl
@[simp] theorem State.hardReset_cnt1 (s : State) : s.hardReset.cnt1 = State.reset.cnt1 := rfl
@[simp] theorem State.hardReset_cnt2 (s : State) : s.hardReset.cnt2 = State.reset.cnt2 := rfl
@[simp] theorem State.hardReset_cnt4 (s : State) : s.hardReset.cnt4 = State.reset.cnt4 := rfl
@[simp] theorem State.hardReset_head1 (s : State) : s.hardReset.head1 = State.reset.head1 := rfl
@[simp] theorem State.hardReset_head2 (s : State) : s.hardReset.head2 = State.reset.head2 := rfl
@[simp] theorem State.hardReset_head4 (s : State) : s.hardReset.head4 = State.reset.head4 := rfl
@[simp] theorem State.hardReset_tdstat (s : State) : s.hardReset.tdstat = State.reset.tdstat := rfl
@[simp] theorem State.hardReset_tdres (s : State) : s.hardReset.tdres = State.reset.tdres := rfl
@[simp] theorem State.hardReset_bitpos (s : State) : s.hardReset.bitpos = State.reset.bitpos := rfl
@[simp] theorem State.hardReset_putdata (s : State) : s.hardReset.putdata = State.reset.putdata := rfl
@[simp] theorem State.hardReset_fsw (s : State) : s.hardReset.fsw = State.reset.fsw := rfl
@[simp] theorem State.hardReset_crc1 (s : State) : s.hardReset.crc1 = State.reset.crc1 := rfl
@[simp] theorem State.hardReset_crc2 (s : State) : s.hardReset.crc2 = State.reset.crc2 := rfl
@[simp] theorem State.hardReset_frameBytes (s : State) : s.hardReset.frameBytes = State.reset.frameBytes := rfl
@[simp] theorem State.hardReset_crcStart (s : State) : s.hardReset.crcStart = State.reset.crcStart := rfl
@[simp] theorem State.hardReset_crcLen (s : State) : s.hardReset.crcLen = State.reset.crcLen := rfl
@[simp] theorem State.hardReset_crcBits (s : State) : s.hardReset.crcBits = State.reset.crcBits := rfl
@[simp] theorem State.hardReset_crcVal (s : State) : s.hardReset.crcVal = State.reset.crcVal := rfl
@[simp] theorem State.hardReset_mem (s : State) : s.hardReset.mem = [] := rfl
@[simp] theorem State.hardReset_memDraw (s : State) : s.hardReset.memDraw = s.draws := rfl
@[simp] theorem State.hardReset_draws (s : State) : s.hardReset.draws = s.draws + 1 := rfl
@[simp] theorem State.hardReset_rst (s : State) : s.hardReset.rst = State.reset.rst := rfl
@[simp] theorem State.hardReset_inputs (s : State) : s.hardReset.inputs = s.inputs := rfl
@[simp] theorem State.hardReset_resp (s : State) : s.hardReset.resp = s.resp := rfl

/-! ### complete -/

@[simp] theorem CmdResult.complete_ctrl (r : CmdResult) : r.complete.ctrl = r.settle.ctrl := rfl
@[simp] theorem CmdResult.complete_busy (r : CmdResult) : r.complete.busy = false := rfl
@[simp] theorem CmdResult.complete_done (r : CmdResult) : r.complete.done = true := rfl
@[simp] theorem CmdResult.complete_lastCmd (r : CmdResult) : r.complete.lastCmd = r.settle.lastCmd := rfl
@[simp] theorem CmdResult.complete_bswenSampled (r : CmdResult) : r.complete.bswenSampled = r.settle.bswenSampled := rfl
@[simp] theorem CmdResult.complete_errBits (r : CmdResult) : r.complete.errBits = r.settle.errBits := rfl
@[simp] theorem CmdResult.complete_errCode (r : CmdResult) : r.complete.errCode = r.settle.errCode := rfl
@[simp] theorem CmdResult.complete_errInfo (r : CmdResult) : r.complete.errInfo = r.settle.errInfo := rfl
@[simp] theorem CmdResult.complete_qin (r : CmdResult) : r.complete.qin = r.settle.qin := rfl
@[simp] theorem CmdResult.complete_qout (r : CmdResult) : r.complete.qout = r.settle.qout := rfl
@[simp] theorem CmdResult.complete_cnt1 (r : CmdResult) : r.complete.cnt1 = r.settle.cnt1 := rfl
@[simp] theorem CmdResult.complete_cnt2 (r : CmdResult) : r.complete.cnt2 = r.settle.cnt2 := rfl
@[simp] theorem CmdResult.complete_cnt4 (r : CmdResult) : r.complete.cnt4 = r.settle.cnt4 := rfl
@[simp] theorem CmdResult.complete_head1 (r : CmdResult) : r.complete.head1 = r.settle.head1 := rfl
@[simp] theorem CmdResult.complete_head2 (r : CmdResult) : r.complete.head2 = r.settle.head2 := rfl
@[simp] theorem CmdResult.complete_head4 (r : CmdResult) : r.complete.head4 = r.settle.head4 := rfl
@[simp] theorem CmdResult.complete_tdstat (r : CmdResult) : r.complete.tdstat = r.settle.tdstat := rfl
@[simp] theorem CmdResult.complete_tdres (r : CmdResult) : r.complete.tdres = r.settle.tdres := rfl
@[simp] theorem CmdResult.complete_bitpos (r : CmdResult) : r.complete.bitpos = r.settle.bitpos := rfl
@[simp] theorem CmdResult.complete_putdata (r : CmdResult) : r.complete.putdata = r.settle.putdata := rfl
@[simp] theorem CmdResult.complete_fsw (r : CmdResult) : r.complete.fsw = r.settle.fsw := rfl
@[simp] theorem CmdResult.complete_crc1 (r : CmdResult) : r.complete.crc1 = r.settle.crc1 := rfl
@[simp] theorem CmdResult.complete_crc2 (r : CmdResult) : r.complete.crc2 = r.settle.crc2 := rfl
@[simp] theorem CmdResult.complete_frameBytes (r : CmdResult) : r.complete.frameBytes = r.settle.frameBytes := rfl
@[simp] theorem CmdResult.complete_crcStart (r : CmdResult) : r.complete.crcStart = r.settle.crcStart := rfl
@[simp] theorem CmdResult.complete_crcLen (r : CmdResult) : r.complete.crcLen = r.settle.crcLen := rfl
@[simp] theorem CmdResult.complete_crcBits (r : CmdResult) : r.complete.crcBits = r.settle.crcBits := rfl
@[simp] theorem CmdResult.complete_crcVal (r : CmdResult) : r.complete.crcVal = r.settle.crcVal := rfl
@[simp] theorem CmdResult.complete_mem (r : CmdResult) : r.complete.mem = r.settle.mem := rfl
@[simp] theorem CmdResult.complete_memDraw (r : CmdResult) : r.complete.memDraw = r.settle.memDraw := rfl
@[simp] theorem CmdResult.complete_draws (r : CmdResult) : r.complete.draws = r.settle.draws := rfl
@[simp] theorem CmdResult.complete_rst (r : CmdResult) : r.complete.rst = r.settle.rst := rfl
@[simp] theorem CmdResult.complete_inputs (r : CmdResult) : r.complete.inputs = r.settle.inputs := rfl
@[simp] theorem CmdResult.complete_resp (r : CmdResult) : r.complete.resp = r.settle.resp := rfl

/-! ### command results -/

@[simp] theorem CmdResult.ok_st (s : State) : (CmdResult.ok s).st = s := rfl
@[simp] theorem CmdResult.ok_err (s : State) : (CmdResult.ok s).err = none := rfl
@[simp] theorem CmdResult.ok_settle (s : State) : (CmdResult.ok s).settle = s := rfl
@[simp] theorem CmdResult.fail_st (s : State) (c : ErrCode) (info : Word) : (CmdResult.fail s c info).st = s := rfl
@[simp] theorem CmdResult.fail_settle (s : State) (c : ErrCode) (info : Word) :
    (CmdResult.fail s c info).settle = s.raise c info := rfl

/-! ### putBit -/

@[simp] theorem putBit_ctrl (s : State) (b : Bool) : (putBit s b).ctrl = s.ctrl := rfl
@[simp] theorem putBit_busy (s : State) (b : Bool) : (putBit s b).busy = s.busy := rfl
@[simp] theorem putBit_done (s : State) (b : Bool) : (putBit s b).done = s.done := rfl
@[simp] theorem putBit_lastCmd (s : State) (b : Bool) : (putBit s b).lastCmd = s.lastCmd := rfl
@[simp] theorem putBit_bswenSampled (s : State) (b : Bool) : (putBit s b).bswenSampled = s.bswenSampled := rfl
@[simp] theorem putBit_errBits (s : State) (b : Bool) : (putBit s b).errBits = s.errBits := rfl
@[simp] theorem putBit_errCode (s : State) (b : Bool) : (putBit s b).errCode = s.errCode := rfl
@[simp] theorem putBit_errInfo (s : State) (b : Bool) : (putBit s b).errInfo = s.errInfo := rfl
@[simp] theorem putBit_qin (s : State) (b : Bool) : (putBit s b).qin = s.qin := rfl
@[simp] theorem putBit_qout (s : State) (b : Bool) : (putBit s b).qout = s.qout := rfl
@[simp] theorem putBit_cnt1 (s : State) (b : Bool) : (putBit s b).cnt1 = s.cnt1 := rfl
@[simp] theorem putBit_cnt2 (s : State) (b : Bool) : (putBit s b).cnt2 = s.cnt2 := rfl
@[simp] theorem putBit_cnt4 (s : State) (b : Bool) : (putBit s b).cnt4 = s.cnt4 := rfl
@[simp] theorem putBit_head1 (s : State) (b : Bool) : (putBit s b).head1 = s.head1 := rfl
@[simp] theorem putBit_head2 (s : State) (b : Bool) : (putBit s b).head2 = s.head2 := rfl
@[simp] theorem putBit_head4 (s : State) (b : Bool) : (putBit s b).head4 = s.head4 := rfl
@[simp] theorem putBit_tdstat (s : State) (b : Bool) : (putBit s b).tdstat = s.tdstat := rfl
@[simp] theorem putBit_tdres (s : State) (b : Bool) : (putBit s b).tdres = s.tdres := rfl
@[simp] theorem putBit_putdata (s : State) (b : Bool) : (putBit s b).putdata = s.putdata := rfl
@[simp] theorem putBit_fsw (s : State) (b : Bool) : (putBit s b).fsw = s.fsw := rfl
@[simp] theorem putBit_crc1 (s : State) (b : Bool) : (putBit s b).crc1 = s.crc1 := rfl
@[simp] theorem putBit_crc2 (s : State) (b : Bool) : (putBit s b).crc2 = s.crc2 := rfl
@[simp] theorem putBit_frameBytes (s : State) (b : Bool) : (putBit s b).frameBytes = s.frameBytes := rfl
@[simp] theorem putBit_crcStart (s : State) (b : Bool) : (putBit s b).crcStart = s.crcStart := rfl
@[simp] theorem putBit_crcLen (s : State) (b : Bool) : (putBit s b).crcLen = s.crcLen := rfl
@[simp] theorem putBit_crcBits (s : State) (b : Bool) : (putBit s b).crcBits = s.crcBits := rfl
@[simp] theorem putBit_crcVal (s : State) (b : Bool) : (putBit s b).crcVal = s.crcVal := rfl
@[simp] theorem putBit_memDraw (s : State) (b : Bool) : (putBit s b).memDraw = s.memDraw := rfl
@[simp] theorem putBit_draws (s : State) (b : Bool) : (putBit s b).draws = s.draws := rfl
@[simp] theorem putBit_rst (s : State) (b : Bool) : (putBit s b).rst = s.rst := rfl
@[simp] theorem putBit_inputs (s : State) (b : Bool) : (putBit s b).inputs = s.inputs := rfl
@[simp] theorem putBit_resp (s : State) (b : Bool) : (putBit s b).resp = s.resp := rfl
@[simp] theorem putBit_bitpos (s : State) (b : Bool) : (putBit s b).bitpos = s.bitpos + 1#32 := rfl

end Sys2Proof.Machine
end

