-- ==== Sys2Proof/Laws/Memory.lean ====
section
/-!
SUPPORT. The memories: reading after writing, and the canonical form that every operation keeps (log 1).
-/
namespace Sys2Proof.Machine

open Sys2Proof

/-! ### Cells -/

theorem cellAt_insertCell_self (a : Nat) (v : Byte) (m : List Host.Cell) : cellAt (insertCell a v m) a = some v := by
  induction m with
  | nil => simp [insertCell, cellAt]
  | cons c r ih =>
    obtain ⟨b, w⟩ := c
    simp only [insertCell]
    split
    · simp [cellAt]
    · split
      · simp [cellAt]
      · simp [cellAt, ih, Ne.symm ‹a ≠ b›]

theorem cellAt_insertCell_of_ne {a b : Nat} (h : b ≠ a) (v : Byte) (m : List Host.Cell) :
    cellAt (insertCell a v m) b = cellAt m b := by
  induction m with
  | nil => simp [insertCell, cellAt, Ne.symm h]
  | cons c r ih =>
    obtain ⟨k, w⟩ := c
    simp only [insertCell]
    split
    · simp [cellAt, Ne.symm h]
    · split
      · subst_vars; simp [cellAt, Ne.symm h]
      · simp [cellAt, ih]

/-- A filter by offset keeps what is listed for the offsets it keeps, and lists nothing for the others. -/
theorem cellAt_filter (p : Nat → Bool) (m : List Host.Cell) (a : Nat) :
    cellAt (m.filter fun c => p c.1) a = if p a then cellAt m a else none := by
  induction m with
  | nil => simp [cellAt]
  | cons c r ih =>
    obtain ⟨k, w⟩ := c
    by_cases hk : k = a
    · subst hk
      cases hp : p k <;> simp [hp, cellAt, ih]
    · cases hp : p k <;> simp [hp, cellAt, ih, hk]

theorem cellAt_eraseCell_self (a : Nat) (m : List Host.Cell) : cellAt (eraseCell a m) a = none := by
  rw [eraseCell, cellAt_filter (fun k => decide (k ≠ a))]
  simp

theorem cellAt_eraseCell_of_ne {a b : Nat} (h : b ≠ a) (m : List Host.Cell) : cellAt (eraseCell a m) b = cellAt m b := by
  rw [eraseCell, cellAt_filter (fun k => decide (k ≠ a))]
  simp [h]

theorem cellAt_writeCell_of_ne {a b : Nat} (h : b ≠ a) (v : Byte) (m : List Host.Cell) :
    cellAt (writeCell a v m) b = cellAt m b := by
  unfold writeCell
  split
  · exact cellAt_eraseCell_of_ne h m
  · exact cellAt_insertCell_of_ne h _ m

/-! ### Bytes of a state -/

/-- What a write of a byte leaves there: the bits the entry stores (R76). -/
@[simp] theorem readByte_writeByte_self (s : State) (a : Nat) (v : Byte) :
    (s.writeByte a v).readByte a = v &&& storeMask a := by
  simp only [State.readByte, State.writeByte, writeCell]
  by_cases h : resetByte a = some (v &&& storeMask a)
  · simp [h, cellAt_eraseCell_self, unlistedByte]
  · simp [h, cellAt_insertCell_self]

/-- A write of a byte leaves every other byte. -/
theorem readByte_writeByte_of_ne {a b : Nat} (h : b ≠ a) (s : State) (v : Byte) :
    (s.writeByte a v).readByte b = s.readByte b := by
  simp [State.readByte, State.writeByte, cellAt_writeCell_of_ne h]

/-- Reading a byte depends on the cells and the draw alone. -/
theorem readByte_congr {s t : State} (hm : t.mem = s.mem) (hd : t.memDraw = s.memDraw) (a : Nat) :
    t.readByte a = s.readByte a := by
  simp [State.readByte, hm, hd]

/-- A word written is four bytes written. -/
theorem writeWord_eq (s : State) (a : Nat) (v : Word) :
    s.writeWord a v =
      (((s.writeByte a (v.extractLsb' 0 8)).writeByte (a + 1) (v.extractLsb' 8 8)).writeByte (a + 2)
        (v.extractLsb' 16 8)).writeByte (a + 3) (v.extractLsb' 24 8) := by
  simp [State.writeWord, State.writeByte, writeCells]

/-- A word of FBUF written is four bytes written, most significant first (R77). -/
theorem writeWordBE_eq (s : State) (a : Nat) (v : Word) :
    s.writeWordBE a v =
      (((s.writeByte a (v.extractLsb' 24 8)).writeByte (a + 1) (v.extractLsb' 16 8)).writeByte (a + 2)
        (v.extractLsb' 8 8)).writeByte (a + 3) (v.extractLsb' 0 8) := by
  simp [State.writeWordBE, State.writeByte, writeCellsBE]

/-- A word write leaves every byte outside its four. -/
theorem readByte_writeWord_of_outside {a b : Nat} (h : b < a ∨ a + 4 ≤ b) (s : State) (v : Word) :
    (s.writeWord a v).readByte b = s.readByte b := by
  rw [writeWord_eq]
  rw [readByte_writeByte_of_ne (by omega), readByte_writeByte_of_ne (by omega), readByte_writeByte_of_ne (by omega),
    readByte_writeByte_of_ne (by omega)]

theorem readByte_writeWordBE_of_outside {a b : Nat} (h : b < a ∨ a + 4 ≤ b) (s : State) (v : Word) :
    (s.writeWordBE a v).readByte b = s.readByte b := by
  rw [writeWordBE_eq]
  rw [readByte_writeByte_of_ne (by omega), readByte_writeByte_of_ne (by omega), readByte_writeByte_of_ne (by omega),
    readByte_writeByte_of_ne (by omega)]

/-- The four bytes a word write leaves: the stored bits of each (R76). -/
theorem readByte_writeWord (s : State) (a : Nat) (v : Word) :
    (s.writeWord a v).readByte a = v.extractLsb' 0 8 &&& storeMask a ∧
    (s.writeWord a v).readByte (a + 1) = v.extractLsb' 8 8 &&& storeMask (a + 1) ∧
    (s.writeWord a v).readByte (a + 2) = v.extractLsb' 16 8 &&& storeMask (a + 2) ∧
    (s.writeWord a v).readByte (a + 3) = v.extractLsb' 24 8 &&& storeMask (a + 3) := by
  rw [writeWord_eq]
  refine ⟨?_, ?_, ?_, ?_⟩
  · rw [readByte_writeByte_of_ne (by omega), readByte_writeByte_of_ne (by omega), readByte_writeByte_of_ne (by omega),
      readByte_writeByte_self]
  · rw [readByte_writeByte_of_ne (by omega), readByte_writeByte_of_ne (by omega), readByte_writeByte_self]
  · rw [readByte_writeByte_of_ne (by omega), readByte_writeByte_self]
  · rw [readByte_writeByte_self]

/-- The stored bits of an entry: the mask of its four bytes (R76). -/
def wordMask (a : Nat) : Word := storeMask (a + 3) ++ storeMask (a + 2) ++ storeMask (a + 1) ++ storeMask a

/-- The bytes of a word, put together again. -/
theorem word_of_bytes (v : Word) : v.extractLsb' 24 8 ++ v.extractLsb' 16 8 ++ v.extractLsb' 8 8 ++ v.extractLsb' 0 8 = v := by
  ext i hi
  simp only [BitVec.getElem_append, BitVec.getElem_extractLsb']
  split
  · simp [BitVec.getLsbD_eq_getElem hi]
  · split
    · rw [show 8 + (i - 8) = i by omega]; exact BitVec.getLsbD_eq_getElem hi
    · split
      · rw [show 16 + (i - 8 - 8) = i by omega]; exact BitVec.getLsbD_eq_getElem hi
      · rw [show 24 + (i - 8 - 8 - 8) = i by omega]; exact BitVec.getLsbD_eq_getElem hi

/-- An entry written reads back as its stored bits, the others 0 (R74, R76). -/
theorem readWord_writeWord_self (s : State) (a : Nat) (v : Word) : (s.writeWord a v).readWord a = v &&& wordMask a := by
  obtain ⟨h0, h1, h2, h3⟩ := readByte_writeWord s a v
  rw [State.readWord, h0, h1, h2, h3, wordMask]
  conv_rhs => rw [← word_of_bytes v]
  rw [BitVec.and_append, BitVec.and_append, BitVec.and_append]

/-! ### The canonical form -/

theorem Memory.wf_iff (m : List Host.Cell) :
    Memory.wf m = true ↔ m.Pairwise (fun c d => c.1 < d.1) ∧ ∀ c ∈ m, cellOk c = true := by
  have sorted_iff : ∀ l : List Host.Cell, cellsSorted l = true ↔ l.Pairwise (fun c d => c.1 < d.1) := by
    intro l
    induction l with
    | nil => simp [cellsSorted]
    | cons c r ih =>
      cases r with
      | nil => simp [cellsSorted]
      | cons d r' =>
        obtain ⟨a, v⟩ := c
        obtain ⟨b, w⟩ := d
        simp only [cellsSorted, Bool.and_eq_true, decide_eq_true_eq, ih, List.pairwise_cons, List.mem_cons]
        constructor
        · rintro ⟨hab, hb, hr⟩
          refine ⟨?_, hb, hr⟩
          rintro e (rfl | he)
          · exact hab
          · exact Nat.lt_trans hab (hb e he)
        · rintro ⟨ha, hb, hr⟩
          exact ⟨ha (b, w) (Or.inl rfl), hb, hr⟩
  simp [Memory.wf, sorted_iff, List.all_eq_true]

theorem mem_insertCell {a : Nat} {v : Byte} {m : List Host.Cell} {c : Host.Cell} (h : c ∈ insertCell a v m) :
    c = (a, v) ∨ c ∈ m := by
  induction m with
  | nil => simpa [insertCell] using h
  | cons d r ih =>
    obtain ⟨b, w⟩ := d
    simp only [insertCell] at h
    split at h
    · simpa using h
    · split at h
      · rcases List.mem_cons.1 h with h | h
        · exact Or.inl h
        · exact Or.inr (List.mem_cons_of_mem _ h)
      · rcases List.mem_cons.1 h with h | h
        · exact Or.inr (by simp [h])
        · rcases ih h with h | h
          · exact Or.inl h
          · exact Or.inr (List.mem_cons_of_mem _ h)

theorem insertCell_pairwise {a : Nat} {v : Byte} {m : List Host.Cell} (h : m.Pairwise (fun c d => c.1 < d.1)) :
    (insertCell a v m).Pairwise (fun c d => c.1 < d.1) := by
  induction m with
  | nil => simp [insertCell]
  | cons d r ih =>
    obtain ⟨b, w⟩ := d
    obtain ⟨hb, hr⟩ := List.pairwise_cons.1 h
    simp only [insertCell]
    split
    · rename_i hab
      refine List.pairwise_cons.2 ⟨?_, h⟩
      intro e he
      rcases List.mem_cons.1 he with rfl | he
      · exact hab
      · exact Nat.lt_trans hab (hb e he)
    · split
      · subst_vars
        exact List.pairwise_cons.2 ⟨hb, hr⟩
      · refine List.pairwise_cons.2 ⟨?_, ih hr⟩
        intro e he
        rcases mem_insertCell he with rfl | he
        · simp only at *; omega
        · exact hb e he

theorem and_mask_idem (v k : Byte) : v &&& k &&& k = v &&& k := by
  rw [BitVec.and_assoc, BitVec.and_self]

/-- Storing a byte keeps the canonical form. -/
theorem writeCell_wf {m : List Host.Cell} (a : Nat) (v : Byte) (h : Memory.wf m = true) : Memory.wf (writeCell a v m) = true := by
  rw [Memory.wf_iff] at h ⊢
  unfold writeCell
  split
  · exact ⟨h.1.filter _, fun c hc => h.2 c (List.mem_of_mem_filter hc)⟩
  · rename_i hne
    refine ⟨insertCell_pairwise h.1, fun c hc => ?_⟩
    rcases mem_insertCell hc with rfl | hc
    · simp [cellOk, and_mask_idem, hne]
    · exact h.2 c hc

/-- Storing an entry keeps the canonical form. -/
theorem writeCells_wf {m : List Host.Cell} (a : Nat) (v : Word) (h : Memory.wf m = true) : Memory.wf (writeCells a v m) = true :=
  writeCell_wf _ _ (writeCell_wf _ _ (writeCell_wf _ _ (writeCell_wf _ _ h)))

/-- Storing a word of FBUF keeps the canonical form. -/
theorem writeCellsBE_wf {m : List Host.Cell} (a : Nat) (v : Word) (h : Memory.wf m = true) :
    Memory.wf (writeCellsBE a v m) = true :=
  writeCell_wf _ _ (writeCell_wf _ _ (writeCell_wf _ _ (writeCell_wf _ _ h)))

/-- Storing entries in a row keeps the canonical form. -/
theorem writeCellsList_wf (vs : List Word) (a : Nat) {m : List Host.Cell} (h : Memory.wf m = true) :
    Memory.wf (writeCellsList a vs m) = true := by
  induction vs generalizing a m with
  | nil => exact h
  | cons v vs ih => exact ih (a + 4) (writeCells_wf a v h)

/-- Unlisting bytes keeps the canonical form. -/
theorem filter_wf (p : Host.Cell → Bool) {m : List Host.Cell} (h : Memory.wf m = true) : Memory.wf (m.filter p) = true := by
  rw [Memory.wf_iff] at h ⊢
  exact ⟨h.1.filter _, fun c hc => h.2 c (List.mem_of_mem_filter hc)⟩

/-- Clearing the tails keeps the canonical form. -/
theorem clearTails_wf (s : State) (h : Memory.wf s.mem = true) : Memory.wf s.clearTails.mem = true := filter_wf _ h

/-- Drawing unspecified bytes keeps the canonical form. -/
theorem drawAt_wf (s : State) (l : List Nat) (h : Memory.wf s.mem = true) : Memory.wf (s.drawAt l).mem = true := by
  have draw_wf : ∀ (l : List Nat) (m : List Host.Cell), Memory.wf m = true →
      Memory.wf (l.foldl (fun m a => writeCell a (Config.drawByte s.draws a) m) m) = true := by
    intro l
    induction l with
    | nil => exact fun _ h => h
    | cons a l ih => exact fun m h => ih _ (writeCell_wf _ _ h)
  exact draw_wf l s.mem h

/-- The memories right after a hard reset are in canonical form. -/
theorem reset_mem_wf : Memory.wf State.reset.mem = true := rfl

/-! ### The tails -/

/-- Every byte of a cleared tail is 0 (R65, R119). -/
theorem readByte_clearTails_of_tail {a : Nat} (h : inTdtail a = true) (s : State) : s.clearTails.readByte a = 0#8 := by
  simp [State.readByte, State.clearTails, cellAt_filter (fun k => !inTdtail k), h, unlistedByte, resetByte]

/-- Clearing the tails leaves every other byte. -/
theorem readByte_clearTails_of_other {a : Nat} (h : inTdtail a = false) (s : State) : s.clearTails.readByte a = s.readByte a := by
  simp [State.readByte, State.clearTails, cellAt_filter (fun k => !inTdtail k), h]

end Sys2Proof.Machine
end

