-- ==== Sys2Proof/Laws/Ops.lean ====
section
/-!
SUPPORT. The shared operations over registers and memories, one lemma for what each can do: raising an error, the end of a command, the
SLOT entries, the bytes of FBUF, rows of entries, and the unspecified bytes of an aborted command.
-/
namespace Sys2Proof.Machine

open Sys2Proof

/-- A field above another, as a number. -/
theorem toNat_append_add {n m : Nat} (x : BitVec n) (y : BitVec m) : (x ++ y).toNat = x.toNat * 2 ^ m + y.toNat := by
  rw [BitVec.toNat_append, Nat.shiftLeft_eq, Nat.mul_comm, Nat.two_pow_add_eq_or_of_lt y.isLt]

/-! ### Errors and the end of a command -/

/-- Everything raising an error does (R209). -/
theorem raise_spec (s : State) (c : ErrCode) (info : Word) :
    (s.raise c info).errBits = s.errBits ||| errBit c ∧
    (s.errBits = 0#12 → (s.raise c info).errCode = BitVec.ofNat 4 c.num ∧ (s.raise c info).errInfo = info) ∧
    (s.errBits ≠ 0#12 → (s.raise c info).errCode = s.errCode ∧ (s.raise c info).errInfo = s.errInfo) ∧
    { s.raise c info with errBits := s.errBits, errCode := s.errCode, errInfo := s.errInfo } = s := by
  refine ⟨rfl, fun h => ?_, fun h => ?_, rfl⟩
  · simp [State.raise, h]
  · simp [State.raise, h]

/-- The bit an error sets is not 0. -/
theorem errBit_ne_zero (c : ErrCode) : errBit c ≠ 0#12 := by cases c <;> decide

/-- After an error is raised, some error bit is set. -/
theorem raise_errBits_ne_zero (s : State) (c : ErrCode) (info : Word) : (s.raise c info).errBits ≠ 0#12 := by
  intro h
  have : s.errBits ||| errBit c = 0#12 := h
  exact errBit_ne_zero c (BitVec.or_eq_zero_iff.1 this).2

/-- A command that ran to its end leaves what its rule left, and is done (R214). -/
theorem outcome_ok (s : State) : (CmdResult.ok s).outcome = .next { s with done := true, busy := false } := rfl

/-- A command that failed raises its error in the state its rule reached, and is done (R210, R214). -/
theorem outcome_fail (s : State) (c : ErrCode) (info : Word) :
    (CmdResult.fail s c info).outcome = .next { s.raise c info with done := true, busy := false } := rfl

/-- Every command's outcome is a next state. -/
theorem outcome_eq_next (r : CmdResult) : r.outcome = .next r.complete := rfl

/-- Completion changes DONE, BUSY and the error registers alone (R210, R214). -/
theorem complete_spec (r : CmdResult) :
    r.complete.done = true ∧ r.complete.busy = false ∧
    (r.err = none → r.complete = { r.st with done := true, busy := false }) ∧
    (∀ e : CmdError, r.err = some e → r.complete = { r.st.raise e.code e.info with done := true, busy := false }) := by
  refine ⟨rfl, rfl, fun h => ?_, fun e h => ?_⟩
  · simp [CmdResult.complete, CmdResult.settle, h]
  · simp [CmdResult.complete, CmdResult.settle, h]

/-! ### Memory-only updates -/

/-- A state with other memories reads bytes from them. -/
theorem readByte_with_mem (s : State) (m : List Host.Cell) (a : Nat) :
    ({ s with mem := m } : State).readByte a = (match cellAt m a with | some v => v | none => unlistedByte s.memDraw a) := rfl

/-- Reading a word depends on its four bytes alone. -/
theorem readWord_congr {s t : State} {a : Nat} (h : ∀ b, a ≤ b → b < a + 4 → t.readByte b = s.readByte b) :
    t.readWord a = s.readWord a := by
  simp only [State.readWord]
  rw [h a (by omega) (by omega), h (a + 1) (by omega) (by omega), h (a + 2) (by omega) (by omega), h (a + 3) (by omega) (by omega)]

/-- Reading a row of entries depends on its bytes alone. -/
theorem readWords_congr {s t : State} (n : Nat) {a : Nat} (h : ∀ b, a ≤ b → b < a + 4 * n → t.readByte b = s.readByte b) :
    t.readWords a n = s.readWords a n := by
  induction n generalizing a with
  | zero => rfl
  | succ n ih =>
    rw [State.readWords, State.readWords, readWord_congr (fun b h1 h2 => h b h1 (by omega)),
      ih (fun b h1 h2 => h b (by omega) (by omega))]

theorem readWords_length (s : State) (a n : Nat) : (s.readWords a n).length = n := by
  induction n generalizing a with
  | zero => rfl
  | succ n ih => simp [State.readWords, ih]

/-- Storing a row of entries, as a chain of single entries. -/
theorem writeWords_cons (s : State) (a : Nat) (v : Word) (vs : List Word) :
    s.writeWords a (v :: vs) = (s.writeWord a v).writeWords (a + 4) vs := rfl

/-- Storing a row of entries leaves every byte outside the row. -/
theorem readByte_writeWords_of_outside (vs : List Word) {a b : Nat} (s : State) (h : b < a ∨ a + 4 * vs.length ≤ b) :
    (s.writeWords a vs).readByte b = s.readByte b := by
  induction vs generalizing a s with
  | nil => rfl
  | cons v vs ih =>
    rw [writeWords_cons, ih (s.writeWord a v) (by simp only [List.length_cons] at h; omega),
      readByte_writeWord_of_outside (by simp only [List.length_cons] at h; omega)]

/-- A row of entries whose bits are all stored reads back as it was written. -/
theorem readWords_writeWords (vs : List Word) {a : Nat} (s : State)
    (h : ∀ j, j < vs.length → wordMask (a + 4 * j) = 0xFFFFFFFF#32) : (s.writeWords a vs).readWords a vs.length = vs := by
  induction vs generalizing a s with
  | nil => rfl
  | cons v vs ih =>
    rw [writeWords_cons, List.length_cons, State.readWords]
    have hw : ((s.writeWord a v).writeWords (a + 4) vs).readWord a = v := by
      rw [readWord_congr (s := s.writeWord a v) (fun b h1 h2 => readByte_writeWords_of_outside vs _ (by omega)),
        readWord_writeWord_self, show wordMask a = 0xFFFFFFFF#32 from h 0 (by simp)]
      exact BitVec.and_allOnes
    rw [hw, ih (s.writeWord a v) (fun j hj => by
      rw [show a + 4 + 4 * j = a + 4 * (j + 1) by omega]; exact h (j + 1) (by simp; omega))]

/-! ### The stored bits of each memory -/

/-- TDWIN holds 512 samples, TDNEW and each tail 256 (R57 to R59). -/
theorem tdwin_eq (s : State) : s.tdwin = s.readWords tdwinBase 512 := rfl
theorem tdnew_eq (s : State) : s.tdnew = s.readWords tdnewBase 256 := rfl
theorem tail_eq (s : State) (ch : BitVec 3) : s.tail ch = s.readWords (tailAddr ch) 256 := rfl

/-- The places of TDTAIL, its size written out (R71). -/
theorem inTdtail_eq (a : Nat) : inTdtail a = inRange tdtailBase 0x1800 a := rfl

/-- The stored bits of a byte, the sizes of the memories written out (R71, R76). -/
theorem storeMask_eq (a : Nat) : storeMask a =
    if inRange coefBase 0x1800 a then 0xFF#8
    else if inRange expmBase 0x1800 a then (if a % 4 = 0 then 0xFF#8 else 0x00#8)
    else if inRange bapmBase 0x1800 a then (if a % 4 = 0 then 0x0F#8 else 0x00#8)
    else if inRange slotBase 0x1800 a then (if a % 4 = 3 then 0x00#8 else if a % 4 = 2 then 0xF1#8 else 0xFF#8)
    else if inRange tdwinBase 0x0800 a then 0xFF#8
    else if inRange tdnewBase 0x0400 a then 0xFF#8
    else if inTdtail a then 0xFF#8
    else if inRange fbufBase 0x1000 a then 0xFF#8
    else 0x00#8 := rfl

theorem inRange_iff (base n a : Nat) : inRange base n a = true ↔ base ≤ a ∧ a < base + n := by simp [inRange]

theorem inRange_false_iff (base n a : Nat) : inRange base n a = false ↔ a < base ∨ base + n ≤ a := by simp [inRange]; omega

/-- SLOT stores bits [15:0], 16 and [23:20] of an entry (R56, R76). -/
theorem storeMask_slot {i : Nat} (h : i < 1536) :
    storeMask (slotAddr i) = 0xFF#8 ∧ storeMask (slotAddr i + 1) = 0xFF#8 ∧ storeMask (slotAddr i + 2) = 0xF1#8 ∧
    storeMask (slotAddr i + 3) = 0x00#8 := by
  have main : ∀ a, 0x8000 ≤ a → a < 0x9800 →
      storeMask a = if a % 4 = 3 then 0x00#8 else if a % 4 = 2 then 0xF1#8 else 0xFF#8 := by
    intro a h1 h2
    have c1 : inRange coefBase 0x1800 a = false := (inRange_false_iff _ _ _).2 (by rw [coefBase]; omega)
    have c2 : inRange expmBase 0x1800 a = false := (inRange_false_iff _ _ _).2 (by rw [expmBase]; omega)
    have c3 : inRange bapmBase 0x1800 a = false := (inRange_false_iff _ _ _).2 (by rw [bapmBase]; omega)
    have c4 : inRange slotBase 0x1800 a = true := (inRange_iff _ _ _).2 (by rw [slotBase]; omega)
    simp [storeMask_eq, c1, c2, c3, c4]
  have e : slotAddr i = 0x8000 + 4 * i := rfl
  rw [e, main _ (by omega) (by omega), main _ (by omega) (by omega), main _ (by omega) (by omega), main _ (by omega) (by omega)]
  refine ⟨?_, ?_, ?_, ?_⟩
  · rw [if_neg (by omega), if_neg (by omega)]
  · rw [if_neg (by omega), if_neg (by omega)]
  · rw [if_neg (by omega), if_pos (by omega)]
  · rw [if_pos (by omega)]

/-- FBUF stores every bit (R60). -/
theorem storeMask_fbuf {i : Nat} (h : i < 4096) : storeMask (fbufBase + i) = 0xFF#8 := by
  have e : fbufBase + i = 0xE000 + i := rfl
  rw [e]
  have c1 : inRange coefBase 0x1800 (0xE000 + i) = false := (inRange_false_iff _ _ _).2 (by rw [coefBase]; omega)
  have c2 : inRange expmBase 0x1800 (0xE000 + i) = false := (inRange_false_iff _ _ _).2 (by rw [expmBase]; omega)
  have c3 : inRange bapmBase 0x1800 (0xE000 + i) = false := (inRange_false_iff _ _ _).2 (by rw [bapmBase]; omega)
  have c4 : inRange slotBase 0x1800 (0xE000 + i) = false := (inRange_false_iff _ _ _).2 (by rw [slotBase]; omega)
  have c5 : inRange tdwinBase 0x0800 (0xE000 + i) = false := (inRange_false_iff _ _ _).2 (by rw [tdwinBase]; omega)
  have c6 : inRange tdnewBase 0x0400 (0xE000 + i) = false := (inRange_false_iff _ _ _).2 (by rw [tdnewBase]; omega)
  have c7 : inTdtail (0xE000 + i) = false := (inRange_false_iff _ 0x1800 _).2 (by rw [tdtailBase]; omega)
  have c8 : inRange fbufBase 0x1000 (0xE000 + i) = true := (inRange_iff _ _ _).2 (by rw [fbufBase]; omega)
  simp [storeMask_eq, c1, c2, c3, c4, c5, c6, c7, c8]

/-- TDTAIL stores every bit (R59). -/
theorem storeMask_tail {a : Nat} (h : inTdtail a = true) : storeMask a = 0xFF#8 := by
  have hr := (inRange_iff _ 0x1800 _).1 h
  rw [tdtailBase] at hr
  have c1 : inRange coefBase 0x1800 a = false := (inRange_false_iff _ _ _).2 (by rw [coefBase]; omega)
  have c2 : inRange expmBase 0x1800 a = false := (inRange_false_iff _ _ _).2 (by rw [expmBase]; omega)
  have c3 : inRange bapmBase 0x1800 a = false := (inRange_false_iff _ _ _).2 (by rw [bapmBase]; omega)
  have c4 : inRange slotBase 0x1800 a = false := (inRange_false_iff _ _ _).2 (by rw [slotBase]; omega)
  have c5 : inRange tdwinBase 0x0800 a = false := (inRange_false_iff _ _ _).2 (by rw [tdwinBase]; omega)
  have c6 : inRange tdnewBase 0x0400 a = false := (inRange_false_iff _ _ _).2 (by rw [tdnewBase]; omega)
  simp [storeMask_eq, c1, c2, c3, c4, c5, c6, h]

/-- Every bit of a TDTAIL entry is stored. -/
theorem wordMask_tail {a : Nat} (h : inTdtail a = true) (h' : inTdtail (a + 3) = true) : wordMask a = 0xFFFFFFFF#32 := by
  have h1 : inTdtail (a + 1) = true := by simp only [inTdtail_eq, inRange_iff] at *; omega
  have h2 : inTdtail (a + 2) = true := by simp only [inTdtail_eq, inRange_iff] at *; omega
  rw [wordMask, storeMask_tail h, storeMask_tail h1, storeMask_tail h2, storeMask_tail h']
  rfl

/-! ### SLOT entries -/

/-- Writing a slot touches its four bytes alone. -/
theorem readByte_setSlot_of_outside {i b : Nat} (h : slotByte i b = false) (s : State) (x : Slot) :
    (s.setSlot i x).readByte b = s.readByte b := by
  simp only [slotByte, inRange_false_iff] at h
  exact readByte_writeWord_of_outside h s _

/-- Reading a slot depends on its bytes alone. -/
theorem slot_congr {s t : State} {i : Nat} (h : ∀ b, slotByte i b = true → t.readByte b = s.readByte b) : t.slot i = s.slot i := by
  rw [State.slot, State.slot, readWord_congr (fun b h1 h2 => h b (by rw [slotByte, inRange_iff]; omega))]

/-- Different slots share no byte. -/
theorem slotByte_disjoint {i j b : Nat} (h : i ≠ j) (hb : slotByte j b = true) : slotByte i b = false := by
  simp only [slotByte, inRange_iff, inRange_false_iff, slotAddr] at *
  omega

/-- A SLOT word's fields are the entry's (R56). -/
theorem Slot.ofWord_toWord (x : Slot) : Slot.ofWord x.toWord = x := by
  obtain ⟨v, p, b⟩ := x
  simp only [Slot.ofWord, Slot.toWord, Slot.mk.injEq]
  refine ⟨?_, ?_, ?_⟩
  · ext j hj
    rw [BitVec.getElem_extractLsb', BitVec.getLsbD_append, if_pos (by omega), Nat.zero_add, BitVec.getLsbD_eq_getElem hj]
  · rw [BitVec.getLsbD_append, if_neg (by omega), BitVec.getLsbD_append, if_pos (by omega)]
    simp
  · ext j hj
    rw [BitVec.getElem_extractLsb', BitVec.getLsbD_append, if_neg (by omega), BitVec.getLsbD_append, if_neg (by omega),
      BitVec.getLsbD_append, if_neg (by omega), BitVec.getLsbD_append, if_pos (by omega),
      show 20 + j - 16 - 1 - 3 = j by omega, BitVec.getLsbD_eq_getElem hj]

/-- The bits of a SLOT word that carry an entry (R56). -/
theorem Slot.ofWord_and_mask (w : Word) : Slot.ofWord (w &&& 0x00F1FFFF#32) = Slot.ofWord w := by
  simp only [Slot.ofWord, Slot.mk.injEq, BitVec.getLsbD_and]
  refine ⟨?_, ?_, ?_⟩
  · rw [BitVec.extractLsb'_and]; exact BitVec.and_allOnes
  · simp
  · rw [BitVec.extractLsb'_and]; exact BitVec.and_allOnes

/-- Every bit of a SLOT entry that is stored. -/
theorem wordMask_slot {i : Nat} (h : i < 1536) : wordMask (slotAddr i) = 0x00F1FFFF#32 := by
  obtain ⟨h0, h1, h2, h3⟩ := storeMask_slot h
  rw [wordMask, h0, h1, h2, h3]
  rfl

/-- A slot written reads back whole (R56). -/
theorem slot_setSlot_self {i : Nat} (h : i < 1536) (s : State) (x : Slot) : (s.setSlot i x).slot i = x := by
  rw [State.slot, State.setSlot, readWord_writeWord_self, wordMask_slot h, Slot.ofWord_and_mask, Slot.ofWord_toWord]

/-- Writing a slot leaves every other slot. -/
theorem slot_setSlot_of_ne {i j : Nat} (h : i ≠ j) (s : State) (x : Slot) : (s.setSlot i x).slot j = s.slot j :=
  slot_congr fun _ hb => readByte_setSlot_of_outside (slotByte_disjoint h hb) s x

/-- Writing a slot's VAL touches two of its bytes alone. -/
theorem readByte_setSlotVal_of_outside {i b : Nat} (h : b ≠ slotAddr i ∧ b ≠ slotAddr i + 1) (s : State) (v : Half) :
    (s.setSlotVal i v).readByte b = s.readByte b := by
  have e : s.setSlotVal i v = (s.writeByte (slotAddr i) (v.extractLsb' 0 8)).writeByte (slotAddr i + 1) (v.extractLsb' 8 8) := rfl
  rw [e, readByte_writeByte_of_ne h.2, readByte_writeByte_of_ne h.1]

/-- Writing a slot's VAL replaces the VAL and keeps PH and BAP (R138). -/
theorem slot_setSlotVal_self {i : Nat} (h : i < 1536) (s : State) (v : Half) :
    (s.setSlotVal i v).slot i = { s.slot i with val := v } := by
  obtain ⟨h0, h1, -, -⟩ := storeMask_slot h
  have e : s.setSlotVal i v = (s.writeByte (slotAddr i) (v.extractLsb' 0 8)).writeByte (slotAddr i + 1) (v.extractLsb' 8 8) := rfl
  have r0 : (s.setSlotVal i v).readByte (slotAddr i) = v.extractLsb' 0 8 := by
    rw [e, readByte_writeByte_of_ne (by omega), readByte_writeByte_self, h0]
    exact BitVec.and_allOnes
  have r1 : (s.setSlotVal i v).readByte (slotAddr i + 1) = v.extractLsb' 8 8 := by
    rw [e, readByte_writeByte_self, h1]
    exact BitVec.and_allOnes
  have r2 : (s.setSlotVal i v).readByte (slotAddr i + 2) = s.readByte (slotAddr i + 2) :=
    readByte_setSlotVal_of_outside (by omega) s v
  have r3 : (s.setSlotVal i v).readByte (slotAddr i + 3) = s.readByte (slotAddr i + 3) :=
    readByte_setSlotVal_of_outside (by omega) s v
  simp only [State.slot, State.readWord, r0, r1, r2, r3, Slot.ofWord, Slot.mk.injEq]
  refine ⟨?_, ?_, ?_⟩
  · ext j hj
    rw [BitVec.getElem_extractLsb', Nat.zero_add, BitVec.getLsbD_append]
    split
    · rw [BitVec.getLsbD_extractLsb', Nat.zero_add, BitVec.getLsbD_eq_getElem hj]
      simp [*]
    · rw [BitVec.getLsbD_append, if_pos (by omega), BitVec.getLsbD_extractLsb', show 8 + (j - 8) = j by omega,
        BitVec.getLsbD_eq_getElem hj]
      simp; omega
  · rw [BitVec.getLsbD_append, if_neg (by omega), BitVec.getLsbD_append, if_neg (by omega), BitVec.getLsbD_append (i := 16),
      if_neg (by omega), BitVec.getLsbD_append (i := 16 - 8), if_neg (by omega)]
  · ext j hj
    rw [BitVec.getElem_extractLsb', BitVec.getElem_extractLsb', BitVec.getLsbD_append, if_neg (by omega), BitVec.getLsbD_append,
      if_neg (by omega), BitVec.getLsbD_append (i := 20 + j), if_neg (by omega), BitVec.getLsbD_append (i := 20 + j - 8),
      if_neg (by omega)]

/-- Writing a slot's VAL leaves every other slot. -/
theorem slot_setSlotVal_of_ne {i j : Nat} (h : i ≠ j) (s : State) (v : Half) : (s.setSlotVal i v).slot j = s.slot j :=
  slot_congr fun b hb => readByte_setSlotVal_of_outside (by
    have := slotByte_disjoint h hb
    simp only [slotByte, inRange_false_iff] at this
    omega) s v

/-! ### Bytes of FBUF -/

/-- A byte of FBUF written reads back (R60). -/
theorem fbuf_setFbuf_self {i : Nat} (h : i < 4096) (s : State) (v : Byte) : (s.setFbuf i v).fbuf i = v := by
  rw [State.fbuf, State.setFbuf, readByte_writeByte_self, storeMask_fbuf h]
  exact BitVec.and_allOnes

/-- A write of a byte of FBUF leaves every other byte of the memories. -/
theorem readByte_setFbuf_of_ne {i b : Nat} (h : b ≠ fbufBase + i) (s : State) (v : Byte) :
    (s.setFbuf i v).readByte b = s.readByte b := readByte_writeByte_of_ne h s v

/-- A write of a byte of FBUF leaves the others. -/
theorem fbuf_setFbuf_of_ne {i j : Nat} (h : j ≠ i) (s : State) (v : Byte) : (s.setFbuf i v).fbuf j = s.fbuf j :=
  readByte_setFbuf_of_ne (by omega) s v

/-! ### Unspecified bytes -/

/-- Drawing touches the bytes it is given alone (R238). -/
theorem readByte_drawAt_of_not_mem {l : List Nat} {a : Nat} (h : a ∉ l) (s : State) : (s.drawAt l).readByte a = s.readByte a := by
  have main : ∀ (l : List Nat) (m : List Host.Cell), a ∉ l →
      cellAt (l.foldl (fun m b => writeCell b (Config.drawByte s.draws b) m) m) a = cellAt m a := by
    intro l
    induction l with
    | nil => exact fun _ _ => rfl
    | cons b l ih =>
      intro m hm
      simp only [List.mem_cons, not_or] at hm
      rw [List.foldl_cons, ih _ hm.2, cellAt_writeCell_of_ne hm.1]
  simp only [State.readByte, State.drawAt]
  rw [main l s.mem h]

end Sys2Proof.Machine
end

