-- ==== Sys2Proof/Laws/BitWriter.lean ====
section
/-!
SUPPORT. The bit writer: what writing a string of bits does, and that PUTBITS, FLUSH and MPACK write strings of bits.
-/
namespace Sys2Proof.Machine

open Sys2Proof

/-- `t` is `s` after the writer appended `bits` (R160 to R162): they stand in the stream in order, the bits before them are kept, the
rest of the last byte written is 0, every other byte is kept, BITPOS has moved past them, and nothing else has changed. -/
structure Wrote (bits : List Bool) (s t : State) : Prop where
  frame : t = { s with mem := t.mem, bitpos := t.bitpos }
  pos : t.bitpos.toNat = s.bitpos.toNat + bits.length
  here : ∀ j, j < bits.length → some (streamBit t (s.bitpos.toNat + j)) = bits[j]?
  before : ∀ p, p < s.bitpos.toNat → streamBit t p = streamBit s p
  rest : ∀ p, 0 < bits.length → s.bitpos.toNat + bits.length ≤ p → p / 8 = (s.bitpos.toNat + bits.length - 1) / 8 →
    streamBit t p = false
  bytes : bytesKept (writtenByte s.bitpos.toNat (s.bitpos.toNat + bits.length)) s t

theorem Wrote.nil (s : State) : Wrote [] s s :=
  { frame := rfl, pos := rfl, here := fun _ h => absurd h (Nat.not_lt_zero _), before := fun _ _ => rfl
    rest := fun _ h => absurd h (Nat.lt_irrefl _), bytes := fun _ _ => rfl }

theorem writtenByte_iff (p0 p1 a : Nat) :
    writtenByte p0 p1 a = true ↔ p0 < p1 ∧ fbufBase + p0 / 8 ≤ a ∧ a < fbufBase + ((p1 - 1) / 8 + 1) := by
  simp [writtenByte, frameByte]

theorem writtenByte_false_iff (p0 p1 a : Nat) :
    writtenByte p0 p1 a = false ↔ (p0 < p1 → a < fbufBase + p0 / 8 ∨ fbufBase + ((p1 - 1) / 8 + 1) ≤ a) := by
  rw [← Bool.not_eq_true, writtenByte_iff]
  omega

/-- One string after another is the two together. -/
theorem Wrote.append {xs ys : List Bool} {s t u : State} (h : Wrote xs s t) (h' : Wrote ys t u) : Wrote (xs ++ ys) s u := by
  refine { frame := ?_, pos := ?_, here := ?_, before := ?_, rest := ?_, bytes := ?_ }
  · have h1 := h.frame
    have h2 := h'.frame
    rw [h2, h1]
  · rw [h'.pos, h.pos, List.length_append]; omega
  · intro j hj
    rw [List.length_append] at hj
    by_cases hx : j < xs.length
    · rw [List.getElem?_append_left hx, h'.before _ (by rw [h.pos]; omega), h.here j hx]
    · rw [List.getElem?_append_right (by omega), ← h'.here (j - xs.length) (by omega), h.pos,
        show s.bitpos.toNat + xs.length + (j - xs.length) = s.bitpos.toNat + j by omega]
  · intro p hp
    rw [h'.before p (by rw [h.pos]; omega), h.before p hp]
  · intro p h0 h1 h2
    rw [List.length_append] at h0 h1 h2
    by_cases hy : 0 < ys.length
    · exact h'.rest p hy (by rw [h.pos]; omega) (by rw [h.pos, h2]; congr 2; omega)
    · have hy0 : ys.length = 0 := by omega
      have kept : streamBit u p = streamBit t p := by
        rw [streamBit, streamBit, State.fbuf, State.fbuf, h'.bytes]
        rw [writtenByte_false_iff]; omega
      rw [kept]
      exact h.rest p (by omega) (by omega) (by rw [h2]; congr 2; omega)
  · intro a ha
    rw [writtenByte_false_iff, List.length_append] at ha
    rw [h'.bytes a, h.bytes a]
    · rw [writtenByte_false_iff]; omega
    · rw [writtenByte_false_iff, h.pos]
      intro hy
      have := ha (by omega)
      have h3 : s.bitpos.toNat / 8 ≤ (s.bitpos.toNat + xs.length) / 8 := Nat.div_le_div_right (by omega)
      rw [show s.bitpos.toNat + (xs.length + ys.length) - 1 = s.bitpos.toNat + xs.length + ys.length - 1 by omega] at this
      omega

/-- The bits of the current byte after PutBit(b) at bit p of it (R161). -/
theorem placeBit_getLsbD (old : Byte) {p : Nat} (hp : p < 8) (b : Bool) {i : Nat} (hi : i < 8) :
    (placeBit old p b).getLsbD (7 - i) = if i = p then b else if p < i then false else old.getLsbD (7 - i) := by
  have main : ∀ (p i : Fin 8) (b : Bool) (o : Byte),
      (placeBit o p.val b).getLsbD (7 - i.val) =
        if i.val = p.val then b else if p.val < i.val then false else o.getLsbD (7 - i.val) := by
    decide +kernel
  exact main ⟨p, hp⟩ ⟨i, hi⟩ b old

/-- PutBit(b) writes one bit (R161). -/
theorem putBit_wrote {s : State} (h : s.bitpos.toNat < 32768) (b : Bool) : Wrote [b] s (putBit s b) := by
  have hpos : (putBit s b).bitpos.toNat = s.bitpos.toNat + 1 := by
    show (s.bitpos + 1#32).toNat = _
    rw [BitVec.toNat_add]
    simp
    omega
  have hbyte : (putBit s b).fbuf (s.bitpos.toNat / 8) = placeBit (s.fbuf (s.bitpos.toNat / 8)) (s.bitpos.toNat % 8) b :=
    fbuf_setFbuf_self (by omega) s _
  have hother : ∀ a, a ≠ fbufBase + s.bitpos.toNat / 8 → (putBit s b).readByte a = s.readByte a :=
    fun a ha => readByte_setFbuf_of_ne ha s _
  have hbit : ∀ p, p / 8 = s.bitpos.toNat / 8 → streamBit (putBit s b) p =
      if p % 8 = s.bitpos.toNat % 8 then b else if s.bitpos.toNat % 8 < p % 8 then false else streamBit s p := by
    intro p hp
    rw [streamBit, hp, hbyte, placeBit_getLsbD _ (by omega) b (by omega), streamBit, hp]
  refine { frame := rfl, pos := hpos, here := ?_, before := ?_, rest := ?_, bytes := ?_ }
  · intro j hj
    obtain rfl : j = 0 := by simpa using hj
    rw [Nat.add_zero, hbit _ rfl, if_pos rfl]
    rfl
  · intro p hp
    by_cases hb : p / 8 = s.bitpos.toNat / 8
    · rw [hbit p hb, if_neg (by omega), if_neg (by omega)]
    · rw [streamBit, streamBit, State.fbuf, State.fbuf, hother _ (by omega)]
  · intro p _ h1 h2
    simp only [List.length_cons, List.length_nil] at h1 h2
    rw [hbit p (by omega), if_neg (by omega), if_pos (by omega)]
  · intro a ha
    rw [writtenByte_false_iff] at ha
    simp only [List.length_cons, List.length_nil] at ha
    exact hother a (by omega)

/-- The low w bits of v, bit w - 1 first (R162). -/
def lowBits (w : Nat) (v : Word) : List Bool := (List.range w).map fun j => v.getLsbD (w - 1 - j)

@[simp] theorem lowBits_length (w : Nat) (v : Word) : (lowBits w v).length = w := by simp [lowBits]

theorem lowBits_succ (w : Nat) (v : Word) : lowBits (w + 1) v = v.getLsbD w :: lowBits w v := by
  rw [lowBits, List.range_succ_eq_map, List.map_cons, List.map_map, lowBits]
  simp only [List.cons.injEq]
  exact ⟨by simp, List.map_congr_left fun j _ => by simp only [Function.comp]; congr 1; omega⟩

/-- Bits w - 1 down to 0 of v (R162). -/
theorem putBitsFrom_wrote (w : Nat) (v : Word) {s : State} (h : s.bitpos.toNat + w ≤ 32768) :
    Wrote (lowBits w v) s (putBitsFrom w v s) := by
  induction w generalizing s with
  | zero => exact Wrote.nil s
  | succ w ih =>
    have h1 := putBit_wrote (s := s) (by omega) (v.getLsbD w)
    have h2 := ih (s := putBit s (v.getLsbD w)) (by
      have := h1.pos
      simp only [List.length_cons, List.length_nil] at this
      omega)
    rw [lowBits_succ]
    exact h1.append h2

/-- PutBits(w, v, info) writes the field or raises BITOVF and writes nothing (R162). -/
theorem putBits_cases (s : State) (w : Nat) (v info : Word) :
    (s.bitpos.toNat + w ≤ 32768 ∧ ∃ t, putBits s w v info = { st := t, err := none } ∧ Wrote (lowBits w v) s t) ∨
    (32768 < s.bitpos.toNat + w ∧ putBits s w v info = .fail s .bitOvf info) := by
  have hw : writerBits = 32768 := rfl
  by_cases h : s.bitpos.toNat + w ≤ 32768
  · exact .inl ⟨h, _, by rw [putBits, hw, if_neg (by omega)]; rfl, putBitsFrom_wrote w v h⟩
  · exact .inr ⟨by omega, by rw [putBits, hw, if_pos (by omega)]⟩

/-- Zero bits up to the next byte boundary (R166). -/
theorem flushBits_wrote (n : Nat) {s : State} (h : s.bitpos.toNat ≤ 32768) (hn : (8 - s.bitpos.toNat % 8) % 8 ≤ n) :
    Wrote (List.replicate ((8 - s.bitpos.toNat % 8) % 8) false) s (flushBits n s) := by
  induction n generalizing s with
  | zero =>
    rw [show (8 - s.bitpos.toNat % 8) % 8 = 0 by omega]
    exact Wrote.nil s
  | succ n ih =>
    by_cases h0 : s.bitpos.toNat % 8 = 0
    · rw [flushBits, if_pos h0, h0]
      exact Wrote.nil s
    · rw [flushBits, if_neg h0]
      have h1 := putBit_wrote (s := s) (by omega) false
      have hp : (putBit s false).bitpos.toNat = s.bitpos.toNat + 1 := h1.pos
      have h2 := ih (s := putBit s false) (by omega) (by omega)
      rw [show (8 - s.bitpos.toNat % 8) % 8 = (8 - (putBit s false).bitpos.toNat % 8) % 8 + 1 by omega, List.replicate_succ]
      exact h1.append h2

/-- FLUSH's rule (R166). -/
theorem flushWriter_wrote {s : State} (h : s.bitpos.toNat ≤ 32768) :
    Wrote (List.replicate ((8 - s.bitpos.toNat % 8) % 8) false) s (flushWriter s) :=
  flushBits_wrote 7 h (by omega)

/-- The bits a slot emits are the low bits of its VAL (R167, R168). -/
theorem fieldBits_eq {x : Slot} (hp : x.ph = false) :
    fieldBits x = lowBits (Config.mantWidth x.bap.toNat) (x.val.zeroExtend 32) := by
  have hw : ∀ b : BitVec 4, Config.mantWidth b.toNat ≤ 16 := by decide
  have := hw x.bap
  rw [fieldBits, hp, lowBits]
  simp only [Bool.false_eq_true, if_false]
  refine List.map_congr_left fun j hj => ?_
  have : j < Config.mantWidth x.bap.toNat := List.mem_range.1 hj
  rw [BitVec.getLsbD_setWidth]
  simp
  omega

/-- A slot of a run is emitted, or it raises BITOVF and writes nothing (R167). -/
theorem packSlot_cases (s : State) (i : Nat) :
    (s.bitpos.toNat + (fieldBits (s.slot i)).length ≤ 32768 ∧
      ∃ t, packSlot s i = { st := t, err := none } ∧ Wrote (fieldBits (s.slot i)) s t) ∨
    (packSlot s i = { st := s, err := none } ∧ fieldBits (s.slot i) = []) ∨
    (32768 < s.bitpos.toNat + (fieldBits (s.slot i)).length ∧ packSlot s i = .fail s .bitOvf (mpackInfo s i)) := by
  by_cases hp : (s.slot i).ph = true
  · exact .inr (.inl ⟨by simp [packSlot, hp, CmdResult.ok], by simp [fieldBits, hp]⟩)
  · have hp : (s.slot i).ph = false := by simpa using hp
    by_cases hw : Config.mantWidth (s.slot i).bap.toNat = 0
    · exact .inr (.inl ⟨by simp [packSlot, hp, hw, CmdResult.ok], by rw [fieldBits_eq hp, hw]; rfl⟩)
    · have he : packSlot s i = putBits s (Config.mantWidth (s.slot i).bap.toNat) ((s.slot i).val.zeroExtend 32) (mpackInfo s i) := by
        simp [packSlot, hp, hw]
      have hl : (fieldBits (s.slot i)).length = Config.mantWidth (s.slot i).bap.toNat := by rw [fieldBits_eq hp, lowBits_length]
      rw [he, hl]
      rcases putBits_cases s (Config.mantWidth (s.slot i).bap.toNat) ((s.slot i).val.zeroExtend 32) (mpackInfo s i)
        with ⟨h1, t, h2, h3⟩ | ⟨h1, h2⟩
      · exact .inl ⟨h1, t, h2, by rw [fieldBits_eq hp]; exact h3⟩
      · exact .inr (.inr ⟨h1, h2⟩)

/-- The writer leaves every slot. -/
theorem Wrote.slot {bits : List Bool} {s t : State} (h : Wrote bits s t) {i : Nat} (hi : i < 2048) :
    t.slot i = s.slot i :=
  slot_congr fun b hb => h.bytes b (by
    rw [slotByte, inRange_iff, slotAddr, slotBase] at hb
    rw [writtenByte_false_iff, fbufBase]
    omega)

/-- A run that raised no error, one slot longer (R167). -/
theorem mpackFrom_snoc {ch : BitVec 3} {m k : Nat} {s t : State} (h : mpackFrom ch m k s = { st := t, err := none }) :
    mpackFrom ch (m + 1) k s = packSlot t (slotIndex ch (k + m)) := by
  induction m generalizing k s with
  | zero =>
    obtain rfl : s = t := (CmdResult.mk.inj h).1
    rw [mpackFrom, Nat.add_zero]
    obtain ⟨u, _ | e⟩ := packSlot s (slotIndex ch k) <;> rfl
  | succ m ih =>
    rw [mpackFrom] at h ⊢
    generalize packSlot s (slotIndex ch k) = r at h ⊢
    obtain ⟨u, _ | e⟩ := r
    · rw [show k + (m + 1) = k + 1 + m by omega]
      exact ih h
    · cases (CmdResult.mk.inj h).2

/-- A run that raised an error stays as it is when it is longer (R210). -/
theorem mpackFrom_of_err {ch : BitVec 3} {m n k : Nat} {s t : State} {e : CmdError} (hmn : m ≤ n)
    (h : mpackFrom ch m k s = { st := t, err := some e }) : mpackFrom ch n k s = { st := t, err := some e } := by
  induction m generalizing n k s with
  | zero => cases (CmdResult.mk.inj h).2
  | succ m ih =>
    obtain ⟨n, rfl⟩ : ∃ n', n = n' + 1 := ⟨n - 1, by omega⟩
    rw [mpackFrom] at h ⊢
    generalize packSlot s (slotIndex ch k) = r at h ⊢
    obtain ⟨u, _ | e'⟩ := r
    · exact ih (by omega) h
    · exact h

theorem emittedBits_succ (s : State) (ch : BitVec 3) (n : Nat) :
    emittedBits s ch (n + 1) = emittedBits s ch n ++ fieldBits (s.slot (slotIndex ch n)) := by
  simp [emittedBits, List.range_succ]

/-- A run whose fields fit writes them in the order of the coefficients (R167, R169). -/
theorem mpackFrom_wrote {s : State} {ch : BitVec 3} {n : Nat} (hn : n ≤ 256)
    (h : s.bitpos.toNat + (emittedBits s ch n).length ≤ 32768) :
    ∃ t, mpackFrom ch n 0 s = { st := t, err := none } ∧ Wrote (emittedBits s ch n) s t := by
  induction n with
  | zero => exact ⟨s, rfl, Wrote.nil s⟩
  | succ n ih =>
    rw [emittedBits_succ, List.length_append] at h
    obtain ⟨t, ht, hw⟩ := ih (by omega) (by omega)
    have hidx : slotIndex ch n < 2048 := by have := ch.isLt; simp only [slotIndex, Config.ncoef]; omega
    rw [mpackFrom_snoc ht, Nat.zero_add, emittedBits_succ, ← hw.slot hidx]
    rw [← hw.slot hidx] at h
    rcases packSlot_cases t (slotIndex ch n) with ⟨-, u, hu, hw'⟩ | ⟨hu, hb⟩ | ⟨h', -⟩
    · exact ⟨u, hu, hw.append hw'⟩
    · exact ⟨t, hu, by rw [hb, List.append_nil]; exact hw⟩
    · rw [hw.pos] at h'; omega

/-! ### From any state -/

/-- What the writer keeps from any state, within its capacity or not: everything but the memories and BITPOS (R202), the bytes below FBUF,
the canonical form, and the capacity (R42). -/
structure WriterKeeps (s t : State) : Prop where
  frame : t = { s with mem := t.mem, bitpos := t.bitpos }
  bytes : ∀ a, a < fbufBase → t.readByte a = s.readByte a
  wf : Memory.wf s.mem = true → Memory.wf t.mem = true
  pos : s.bitpos.toNat ≤ 32768 → t.bitpos.toNat ≤ 32768

theorem WriterKeeps.refl (s : State) : WriterKeeps s s :=
  { frame := rfl, bytes := fun _ _ => rfl, wf := id, pos := id }

theorem WriterKeeps.trans {s t u : State} (h : WriterKeeps s t) (h' : WriterKeeps t u) : WriterKeeps s u := by
  refine { frame := ?_, bytes := fun a ha => (h'.bytes a ha).trans (h.bytes a ha), wf := h'.wf ∘ h.wf, pos := h'.pos ∘ h.pos }
  have h1 := h.frame
  have h2 := h'.frame
  rw [h2, h1]

/-- One bit, below the capacity or not at a byte boundary: it then stays in the current byte. -/
theorem putBit_keeps {s : State} (b : Bool) (h : s.bitpos.toNat ≤ 32768 → s.bitpos.toNat < 32768) : WriterKeeps s (putBit s b) where
  frame := rfl
  bytes := fun a ha => readByte_setFbuf_of_ne (by omega) s _
  wf := writeCell_wf _ _
  pos := fun h' => by
    show (s.bitpos + 1#32).toNat ≤ _
    have := h h'
    rw [BitVec.toNat_add]
    simp
    omega

theorem putBitsFrom_keeps (w : Nat) (v : Word) {s : State} (h : s.bitpos.toNat + w ≤ 32768) : WriterKeeps s (putBitsFrom w v s) := by
  induction w generalizing s with
  | zero => exact WriterKeeps.refl s
  | succ w ih =>
    have h1 : (putBit s (v.getLsbD w)).bitpos.toNat = s.bitpos.toNat + 1 := (putBit_wrote (by omega) _).pos
    exact (putBit_keeps _ fun _ => by omega).trans (ih (by omega))

theorem putBits_keeps (s : State) (w : Nat) (v info : Word) :
    WriterKeeps s (putBits s w v info).st ∧
      ((putBits s w v info).err = none ∨ (putBits s w v info).err = some { code := .bitOvf, info := info }) := by
  have hw : writerBits = 32768 := rfl
  rw [putBits, hw]
  split
  · exact ⟨WriterKeeps.refl s, .inr rfl⟩
  · exact ⟨putBitsFrom_keeps w v (by omega), .inl rfl⟩

theorem flushBits_keeps (n : Nat) (s : State) : WriterKeeps s (flushBits n s) := by
  induction n generalizing s with
  | zero => exact WriterKeeps.refl s
  | succ n ih =>
    rw [flushBits]
    split
    · exact WriterKeeps.refl s
    · exact (putBit_keeps false fun _ => by omega).trans (ih _)

theorem flushWriter_keeps (s : State) : WriterKeeps s (flushWriter s) := flushBits_keeps 7 s

theorem packSlot_keeps (s : State) (i : Nat) :
    WriterKeeps s (packSlot s i).st ∧
      ((packSlot s i).err = none ∨ (packSlot s i).err = some { code := .bitOvf, info := mpackInfo s i }) := by
  unfold packSlot
  split
  · exact ⟨WriterKeeps.refl s, .inl rfl⟩
  · split
    · exact ⟨WriterKeeps.refl s, .inl rfl⟩
    · exact putBits_keeps s _ _ _

/-- A run keeps the same, and its error, if it raises one, is BITOVF (R167). -/
theorem mpackFrom_keeps (ch : BitVec 3) (m k : Nat) (s : State) :
    WriterKeeps s (mpackFrom ch m k s).st ∧
      ((mpackFrom ch m k s).err = none ∨ ∃ info, (mpackFrom ch m k s).err = some { code := .bitOvf, info := info }) := by
  induction m generalizing k s with
  | zero => exact ⟨WriterKeeps.refl s, .inl rfl⟩
  | succ m ih =>
    have h := packSlot_keeps s (slotIndex ch k)
    rw [mpackFrom]
    generalize packSlot s (slotIndex ch k) = r at h ⊢
    obtain ⟨u, _ | e⟩ := r
    · exact ⟨h.1.trans (ih (k + 1) u).1, (ih (k + 1) u).2⟩
    · refine ⟨h.1, .inr ⟨mpackInfo s (slotIndex ch k), ?_⟩⟩
      rcases h.2 with h2 | h2
      · cases h2
      · exact h2

end Sys2Proof.Machine
end

