-- ==== Sys2Proof/Laws/Crc.lean ====
section
/-!
SUPPORT. The CRC unit: its step and inverse, its linearity, and what finalizing a frame writes.
-/
namespace Sys2Proof.Machine

open Sys2Proof

/-! ### The register -/

theorem xor_left_comm (x y z : Half) : x ^^^ (y ^^^ z) = y ^^^ (x ^^^ z) := by
  rw [← BitVec.xor_assoc, BitVec.xor_comm x y, BitVec.xor_assoc]

theorem xor_xor_cancel (x y : Half) : x ^^^ (x ^^^ y) = y := by
  rw [← BitVec.xor_assoc, BitVec.xor_self, BitVec.zero_xor]

/-- The CRC register is linear in itself and the data bits (R180, R181). -/
theorem crcStep_xor (r s : Half) (b c : Bool) : crcStep (r ^^^ s) (b ^^ c) = crcStep r b ^^^ crcStep s c := by
  have hx : ∀ x y : Half, (x ^^^ y) <<< 1 = (x <<< 1) ^^^ (y <<< 1) := fun x y => BitVec.shiftLeft_xor_distrib x y 1
  simp only [crcStep, BitVec.getLsbD_xor, hx]
  generalize r <<< 1 = x
  generalize s <<< 1 = y
  generalize Config.crcPoly = p
  cases r.getLsbD 15 <;> cases s.getLsbD 15 <;> cases b <;> cases c <;>
    simp [BitVec.xor_assoc, BitVec.xor_comm, xor_left_comm]

/-- Removing a zero bit is linear too (R183). -/
theorem invStep_xor (r s : Half) : invStep (r ^^^ s) = invStep r ^^^ invStep s := by
  have e : ∀ r : Half, invStep r = (r >>> 1) ^^^ (if r.getLsbD 0 then 0xC002#16 else 0#16) := by
    intro r
    have hor : ∀ x : Half, x.getLsbD 15 = false → x ||| 0x8000#16 = x ^^^ 0x8000#16 := by
      intro x hx
      ext i hi
      simp only [BitVec.getElem_or, BitVec.getElem_xor]
      by_cases h15 : i = 15
      · subst h15
        rw [← BitVec.getLsbD_eq_getElem (i := 15), hx]
        simp
      · have main : ∀ j : Fin 16, j.val ≠ 15 → (0x8000#16 : Half).getLsbD j.val = false := by decide
        have := main ⟨i, hi⟩ h15
        rw [BitVec.getLsbD_eq_getElem hi] at this
        rw [this]
        simp
    rw [invStep]
    cases r.getLsbD 0
    · simp
    · simp only [if_true]
      rw [hor _ (by simp), BitVec.ushiftRight_xor_distrib, BitVec.xor_assoc]
      rfl
  rw [e, e r, e s, BitVec.ushiftRight_xor_distrib, BitVec.getLsbD_xor]
  generalize r >>> 1 = x
  generalize s >>> 1 = y
  cases r.getLsbD 0 <;> cases s.getLsbD 0 <;> simp [BitVec.xor_assoc, BitVec.xor_comm, xor_left_comm]

/-- A property of registers that holds of 0 and of single bits and is kept by xor holds of every register. -/
theorem half_induct {P : Half → Prop} (h0 : P 0#16) (hx : ∀ r s, P r → P s → P (r ^^^ s)) (hb : ∀ i : Fin 16, P (1#16 <<< i.val))
    (r : Half) : P r := by
  have low : ∀ n, n ≤ 16 → ∀ r : Half, r.toNat < 2 ^ n → P r := by
    intro n
    induction n with
    | zero =>
      intro _ r hr
      obtain rfl : r = 0#16 := BitVec.eq_of_toNat_eq (by simpa using hr)
      exact h0
    | succ n ih =>
      intro hn r hr
      have hi : ∀ i, n < i → r.toNat.testBit i = false := fun i hi =>
        Nat.testBit_lt_two_pow (Nat.lt_of_lt_of_le hr (Nat.pow_le_pow_right (by omega) (by omega)))
      by_cases hbit : r.toNat.testBit n = true
      · have e : r = (r ^^^ 1#16 <<< n) ^^^ 1#16 <<< n := by rw [BitVec.xor_assoc, BitVec.xor_self, BitVec.xor_zero]
        rw [e]
        refine hx _ _ (ih (by omega) _ (Nat.lt_pow_two_of_testBit _ fun i hi' => ?_)) (hb ⟨n, by omega⟩)
        show (r ^^^ 1#16 <<< n).getLsbD i = false
        rw [BitVec.getLsbD_xor, BitVec.getLsbD_shiftLeft]
        by_cases hin : i = n
        · subst hin
          have : r.getLsbD i = true := hbit
          rw [this]
          simp
          omega
        · have : r.getLsbD i = false := hi i (by omega)
          rw [this]
          simp
          omega
      · refine ih (by omega) r (Nat.lt_pow_two_of_testBit _ fun i hi' => ?_)
        by_cases hin : i = n
        · subst hin; simpa using hbit
        · exact hi i (by omega)
  exact low 16 (Nat.le_refl _) r r.isLt

/-- One zero bit appended and removed gives the register back, both ways (R183). -/
theorem invStep_crcStep (r : Half) : invStep (crcStep r false) = r ∧ crcStep (invStep r) false = r := by
  have hx : ∀ r s, crcStep (r ^^^ s) false = crcStep r false ^^^ crcStep s false := fun r s => crcStep_xor r s false false
  refine half_induct (P := fun r => invStep (crcStep r false) = r ∧ crcStep (invStep r) false = r) (by decide) ?_ (by decide) r
  rintro r s ⟨h1, h2⟩ ⟨h3, h4⟩
  exact ⟨by rw [hx, invStep_xor, h1, h3], by rw [invStep_xor, hx, h2, h4]⟩

theorem zapp_succ (r : Half) (k : Nat) : zapp r (k + 1) = zapp (crcStep r false) k := rfl

theorem zapp_add (r : Half) (k m : Nat) : zapp r (k + m) = zapp (zapp r k) m := by
  induction k generalizing r with
  | zero => rw [Nat.zero_add]; rfl
  | succ k ih => rw [show k + 1 + m = k + m + 1 by omega, zapp_succ, zapp_succ, ih]

theorem inv_add (r : Half) (k m : Nat) : inv r (k + m) = inv (inv r k) m := by
  induction k generalizing r with
  | zero => rw [Nat.zero_add]; rfl
  | succ k ih => rw [show k + 1 + m = k + m + 1 by omega]; exact ih _

/-- Removing k zero bits undoes appending them (R183). -/
theorem inv_zapp (r : Half) (k : Nat) : inv (zapp r k) k = r := by
  induction k generalizing r with
  | zero => rfl
  | succ k ih =>
    rw [show k + 1 = 1 + k by omega, zapp_add, show 1 + k = k + 1 by omega, inv_add (m := 1), ih]
    exact (invStep_crcStep r).1

/-- Appending k zero bits undoes removing them (R183). -/
theorem zapp_inv (r : Half) (k : Nat) : zapp (inv r k) k = r := by
  induction k generalizing r with
  | zero => rfl
  | succ k ih =>
    rw [show k + 1 = 1 + k by omega, inv_add, show 1 + k = k + 1 by omega, zapp_add (m := 1), ih]
    exact (invStep_crcStep r).2

theorem crcStep_zero : crcStep 0#16 false = 0#16 := by decide

theorem zapp_zero (k : Nat) : zapp 0#16 k = 0#16 := by
  induction k with
  | zero => rfl
  | succ k ih => rw [zapp_succ, crcStep_zero, ih]

theorem zapp_xor (r s : Half) (k : Nat) : zapp (r ^^^ s) k = zapp r k ^^^ zapp s k := by
  induction k generalizing r s with
  | zero => rfl
  | succ k ih => rw [zapp_succ, zapp_succ, zapp_succ, ← ih, ← crcStep_xor]; rfl

/-- Bytes after a register are the bytes after 0, and the register with as many zero bits appended (R189). -/
theorem crcBitsOf_eq (n : Nat) (b : Byte) (r : Half) : crcBitsOf n b r = zapp r n ^^^ crcBitsOf n b 0#16 := by
  induction n generalizing r with
  | zero => simp [crcBitsOf, zapp]
  | succ n ih =>
    rw [crcBitsOf, crcBitsOf, ih, ih (crcStep 0#16 (b.getLsbD n)), zapp_succ, ← BitVec.xor_assoc, ← zapp_xor, ← crcStep_xor]
    simp

theorem crcFrom_cons (r : Half) (b : Byte) (bs : List Byte) : crcFrom r (b :: bs) = crcFrom (crcBitsOf 8 b r) bs := rfl

theorem crcFrom_eq (bs : List Byte) (r : Half) : crcFrom r bs = zapp r (8 * bs.length) ^^^ crcFrom 0#16 bs := by
  induction bs generalizing r with
  | nil => exact (BitVec.xor_zero).symm
  | cons b bs ih =>
    rw [crcFrom_cons, crcFrom_cons, ih, ih (crcBitsOf 8 b 0#16), crcBitsOf_eq, zapp_xor, List.length_cons,
      show 8 * (bs.length + 1) = 8 + 8 * bs.length by omega, zapp_add, BitVec.xor_assoc]

theorem crcFrom_append (r : Half) (xs ys : List Byte) : crcFrom r (xs ++ ys) = crcFrom (crcFrom r xs) ys := by
  induction xs generalizing r with
  | nil => rfl
  | cons x xs ih => exact ih _

/-- The CRC of one string after another (R181, R189). -/
theorem crc16_append (xs ys : List Byte) : crc16 (xs ++ ys) = zapp (crc16 xs) (8 * ys.length) ^^^ crc16 ys := by
  rw [crc16, crcFrom_append, crcFrom_eq]
  rfl

theorem crcBitsOf_xor (n : Nat) (b c : Byte) (r s : Half) : crcBitsOf n (b ^^^ c) (r ^^^ s) = crcBitsOf n b r ^^^ crcBitsOf n c s := by
  induction n generalizing r s with
  | zero => rfl
  | succ n ih => rw [crcBitsOf, crcBitsOf, crcBitsOf, ← ih, BitVec.getLsbD_xor, crcStep_xor]

/-- The CRC of a register's own two bytes is the register with 16 zero bits appended (R181, R189). -/
theorem crc16_two (c : Half) : crc16 [c.extractLsb' 8 8, c.extractLsb' 0 8] = zapp c 16 := by
  have e : ∀ c : Half, crc16 [c.extractLsb' 8 8, c.extractLsb' 0 8] = crcBitsOf 8 (c.extractLsb' 0 8) (crcBitsOf 8 (c.extractLsb' 8 8) 0#16) :=
    fun _ => rfl
  refine half_induct (P := fun c => crc16 [c.extractLsb' 8 8, c.extractLsb' 0 8] = zapp c 16) (by decide +kernel) ?_ (by decide +kernel) c
  intro r s hr hs
  rw [e] at hr hs ⊢
  rw [zapp_xor, ← hr, ← hs, BitVec.extractLsb'_xor, BitVec.extractLsb'_xor, ← crcBitsOf_xor, ← crcBitsOf_xor, BitVec.xor_self]

/-- A string followed by its own CRC has CRC 0 (R190). -/
theorem crc16_append_crc (xs : List Byte) :
    crc16 (xs ++ [(crc16 xs).extractLsb' 8 8, (crc16 xs).extractLsb' 0 8]) = 0#16 := by
  rw [crc16_append, crc16_two]
  simp

/-- The CRC1 value makes the CRC of itself and the data after it 0 (R189). -/
theorem crc16_inv_cons (ds : List Byte) {c : Half} (hc : c = inv (crc16 ds) (16 + 8 * ds.length)) :
    crc16 (c.extractLsb' 8 8 :: c.extractLsb' 0 8 :: ds) = 0#16 := by
  have h := crc16_append [c.extractLsb' 8 8, c.extractLsb' 0 8] ds
  rw [List.cons_append, List.cons_append, List.nil_append] at h
  rw [h, crc16_two, ← zapp_add, hc, zapp_inv]
  exact BitVec.xor_self

/-! ### The order of x -/

/-- The product of two registers as polynomials modulo P: a times x^i for each bit i of b, from bit `n - 1` down. -/
def polyMul (a b : Half) : Nat → Half
  | 0 => 0#16
  | n + 1 => (if b.getLsbD n then zapp a n else 0#16) ^^^ polyMul a b n

theorem polyMul_xor (a b c : Half) (n : Nat) : polyMul a (b ^^^ c) n = polyMul a b n ^^^ polyMul a c n := by
  induction n with
  | zero => exact (BitVec.xor_zero (x := 0#16)).symm
  | succ n ih =>
    rw [polyMul, polyMul, polyMul, ih, BitVec.getLsbD_xor]
    cases b.getLsbD n <;> cases c.getLsbD n <;> simp [BitVec.xor_assoc, BitVec.xor_comm, xor_left_comm]

/-- Appending n zero bits to r multiplies it by x^n (R182). -/
theorem zapp_eq_polyMul (n : Nat) (r : Half) : zapp r n = polyMul (zapp 1#16 n) r 16 := by
  refine half_induct (P := fun r => zapp r n = polyMul (zapp 1#16 n) r 16) ?_ ?_ ?_ r
  · rw [zapp_zero]; simp [polyMul]
  · intro r s hr hs
    rw [zapp_xor, polyMul_xor, hr, hs]
  · intro i
    have e : ∀ i : Fin 16, 1#16 <<< i.val = zapp 1#16 i.val := by decide
    rw [e i, ← zapp_add, Nat.add_comm, zapp_add, ← e i]
    generalize zapp 1#16 n = a
    obtain ⟨i, hi⟩ := i
    interval_cases i <;> simp [polyMul, zapp]

/-- x^(m + n) from x^m and x^n (R182). -/
theorem zapp_one_add (m n : Nat) : zapp 1#16 (m + n) = polyMul (zapp 1#16 n) (zapp 1#16 m) 16 := by
  rw [zapp_add, zapp_eq_polyMul]

/-- Where x^n = 1 modulo P, appending n zero bits changes no register (R193). -/
theorem zapp_period {n : Nat} (h : zapp 1#16 n = 1#16) (r : Half) : zapp r n = r := by
  refine half_induct (P := fun r => zapp r n = r) (zapp_zero n) (fun r s hr hs => by rw [zapp_xor, hr, hs]) (fun i => ?_) r
  have e : ∀ i : Fin 16, 1#16 <<< i.val = zapp 1#16 i.val := by decide
  rw [e i, ← zapp_add, Nat.add_comm, zapp_add, h]

/-! ### Finalizing a frame -/

/-- Zeroing a run of FBUF writes those bytes alone (R188). -/
theorem zeroFbuf_spec (n : Nat) {i : Nat} (s : State) (h : i + n ≤ 4096) :
    zeroFbuf s i n = { s with mem := (zeroFbuf s i n).mem } ∧ bytesKept (frameByte i (i + n)) s (zeroFbuf s i n) ∧
    (∀ j, i ≤ j → j < i + n → (zeroFbuf s i n).fbuf j = 0#8) ∧
    (Memory.wf s.mem = true → Memory.wf (zeroFbuf s i n).mem = true) := by
  induction n generalizing i s with
  | zero => exact ⟨rfl, fun _ _ => rfl, fun j h1 h2 => by omega, id⟩
  | succ n ih =>
    obtain ⟨h1, h2, h3, h4⟩ := ih (i := i + 1) (s.setFbuf i 0#8) (by omega)
    rw [zeroFbuf]
    refine ⟨?_, ?_, ?_, fun hw => h4 (writeCell_wf _ _ hw)⟩
    · rw [h1]; rfl
    · intro a ha
      simp only [frameByte, decide_eq_false_iff_not, not_and_or, Nat.not_le, Nat.not_lt] at ha
      rw [h2 a (by simp only [frameByte, decide_eq_false_iff_not]; omega), readByte_setFbuf_of_ne (by omega)]
    · intro j hj1 hj2
      by_cases hj : j = i
      · subst hj
        rw [State.fbuf, h2 _ (by simp only [frameByte, decide_eq_false_iff_not]; omega)]
        exact fbuf_setFbuf_self (by omega) s 0#8
      · exact h3 j (by omega) (by omega)

/-- Placing a CRC writes its two bytes alone, the high one first (R188). -/
theorem putCrc_spec {i : Nat} (s : State) (c : Half) (h : i + 1 < 4096) :
    putCrc s i c = { s with mem := (putCrc s i c).mem } ∧ bytesKept (frameByte i (i + 2)) s (putCrc s i c) ∧
    (putCrc s i c).fbuf i = c.extractLsb' 8 8 ∧ (putCrc s i c).fbuf (i + 1) = c.extractLsb' 0 8 ∧
    (Memory.wf s.mem = true → Memory.wf (putCrc s i c).mem = true) := by
  have e : putCrc s i c = (s.setFbuf i (c.extractLsb' 8 8)).setFbuf (i + 1) (c.extractLsb' 0 8) := rfl
  refine ⟨rfl, ?_, ?_, ?_, fun hw => writeCell_wf _ _ (writeCell_wf _ _ hw)⟩
  · intro a ha
    simp only [frameByte, decide_eq_false_iff_not, not_and_or, Nat.not_le, Nat.not_lt] at ha
    rw [e, readByte_setFbuf_of_ne (by omega), readByte_setFbuf_of_ne (by omega)]
  · rw [e, fbuf_setFbuf_of_ne (by omega), fbuf_setFbuf_self (by omega)]
  · rw [e, fbuf_setFbuf_self h]

/-- The bytes of FBUF in a range depend on those bytes alone. -/
theorem fbufBytes_congr {s t : State} {a m : Nat} (h : ∀ j, a ≤ j → j < a + m → t.fbuf j = s.fbuf j) :
    t.fbufBytes a m = s.fbufBytes a m :=
  List.map_congr_left fun j hj => h (a + j) (by omega) (by have := List.mem_range.1 hj; omega)

theorem fbufBytes_length (s : State) (a m : Nat) : (s.fbufBytes a m).length = m := by simp [State.fbufBytes]

theorem fbufBytes_succ (s : State) (a m : Nat) : s.fbufBytes a (m + 1) = s.fbuf a :: s.fbufBytes (a + 1) m := by
  simp only [State.fbufBytes, List.range_succ_eq_map, List.map_cons, List.map_map, Nat.add_zero, List.cons.injEq, true_and]
  exact List.map_congr_left fun j _ => congrArg s.fbuf (by simp only [Nat.succ_eq_add_one]; omega)

theorem fbufBytes_append (s : State) (a m n : Nat) : s.fbufBytes a (m + n) = s.fbufBytes a m ++ s.fbufBytes (a + m) n := by
  induction m generalizing a with
  | zero => rw [Nat.zero_add]; rfl
  | succ m ih => rw [show m + 1 + n = m + n + 1 by omega, fbufBytes_succ, fbufBytes_succ, ih, List.cons_append,
      show a + 1 + m = a + (m + 1) by omega]

/-- The five-eighths point of a legal frame lies after CRC1 and before the last two bytes (R184). -/
theorem fs58_bounds {fs : Nat} (h : 4 ≤ fs) : fs58 fs = fs / 2 + fs / 8 ∧ 2 ≤ fs58 fs ∧ 2 * fs58 fs ≤ 2 * fs - 2 := by
  have e : fs58 fs = fs / 2 + fs / 8 := rfl
  omega

/-- Everything FINAL can do (R188): a refused frame size, fields that do not fit, or the finished frame. -/
theorem finalBody_cases (s : State) :
    ((s.fsw.toNat < 4 ∨ 2048 < s.fsw.toNat) ∧ finalBody s = .fail { s with frameBytes := 0#16 } .badFs (s.fsw.zeroExtend 32)) ∨
    (4 ≤ s.fsw.toNat ∧ s.fsw.toNat ≤ 2048 ∧ 2 * s.fsw.toNat - 2 < fieldBytes s ∧
      finalBody s = .fail { s with frameBytes := 0#16 } .frmOvf (BitVec.ofNat 32 (fieldBytes s))) ∨
    (4 ≤ s.fsw.toNat ∧ s.fsw.toNat ≤ 2048 ∧ fieldBytes s ≤ 2 * s.fsw.toNat - 2 ∧
      finalBody s = .ok (finishFrame { s with frameBytes := 0#16 } s.fsw.toNat)) := by
  have h1 : Config.fswMin = 4 := rfl
  have h2 : Config.fswMax = 2048 := rfl
  rw [finalBody, h1, h2]
  by_cases ha : s.fsw.toNat < 4 ∨ s.fsw.toNat > 2048
  · rw [if_pos ha]; exact .inl ⟨by omega, rfl⟩
  · rw [if_neg ha]
    by_cases hb : fieldBytes s > 2 * s.fsw.toNat - 2
    · rw [if_pos hb]; exact .inr (.inl ⟨by omega, by omega, hb, rfl⟩)
    · rw [if_neg hb]; exact .inr (.inr ⟨by omega, by omega, by omega, rfl⟩)

/-- What a finished frame holds (R188): the bits written before, flushed and padded with zeros, CRC1 at bytes 2 and 3 over bytes 4 up to the
five-eighths point, CRC2 in the last two bytes over the rest; no other byte is touched. -/
theorem finishFrame_spec (s : State) {fs : Nat} (h4 : 4 ≤ fs) (h2048 : fs ≤ 2048) (hnb : fieldBytes s ≤ 2 * fs - 2) :
    finishFrame s fs = { s with
      mem := (finishFrame s fs).mem, crc1 := (finishFrame s fs).crc1, crc2 := (finishFrame s fs).crc2
      frameBytes := BitVec.ofNat 16 (2 * fs), bitpos := BitVec.ofNat 32 (16 * fs) } ∧
    (∀ p, p < s.bitpos.toNat → p / 8 ≠ 2 → p / 8 ≠ 3 → streamBit (finishFrame s fs) p = streamBit s p) ∧
    (∀ p, s.bitpos.toNat ≤ p → p < 8 * fieldBytes s → p / 8 ≠ 2 → p / 8 ≠ 3 → streamBit (finishFrame s fs) p = false) ∧
    (∀ j, fieldBytes s ≤ j → j < 2 * fs - 2 → j ≠ 2 → j ≠ 3 → (finishFrame s fs).fbuf j = 0#8) ∧
    (finishFrame s fs).crc1 = inv (crc16 ((finishFrame s fs).fbufBytes 4 (2 * fs58 fs - 4))) (16 * fs58 fs - 16) ∧
    (finishFrame s fs).fbuf 2 = (finishFrame s fs).crc1.extractLsb' 8 8 ∧
    (finishFrame s fs).fbuf 3 = (finishFrame s fs).crc1.extractLsb' 0 8 ∧
    (finishFrame s fs).crc2 = crc16 ((finishFrame s fs).fbufBytes (2 * fs58 fs) (2 * fs - 2 - 2 * fs58 fs)) ∧
    (finishFrame s fs).fbuf (2 * fs - 2) = (finishFrame s fs).crc2.extractLsb' 8 8 ∧
    (finishFrame s fs).fbuf (2 * fs - 1) = (finishFrame s fs).crc2.extractLsb' 0 8 ∧
    bytesKept (fun a => frameByte 2 4 a || frameByte (s.bitpos.toNat / 8) (2 * fs) a) s (finishFrame s fs) ∧
    (Memory.wf s.mem = true → Memory.wf (finishFrame s fs).mem = true) := by
  obtain ⟨-, hf2, hf⟩ := fs58_bounds h4
  have hpos : s.bitpos.toNat ≤ 32768 := by rw [fieldBytes] at hnb; omega
  have hnb' : fieldBytes s = (s.bitpos.toNat + 7) / 8 := rfl
  have hw := flushWriter_wrote hpos
  have hk := flushWriter_keeps s
  obtain ⟨z1, z2, z3, z4⟩ := zeroFbuf_spec (2 * fs - 2 - fieldBytes s) (i := fieldBytes s) (flushWriter s) (by omega)
  have hpad : padFrame s fs = zeroFbuf (flushWriter s) (fieldBytes s) (2 * fs - 2 - fieldBytes s) := rfl
  rw [← hpad] at z1 z2 z3 z4
  obtain ⟨p1, p2, p3, p4, p5⟩ := putCrc_spec (i := 2) (padFrame s fs) (crc1Of (padFrame s fs) (fs58 fs)) (by omega)
  have hp1 : placeCrc1 (padFrame s fs) fs = putCrc (padFrame s fs) 2 (crc1Of (padFrame s fs) (fs58 fs)) := rfl
  rw [← hp1] at p1 p2 p3 p4 p5
  obtain ⟨q1, q2, q3, q4, q5⟩ := putCrc_spec (i := 2 * fs - 2) (placeCrc1 (padFrame s fs) fs)
    (crc2Of (placeCrc1 (padFrame s fs) fs) (fs58 fs) fs) (by omega)
  have hp2 : placeCrc2 (placeCrc1 (padFrame s fs) fs) fs = putCrc (placeCrc1 (padFrame s fs) fs) (2 * fs - 2)
    (crc2Of (placeCrc1 (padFrame s fs) fs) (fs58 fs) fs) := rfl
  rw [← hp2] at q1 q2 q3 q4 q5
  have hfin : ∀ a, (finishFrame s fs).readByte a = (placeCrc2 (placeCrc1 (padFrame s fs) fs) fs).readByte a := fun _ => rfl
  have hc1 : (finishFrame s fs).crc1 = crc1Of (padFrame s fs) (fs58 fs) := rfl
  have hc2 : (finishFrame s fs).crc2 = crc2Of (placeCrc1 (padFrame s fs) fs) (fs58 fs) fs := rfl
  have hq : ∀ j, j < 2 * fs - 2 → (finishFrame s fs).fbuf j = (placeCrc1 (padFrame s fs) fs).fbuf j := fun j hj => by
    rw [State.fbuf, hfin, q2 _ (by simp only [frameByte, decide_eq_false_iff_not]; omega)]; rfl
  have hp : ∀ j, j ≠ 2 → j ≠ 3 → (placeCrc1 (padFrame s fs) fs).fbuf j = (padFrame s fs).fbuf j := fun j h2 h3 => by
    rw [State.fbuf, p2 _ (by simp only [frameByte, decide_eq_false_iff_not]; omega)]; rfl
  have hz : ∀ j, j < fieldBytes s → (padFrame s fs).fbuf j = (flushWriter s).fbuf j := fun j hj => by
    rw [State.fbuf, z2 _ (by simp only [frameByte, decide_eq_false_iff_not]; omega)]; rfl
  have hbit : ∀ p, p < 8 * fieldBytes s → p / 8 ≠ 2 → p / 8 ≠ 3 →
      streamBit (finishFrame s fs) p = streamBit (flushWriter s) p := fun p h1 h2 h3 => by
    rw [streamBit, hq _ (by omega), hp _ h2 h3, hz _ (by omega)]; rfl
  refine ⟨?_, ?_, ?_, ?_, ?_, ?_, ?_, ?_, ?_, ?_, ?_, fun hwf => q5 (p5 (z4 (hk.wf hwf)))⟩
  · have hfl := hk.frame
    have e : finishFrame s fs = { placeCrc2 (placeCrc1 (padFrame s fs) fs) fs with
      crc1 := (finishFrame s fs).crc1, crc2 := (finishFrame s fs).crc2
      frameBytes := BitVec.ofNat 16 (2 * fs), bitpos := BitVec.ofNat 32 (16 * fs) } := rfl
    have m : (finishFrame s fs).mem = (placeCrc2 (placeCrc1 (padFrame s fs) fs) fs).mem := rfl
    rw [m]
    generalize (finishFrame s fs).crc1 = c1 at e
    generalize (finishFrame s fs).crc2 = c2 at e
    rw [e]
    generalize placeCrc2 (placeCrc1 (padFrame s fs) fs) fs = S3 at q1 ⊢
    generalize placeCrc1 (padFrame s fs) fs = S2 at p1 q1 ⊢
    generalize padFrame s fs = S1 at z1 p1 ⊢
    generalize flushWriter s = S0 at z1 hfl ⊢
    rw [q1, p1, z1, hfl]
  · intro p h1 h2 h3
    rw [hbit p (by omega) h2 h3, hw.before p h1]
  · intro p h1 h2 h3 h4'
    rw [hbit p h2 h3 h4']
    have := hw.here (p - s.bitpos.toNat) (by rw [List.length_replicate]; omega)
    rw [show s.bitpos.toNat + (p - s.bitpos.toNat) = p by omega, List.getElem?_replicate, if_pos (by omega)] at this
    exact Option.some.inj this
  · intro j h1 h2 h3 h4'
    rw [hq j h2, hp j h3 h4', z3 j h1 (by omega)]
  · rw [hc1, crc1Of, fbufBytes_congr (t := finishFrame s fs) (s := padFrame s fs) fun j h1 h2 => by rw [hq j (by omega), hp j (by omega) (by omega)]]
  · rw [hq 2 (by omega), p3, hc1]
  · rw [hq 3 (by omega), p4, hc1]
  · rw [hc2, crc2Of, fbufBytes_congr (t := finishFrame s fs) (s := placeCrc1 (padFrame s fs) fs) fun j h1 h2 => hq j (by omega)]
  · rw [State.fbuf, hfin, hc2]; exact q3
  · rw [State.fbuf, hfin, hc2, show 2 * fs - 1 = 2 * fs - 2 + 1 by omega]; exact q4
  · intro a ha
    simp only [Bool.or_eq_false_iff, frameByte, decide_eq_false_iff_not, not_and_or, Nat.not_le, Nat.not_lt] at ha
    rw [hfin, q2 _ (by simp only [frameByte, decide_eq_false_iff_not]; omega),
      p2 _ (by simp only [frameByte, decide_eq_false_iff_not]; omega),
      z2 _ (by simp only [frameByte, decide_eq_false_iff_not]; omega), hw.bytes]
    rw [writtenByte_false_iff, List.length_replicate]
    omega

end Sys2Proof.Machine
end

