-- ==== Sys2Proof/Laws/HostPort.lean ====
section
/-!
SUPPORT. The host's side of the window: where an access lands, all that a host access can do, and what a step does with each input.
-/
namespace Sys2Proof.Machine

open Sys2Proof

/-! ### Where an access lands -/

theorem regOfOffset_offset (r : Reg) : regOfOffset r.offset = some r := by cases r <;> rfl

/-- The registers end at offset 0x60 (R27). -/
theorem regOfOffset_eq_none {a : Nat} (h : 0x64 ≤ a) : regOfOffset a = none := by
  unfold regOfOffset
  split <;> first | omega | rfl

theorem offset_of_regOfOffset {a : Nat} {r : Reg} (h : regOfOffset a = some r) : a = r.offset := by
  unfold regOfOffset at h
  split at h <;> first | (injection h with h; subst h; rfl) | cases h

/-- The entries of the window, the sizes of the memories written out (R71). -/
theorem isEntry_eq (a : Nat) : isEntry a =
    (inRange coefBase 0x1800 a || inRange expmBase 0x1800 a || inRange bapmBase 0x1800 a || inRange slotBase 0x1800 a ||
      inRange tdwinBase 0x0800 a || inRange tdnewBase 0x0400 a || inTdtail a) := rfl

/-- The permitted accesses: 32 bits at a multiple of 4; no offset lies outside the window (R72). -/
theorem accessPlace_eq (size : AccessSize) (off : BitVec 16) :
    accessPlace size off = if size = .b32 ∧ off.toNat % 4 = 0 then placeOf off.toNat else none := by
  have hb : (size.bits = some Config.accessBits ∧ off.toNat % (Config.accessBits / 8) = 0 ∧ off.toNat < Config.windowBytes) ↔
      (size = .b32 ∧ off.toNat % 4 = 0) := by
    have h1 : size.bits = some Config.accessBits ↔ size = .b32 := by cases size <;> decide
    have h2 : off.toNat < Config.windowBytes := off.isLt
    rw [h1, show Config.accessBits / 8 = 4 from rfl]
    tauto
  simp only [accessPlace, hb]

theorem entry_ge {a : Nat} (h : isEntry a = true) : 0x2000 ≤ a ∧ a < 0xD800 := by
  simp only [isEntry_eq, Bool.or_eq_true, inRange_iff, inTdtail_eq, coefBase, expmBase, bapmBase, slotBase, tdwinBase, tdnewBase,
    tdtailBase] at h
  omega

/-- An aligned 32-bit access at a register's offset names the register (R27, R72). -/
theorem accessPlace_reg (r : Reg) : accessPlace .b32 (BitVec.ofNat 16 r.offset) = some (.reg r) := by cases r <;> decide

/-- An aligned 32-bit access at an entry's offset names the entry (R71, R72). -/
theorem accessPlace_entry {off : BitVec 16} (h4 : off.toNat % 4 = 0) (he : isEntry off.toNat = true) :
    accessPlace .b32 off = some (.entry off.toNat) := by
  rw [accessPlace_eq, if_pos ⟨rfl, h4⟩, placeOf, regOfOffset_eq_none (by have := entry_ge he; omega)]
  simp only
  rw [if_pos he]

/-- An aligned 32-bit access at an offset of FBUF names its four bytes (R71, R72). -/
theorem accessPlace_frame {off : BitVec 16} (h4 : off.toNat % 4 = 0) (hf : inRange fbufBase 0x1000 off.toNat = true) :
    accessPlace .b32 off = some (.frame off.toNat) := by
  have hr := (inRange_iff _ _ _).1 hf
  rw [fbufBase] at hr
  have he : ¬ isEntry off.toNat = true := fun he => by have := entry_ge he; omega
  rw [accessPlace_eq, if_pos ⟨rfl, h4⟩, placeOf, regOfOffset_eq_none (by omega)]
  simp only
  exact (if_neg he).trans (if_pos hf)

/-- Any other access names nothing (R72, R73). -/
theorem accessPlace_eq_none {size : AccessSize} {off : BitVec 16} (h : size ≠ .b32 ∨ off.toNat % 4 ≠ 0 ∨
    (0x64 ≤ off.toNat ∧ isEntry off.toNat = false ∧ inRange fbufBase 0x1000 off.toNat = false)) : accessPlace size off = none := by
  rw [accessPlace_eq]
  split
  · rename_i hc
    rcases h with h | h | ⟨h1, h2, h3⟩
    · exact absurd hc.1 h
    · exact absurd hc.2 h
    · rw [placeOf, regOfOffset_eq_none h1]; simp [h2, show inRange fbufBase Config.fbufBytes off.toNat = false from h3]
  · rfl

/-- An access that names a register is a 32-bit access at its offset. -/
theorem accessPlace_eq_reg {size : AccessSize} {off : BitVec 16} {r : Reg} (h : accessPlace size off = some (.reg r)) :
    size = .b32 ∧ off.toNat = r.offset := by
  rw [accessPlace_eq] at h
  split at h
  · rename_i hc
    refine ⟨hc.1, ?_⟩
    unfold placeOf at h
    split at h
    · rename_i r' hr
      injection h with h
      injection h with h
      subst h
      exact offset_of_regOfOffset hr
    · split at h
      · cases h
      · split at h <;> cases h
  · cases h

/-- The registers from QIN to CRCVAL and the memories are the engine's while BUSY = 1 (R27, R66). -/
theorem accessPlace_engineOwned {off : BitVec 16} (h4 : off.toNat % 4 = 0)
    (h : (0x1C ≤ off.toNat ∧ off.toNat < 0x64) ∨ isEntry off.toNat = true ∨ inRange fbufBase 0x1000 off.toNat = true) :
    ∃ p, accessPlace .b32 off = some p ∧ p.engineOwned = true := by
  rcases h with ⟨h1, h2⟩ | h | h
  · have e : accessPlace .b32 off = placeOf off.toNat := by rw [accessPlace_eq, if_pos ⟨rfl, h4⟩]
    rw [e]
    generalize off.toNat = a at *
    interval_cases a <;> first | exact absurd h4 (by decide) | exact ⟨_, rfl, rfl⟩
  · exact ⟨_, accessPlace_entry h4 h, rfl⟩
  · exact ⟨_, accessPlace_frame h4 h, rfl⟩

/-- The stored bits of an entry, by its memory (R76). -/
theorem wordMask_entry {a : Nat} (h4 : a % 4 = 0) (he : isEntry a = true) : wordMask a =
    (if inRange expmBase 0x1800 a then 0x000000FF#32
      else if inRange bapmBase 0x1800 a then 0x0000000F#32
      else if inRange slotBase 0x1800 a then 0x00F1FFFF#32
      else 0xFFFFFFFF#32) := by
  have rng : ∀ base n k, base % 4 = 0 → n % 4 = 0 → k < 4 → inRange base n (a + k) = inRange base n a := by
    intro base n k hb hn hk
    rw [Bool.eq_iff_iff, inRange_iff, inRange_iff]
    omega
  have e : ∀ k, k < 4 → storeMask (a + k) =
      if inRange coefBase 0x1800 a then 0xFF#8
      else if inRange expmBase 0x1800 a then (if k = 0 then 0xFF#8 else 0x00#8)
      else if inRange bapmBase 0x1800 a then (if k = 0 then 0x0F#8 else 0x00#8)
      else if inRange slotBase 0x1800 a then (if k = 3 then 0x00#8 else if k = 2 then 0xF1#8 else 0xFF#8)
      else if inRange tdwinBase 0x0800 a then 0xFF#8
      else if inRange tdnewBase 0x0400 a then 0xFF#8
      else if inTdtail a then 0xFF#8
      else if inRange fbufBase 0x1000 a then 0xFF#8
      else 0x00#8 := by
    intro k hk
    rw [storeMask_eq, inTdtail_eq, inTdtail_eq]
    rw [rng coefBase _ k rfl rfl hk, rng expmBase _ k rfl rfl hk, rng bapmBase _ k rfl rfl hk, rng slotBase _ k rfl rfl hk,
      rng tdwinBase _ k rfl rfl hk, rng tdnewBase _ k rfl rfl hk, rng tdtailBase _ k rfl rfl hk, rng fbufBase _ k rfl rfl hk,
      show (a + k) % 4 = k by omega]
  have e0 := e 0 (by omega)
  rw [Nat.add_zero] at e0
  rw [wordMask, e0, e 1 (by omega), e 2 (by omega), e 3 (by omega)]
  have apart : ∀ b c n m, b + n ≤ c → inRange b n a = true → inRange c m a = false := by
    intro b c n m h h1
    rw [inRange_iff] at h1
    rw [inRange_false_iff]
    omega
  by_cases h1 : inRange coefBase 0x1800 a = true
  · rw [apart _ expmBase _ 0x1800 (by decide) h1, apart _ bapmBase _ 0x1800 (by decide) h1,
      apart _ slotBase _ 0x1800 (by decide) h1]
    simp [h1]
  · by_cases h2 : inRange expmBase 0x1800 a = true
    · simp [h1, h2]
    · by_cases h3 : inRange bapmBase 0x1800 a = true
      · simp [h1, h2, h3]
      · by_cases h4 : inRange slotBase 0x1800 a = true
        · simp [h1, h2, h3, h4]
        · by_cases h5 : inRange tdwinBase 0x0800 a = true
          · simp [h1, h2, h3, h4, h5]
          · by_cases h6 : inRange tdnewBase 0x0400 a = true
            · simp [h1, h2, h3, h4, h5, h6]
            · by_cases h7 : inTdtail a = true
              · simp [h1, h2, h3, h4, h5, h6, h7]
              · simp [isEntry_eq, h1, h2, h3, h4, h5, h6, h7] at he

/-! ### Accesses -/

/-- Everything a host read can do (R72, R73, R84, R216, R235). -/
theorem hostRead_cases (s : State) (size : AccessSize) (off : BitVec 16) :
    (s.rst = true → s.hostRead size off = s.respond (.read 0#32 false)) ∧
    (s.rst = false → accessPlace size off = none →
      s.hostRead size off = (s.raise .bus (busInfo size off false)).respond (.read 0#32 true)) ∧
    (∀ p, s.rst = false → accessPlace size off = some p → s.busy = true → p.engineOwned = true →
      s.hostRead size off = (s.raise .busyAcc (busyInfo off false)).respond (.read 0#32 false)) ∧
    (∀ p, s.rst = false → accessPlace size off = some p → (s.busy = false ∨ p.engineOwned = false) →
      s.hostRead size off = s.respond (.read (s.readPlace p) false)) := by
  refine ⟨fun h => ?_, fun h hp => ?_, fun p h hp hb ho => ?_, fun p h hp hb => ?_⟩ <;> unfold State.hostRead <;> rw [h]
  · rfl
  · rw [hp]; rfl
  · simp only [hp, hb, ho]; rfl
  · have : (s.busy && p.engineOwned) = false := by rcases hb with hb | hb <;> simp [hb]
    simp only [hp, this]; rfl

/-- Everything a host write can do (R72, R73, R84, R216, R235). -/
theorem hostWrite_cases (s : State) (size : AccessSize) (off : BitVec 16) (v : Word) :
    (s.rst = true → s.hostWrite size off v = s.respond (.write false)) ∧
    (s.rst = false → accessPlace size off = none →
      s.hostWrite size off v = (s.raise .bus (busInfo size off true)).respond (.write true)) ∧
    (∀ p, s.rst = false → accessPlace size off = some p → s.busy = true → p.engineOwned = true →
      s.hostWrite size off v = (s.raise .busyAcc (busyInfo off true)).respond (.write false)) ∧
    (∀ p, s.rst = false → accessPlace size off = some p → (s.busy = false ∨ p.engineOwned = false) →
      s.hostWrite size off v = (s.writePlace p v).respond (.write false)) := by
  refine ⟨fun h => ?_, fun h hp => ?_, fun p h hp hb ho => ?_, fun p h hp hb => ?_⟩ <;> unfold State.hostWrite <;> rw [h]
  · rfl
  · rw [hp]; rfl
  · simp only [hp, hb, ho]; rfl
  · have : (s.busy && p.engineOwned) = false := by rcases hb with hb | hb <;> simp [hb]
    simp only [hp, this]; rfl

/-- Acceptance (R213). -/
theorem accept_cases (s : State) (w : Word) :
    (∀ i, decode w = .ok i → s.accept w = { s with lastCmd := w, done := false, bswenSampled := s.bswen, busy := true }) ∧
    (∀ e, decode w = .error e → s.accept w =
      { ({ s with lastCmd := w, bswenSampled := s.bswen } : State).raise (DecodeError.toCode e) w with done := true }) := by
  refine ⟨fun i h => ?_, fun e h => ?_⟩
  · simp only [State.accept, h]
  · simp only [State.accept, h]

/-- A soft reset leaves the registers and the model's own fields of a reset machine (R65, R237). -/
theorem softReset_eq (s : State) : s.softReset = { State.reset with
    mem := s.softReset.mem, memDraw := s.softReset.memDraw, draws := s.softReset.draws, rst := s.softReset.rst
    inputs := s.softReset.inputs, resp := s.softReset.resp } := rfl

/-- What an abort draws: nothing while idle, else the pending command's targets (R238). -/
theorem abortPending_cases (s : State) :
    s.abortPending = s ∨ ∃ i, s.busy = true ∧ decode s.lastCmd = .ok i ∧ s.abortPending = s.drawAt (abortTargets i s) := by
  unfold State.abortPending
  split
  · rename_i hb
    split
    · rename_i i hi
      exact .inr ⟨i, hb, hi, rfl⟩
    · exact .inl rfl
  · exact .inl rfl

/-! ### Steps -/

theorem step_of_nil {s : State} (h : s.inputs = []) : step s = engineStep s := by
  unfold step
  rw [h]

theorem step_of_engine {s : State} {rest : List Input} (h : s.inputs = .engine :: rest) :
    step s = engineStep { s with inputs := rest } := by
  unfold step
  rw [h]

theorem step_of_read {s : State} {size : AccessSize} {off : BitVec 16} {rest : List Input} (h : s.inputs = .read size off :: rest) :
    step s = .next (({ s with inputs := rest } : State).hostRead size off) := by
  unfold step
  rw [h]

theorem step_of_write {s : State} {size : AccessSize} {off : BitVec 16} {v : Word} {rest : List Input}
    (h : s.inputs = .write size off v :: rest) :
    step s = .next (({ s with inputs := rest } : State).hostWrite size off v) := by
  unfold step
  rw [h]

theorem step_of_rst {s : State} {level : Bool} {rest : List Input} (h : s.inputs = .rst level :: rest) :
    step s = .next (({ s with inputs := rest } : State).setRst level) := by
  unfold step
  rw [h]

theorem decode?_eq_some {w : Word} {i : Instr} : decode? w = some i ↔ decode w = .ok i := by
  unfold decode?
  cases decode w <;> simp

/-- The engine's turn, while a legal command is pending (R214). -/
theorem engineStep_of_busy {s : State} {i : Instr} (hr : s.rst = false) (hb : s.busy = true) (hd : decode s.lastCmd = .ok i) :
    engineStep s = exec i s := by
  have h : decode? s.fetchWord = some i := decode?_eq_some.2 hd
  rw [engineStep, hr, hb, h]
  rfl

end Sys2Proof.Machine
end

