-- ==== Sys2Proof/Laws/Quantizer.lean ====
section
/-!
SUPPORT. The quantizer: the range of a symmetric code, and all that one element, and a run of elements, can do.
-/
namespace Sys2Proof.Machine

open Sys2Proof

/-! ### Symmetric codes -/

/-- SYMQ in terms of one floor: q of the scaled coefficient x = L * c * 2^e / 2^24 (R133). -/
theorem symq_eq (c : Int) {e : Nat} (L : Nat) (h : e ≤ 24) :
    symq c e L = ((L : Int) * c * 2 ^ e / 2 ^ 24 + 1) / 2 + ((L / 2 : Nat) : Int) := by
  have hf : Config.fixFrac = 24 := rfl
  rw [symq, hf, Int.shiftRight_eq_div_pow, Int.shiftRight_eq_div_pow]
  have key : ((L : Int) * c) / ((2 ^ (24 - e) : Nat) : Int) = (L : Int) * c * 2 ^ e / 2 ^ 24 := by
    have h24 : (2 : Int) ^ 24 = 2 ^ (24 - e) * 2 ^ e := by rw [← Int.pow_add]; congr 1; omega
    rw [h24, Int.mul_ediv_mul_of_pos_left _ _ (by positivity)]
    norm_cast
  rw [key]
  norm_num

/-- The symmetric range condition, for every odd level count (R135). -/
theorem symqInRange_iff (c : Int) {e L : Nat} (he : e ≤ 24) (hL : L % 2 = 1) :
    symqInRange (symq c e L) L = true ↔ (-(2 ^ 24 : Int) ≤ c * 2 ^ e ∧ c * 2 ^ e < 2 ^ 24) := by
  rw [symqInRange, decide_eq_true_eq, symq_eq c L he]
  obtain ⟨h, rfl⟩ : ∃ h, L = 2 * h + 1 := ⟨L / 2, by omega⟩
  have h2 : ((2 * h + 1) / 2 : Nat) = h := by omega
  rw [h2]
  generalize hy : c * 2 ^ e = y
  have hx : ((2 * h + 1 : Nat) : Int) * c * 2 ^ e = ((2 * h + 1 : Nat) : Int) * y := by rw [← hy]; ring
  rw [hx]
  generalize hX : ((2 * h + 1 : Nat) : Int) * y / 2 ^ 24 = X
  have lo : (0 ≤ (X + 1) / 2 + (h : Int)) ↔ -((2 * h + 1 : Nat) : Int) ≤ X := by push_cast; omega
  have hi : ((X + 1) / 2 + (h : Int) ≤ ((2 * h + 1 : Nat) : Int) - 1) ↔ X < ((2 * h + 1 : Nat) : Int) := by push_cast; omega
  rw [lo, hi, ← hX, Int.le_ediv_iff_mul_le (by norm_num), Int.ediv_lt_iff_lt_mul (by norm_num)]
  have hpos : (0 : Int) < ((2 * h + 1 : Nat) : Int) := by push_cast; omega
  constructor
  · rintro ⟨h1, h2⟩
    constructor
    · by_contra hc
      have : ((2 * h + 1 : Nat) : Int) * y < ((2 * h + 1 : Nat) : Int) * -2 ^ 24 := by
        exact Int.mul_lt_mul_of_pos_left (by omega) hpos
      linarith
    · exact lt_of_mul_lt_mul_left (by linarith) hpos.le
  · rintro ⟨h1, h2⟩
    constructor
    · have := Int.mul_le_mul_of_nonneg_left h1 hpos.le
      linarith
    · have := Int.mul_lt_mul_of_pos_left h2 hpos
      linarith

/-! ### Group state -/

@[simp] theorem setCnt_mem (s : State) (g : Grp) (n : Nat) : (s.setCnt g n).mem = s.mem := by cases g <;> rfl
@[simp] theorem setHead_mem (s : State) (g : Grp) (n : Nat) : (s.setHead g n).mem = s.mem := by cases g <;> rfl
@[simp] theorem setCnt_memDraw (s : State) (g : Grp) (n : Nat) : (s.setCnt g n).memDraw = s.memDraw := by cases g <;> rfl
@[simp] theorem setHead_memDraw (s : State) (g : Grp) (n : Nat) : (s.setHead g n).memDraw = s.memDraw := by cases g <;> rfl
@[simp] theorem readByte_setCnt (s : State) (g : Grp) (n a : Nat) : (s.setCnt g n).readByte a = s.readByte a :=
  readByte_congr (by simp) (by simp) a
@[simp] theorem readByte_setHead (s : State) (g : Grp) (n a : Nat) : (s.setHead g n).readByte a = s.readByte a :=
  readByte_congr (by simp) (by simp) a
@[simp] theorem slot_setCnt (s : State) (g : Grp) (n i : Nat) : (s.setCnt g n).slot i = s.slot i := slot_congr fun _ _ => by simp
@[simp] theorem slot_setHead (s : State) (g : Grp) (n i : Nat) : (s.setHead g n).slot i = s.slot i := slot_congr fun _ _ => by simp
@[simp] theorem head_setCnt (s : State) (g g' : Grp) (n : Nat) : (s.setCnt g n).head g' = s.head g' := by cases g <;> cases g' <;> rfl
@[simp] theorem cnt_setHead (s : State) (g g' : Grp) (n : Nat) : (s.setHead g n).cnt g' = s.cnt g' := by cases g <;> cases g' <;> rfl

/-- A group's size is 3, 3 or 2 (R131). -/
theorem Grp.size_eq (g : Grp) : g.size = match g with | .g1 => 3 | .g2 => 3 | .g4 => 2 := by cases g <;> rfl

/-- A counter below its group's size is held whole. -/
theorem cnt_setCnt_self (s : State) (g : Grp) {n : Nat} (h : n < g.size) : (s.setCnt g n).cnt g = n := by
  rw [Grp.size_eq] at h
  cases g <;> simp [State.cnt, State.setCnt] <;> simp at h <;> omega

theorem cnt_setCnt_of_ne (s : State) {g g' : Grp} (h : g ≠ g') (n : Nat) : (s.setCnt g n).cnt g' = s.cnt g' := by
  cases g <;> cases g' <;> first | rfl | exact absurd rfl h

/-- A slot index is held whole (R39). -/
theorem head_setHead_self (s : State) (g : Grp) {i : Nat} (h : i < 1536) : (s.setHead g i).head g = i := by
  cases g <;> simp [State.head, State.setHead] <;> omega

theorem head_setHead_of_ne (s : State) {g g' : Grp} (h : g ≠ g') (n : Nat) : (s.setHead g n).head g' = s.head g' := by
  cases g <;> cases g' <;> first | rfl | exact absurd rfl h

/-- The next counter value is below the group's size. -/
theorem Grp.next_lt (g : Grp) (n : Nat) : (n + 1) % g.size < g.size := Nat.mod_lt _ (by rw [Grp.size_eq]; cases g <;> decide)

/-! ### One element -/

/-- A state but for what the quantizer may write (R202): the memories, QOUT, the counters and the heads. -/
def quantFrame (s t : State) : Prop :=
  t = { s with
    mem := t.mem, qout := t.qout, cnt1 := t.cnt1, cnt2 := t.cnt2, cnt4 := t.cnt4, head1 := t.head1, head2 := t.head2
    head4 := t.head4 }

theorem quantFrame.refl (s : State) : quantFrame s s := rfl

theorem quantFrame.trans {s t u : State} (h : quantFrame s t) (h' : quantFrame t u) : quantFrame s u := by
  unfold quantFrame at *
  rw [h'] ; rw [h]

theorem groupSlots_frame (s : State) (g : Grp) (i q : Nat) : groupSlots s g i q = { s with mem := (groupSlots s g i q).mem } := by
  unfold groupSlots
  split <;> rfl

/-- What a group element leaves: the counter advanced, the head index only if it opens the group (R138). -/
theorem groupElem_frame (s : State) (g : Grp) (i q : Nat) : quantFrame s (groupElem s g i q) := by
  unfold groupElem
  rw [groupSlots_frame]
  generalize (groupSlots s g i q).mem = m
  split <;> cases g <;> rfl

/-- Class 0 (R132). -/
theorem qelem_zero (s : State) (i : Nat) (c : Int) (e : Nat) :
    qelem s i c e 0#4 = .ok (latchQout (s.setSlot i { val := 0#16, ph := false, bap := 0#4 }) i) := rfl

theorem classKind_eq_zero {bap : BitVec 4} (h : classKind bap = .zero) : bap = 0#4 := by
  revert h; revert bap; decide

/-- An illegal exponent (R144, R146). -/
theorem qelem_badExp {s : State} {i : Nat} {c : Int} {e : Nat} {bap : BitVec 4} (hb : bap ≠ 0#4) (he : 24 < e) :
    qelem s i c e bap = .fail s .badExp (elemInfo i bap e) := by
  have h : e > Config.expMax := he
  cases hk : classKind bap with
  | zero => exact absurd (classKind_eq_zero hk) hb
  | grouped g => simp [qelem, hk, h]
  | symmetric => simp [qelem, hk, h]
  | asymmetric => simp [qelem, hk, h]

/-- The classes 1 to 5, their level counts odd (R131). -/
theorem levels_odd {bap : BitVec 4} (h0 : bap ≠ 0#4) (h5 : bap.toNat ≤ 5) :
    Config.levels bap.toNat % 2 = 1 ∧ (classKind bap = .symmetric ∨ ∃ g, classKind bap = .grouped g) := by
  have main : ∀ b : BitVec 4, b ≠ 0#4 → b.toNat ≤ 5 → Config.levels b.toNat % 2 = 1 ∧
      (classKind b = .symmetric ∨ classKind b = .grouped .g1 ∨ classKind b = .grouped .g2 ∨ classKind b = .grouped .g4) := by decide
  obtain ⟨h1, h | h | h | h⟩ := main bap h0 h5
  · exact ⟨h1, .inl h⟩
  · exact ⟨h1, .inr ⟨_, h⟩⟩
  · exact ⟨h1, .inr ⟨_, h⟩⟩
  · exact ⟨h1, .inr ⟨_, h⟩⟩

/-- The number of a grouped class is its group's (R131). -/
theorem bap_of_grouped {bap : BitVec 4} {g : Grp} (h : classKind bap = .grouped g) : BitVec.ofNat 4 g.bap = bap := by
  have main : ∀ b : BitVec 4, (classKind b = .grouped .g1 → 1#4 = b) ∧ (classKind b = .grouped .g2 → 2#4 = b) ∧
      (classKind b = .grouped .g4 → 4#4 = b) := by decide
  cases g
  · exact (main bap).1 h
  · exact (main bap).2.1 h
  · exact (main bap).2.2 h

/-- A symmetric code out of range (R135). -/
theorem qelem_qRange {s : State} {i : Nat} {c : Int} {e : Nat} {bap : BitVec 4} (h0 : bap ≠ 0#4) (h5 : bap.toNat ≤ 5) (he : e ≤ 24)
    (hr : ¬ (-(2 ^ 24 : Int) ≤ c * 2 ^ e ∧ c * 2 ^ e < 2 ^ 24)) : qelem s i c e bap = .fail s .qRange (elemInfo i bap e) := by
  obtain ⟨hL, hk⟩ := levels_odd h0 h5
  have he' : ¬ e > Config.expMax := Nat.not_lt.2 he
  have hq : ¬ symqInRange (symq c e (Config.levels bap.toNat)) (Config.levels bap.toNat) = true := by
    rwa [symqInRange_iff c he hL]
  rcases hk with hk | ⟨g, hk⟩ <;> simp [qelem, hk, he', hq]

/-- A symmetric class on its own, in range (R133, R135). -/
theorem qelem_symmetric {s : State} {i : Nat} {c : Int} {e : Nat} {bap : BitVec 4} (hk : classKind bap = .symmetric) (he : e ≤ 24)
    (hr : symqInRange (symq c e (Config.levels bap.toNat)) (Config.levels bap.toNat) = true) :
    qelem s i c e bap = .ok (latchQout (s.setSlot i
      { val := BitVec.ofNat 16 (symq c e (Config.levels bap.toNat)).toNat, ph := false, bap := bap }) i) := by
  have he' : ¬ e > Config.expMax := Nat.not_lt.2 he
  simp [qelem, hk, he', hr]

/-- An asymmetric class (R136). -/
theorem qelem_asymmetric {s : State} {i : Nat} {c : Int} {e : Nat} {bap : BitVec 4} (hk : classKind bap = .asymmetric)
    (he : e ≤ 24) :
    qelem s i c e bap = .ok (latchQout (s.setSlot i
      { val := BitVec.ofNat 16 (asymq c e (Config.qbits bap.toNat)), ph := false, bap := bap }) i) := by
  have he' : ¬ e > Config.expMax := Nat.not_lt.2 he
  simp [qelem, hk, he']

/-- A grouped class in range (R138). -/
theorem qelem_grouped {s : State} {i : Nat} {c : Int} {e : Nat} {bap : BitVec 4} {g : Grp} (hk : classKind bap = .grouped g)
    (he : e ≤ 24) (hr : symqInRange (symq c e (Config.levels bap.toNat)) (Config.levels bap.toNat) = true) :
    qelem s i c e bap = .ok (latchQout (groupElem s g i (symq c e (Config.levels bap.toNat)).toNat) i) := by
  have he' : ¬ e > Config.expMax := Nat.not_lt.2 he
  simp [qelem, hk, he', hr]

/-- The class of a grouped class's number. -/
theorem Grp.bap_spec (g : Grp) : classKind (BitVec.ofNat 4 g.bap) = .grouped g ∧ Config.levels (BitVec.ofNat 4 g.bap).toNat = g.levels ∧
    g.levels % 2 = 1 ∧ g.levels ≤ 11 ∧ 0 < g.levels := by cases g <;> decide

/-- What an element did, if it raised no error (R144). -/
inductive ElemDone (s : State) (i : Nat) (c : Int) (e : Nat) (bap : BitVec 4) : State → Prop where
  /-- An ungrouped class writes its own slot. -/
  | plain (x : Slot) (hx : x.bap = bap) (hp : x.ph = false) (hg : ∀ g, classKind bap ≠ .grouped g) :
      ElemDone s i c e bap (latchQout (s.setSlot i x) i)
  /-- A grouped class writes its own slot, its head's, and the group state. -/
  | grouped (g : Grp) (hk : classKind bap = .grouped g) :
      ElemDone s i c e bap (latchQout (groupElem s g i (symq c e (Config.levels bap.toNat)).toNat) i)

/-- Everything an element can do: it completes, or it raises BADEXP or QRANGE and writes nothing (R144, R146). -/
theorem qelem_cases (s : State) (i : Nat) (c : Int) (e : Nat) (bap : BitVec 4) :
    (∃ t, qelem s i c e bap = { st := t, err := none } ∧ ElemDone s i c e bap t) ∨
    (qelem s i c e bap = .fail s .badExp (elemInfo i bap e) ∧ bap ≠ 0#4 ∧ 24 < e) ∨
    (qelem s i c e bap = .fail s .qRange (elemInfo i bap e) ∧ bap ≠ 0#4 ∧ e ≤ 24) := by
  cases hk : classKind bap with
  | zero =>
    obtain rfl := classKind_eq_zero hk
    exact .inl ⟨_, qelem_zero s i c e, .plain _ rfl rfl (by simp [hk])⟩
  | grouped g =>
    have h0 : bap ≠ 0#4 := by rintro rfl; cases hk
    by_cases he : e ≤ 24
    · by_cases hr : symqInRange (symq c e (Config.levels bap.toNat)) (Config.levels bap.toNat) = true
      · exact .inl ⟨_, qelem_grouped hk he hr, .grouped g hk⟩
      · exact .inr (.inr ⟨by simp [qelem, hk, show ¬ e > Config.expMax from Nat.not_lt.2 he, hr], h0, he⟩)
    · exact .inr (.inl ⟨qelem_badExp h0 (by omega), h0, by omega⟩)
  | symmetric =>
    have h0 : bap ≠ 0#4 := by rintro rfl; cases hk
    by_cases he : e ≤ 24
    · by_cases hr : symqInRange (symq c e (Config.levels bap.toNat)) (Config.levels bap.toNat) = true
      · exact .inl ⟨_, qelem_symmetric hk he hr, .plain _ rfl rfl (by simp [hk])⟩
      · exact .inr (.inr ⟨by simp [qelem, hk, show ¬ e > Config.expMax from Nat.not_lt.2 he, hr], h0, he⟩)
    · exact .inr (.inl ⟨qelem_badExp h0 (by omega), h0, by omega⟩)
  | asymmetric =>
    have h0 : bap ≠ 0#4 := by rintro rfl; cases hk
    by_cases he : e ≤ 24
    · exact .inl ⟨_, qelem_asymmetric hk he, .plain _ rfl rfl (by simp [hk])⟩
    · exact .inr (.inl ⟨qelem_badExp h0 (by omega), h0, by omega⟩)

/-- An element writes the quantizer's state alone (R202). -/
theorem ElemDone.frame {s t : State} {i : Nat} {c : Int} {e : Nat} {bap : BitVec 4} (h : ElemDone s i c e bap t) : quantFrame s t := by
  cases h with
  | plain x => rfl
  | grouped g => exact quantFrame.trans (groupElem_frame s g i _) rfl

/-- The bytes a group element touches: its slot's, and its head's if the group was open (R138). -/
theorem readByte_groupElem {s : State} {g : Grp} {i q a : Nat} (hi : slotByte i a = false)
    (hh : s.cnt g = 0 ∨ slotByte (s.head g) a = false) : (groupElem s g i q).readByte a = s.readByte a := by
  by_cases h0 : s.cnt g = 0
  · simp [groupElem, groupSlots, h0, readByte_setSlot_of_outside hi]
  · have hh := hh.resolve_left h0
    simp only [groupElem, groupSlots, h0, if_false, readByte_setCnt, readByte_setSlot_of_outside hi]
    simp only [slotByte, inRange_false_iff] at hh
    exact readByte_setSlotVal_of_outside (by omega) s _

/-- The bytes an element touches. -/
theorem ElemDone.bytes {s t : State} {i : Nat} {c : Int} {e : Nat} {bap : BitVec 4} (h : ElemDone s i c e bap t) {a : Nat}
    (hi : slotByte i a = false) (hh : ∀ g, classKind bap = .grouped g → s.cnt g = 0 ∨ slotByte (s.head g) a = false) :
    t.readByte a = s.readByte a := by
  cases h with
  | plain x => exact readByte_setSlot_of_outside hi s x
  | grouped g hk => exact readByte_groupElem (s := s) hi (hh g hk)

/-- Every slot's BAP is kept, but the element's own, which becomes its class. -/
theorem ElemDone.bap {s t : State} {i : Nat} {c : Int} {e : Nat} {bap : BitVec 4} (h : ElemDone s i c e bap t) (hi : i < 1536)
    (hh : ∀ g, s.head g < 1536) : (t.slot i).bap = bap ∧ ∀ j, j ≠ i → (t.slot j).bap = (s.slot j).bap := by
  have latch : ∀ (u : State) (j : Nat), (latchQout u i).slot j = u.slot j := fun _ _ => rfl
  cases h with
  | plain x hx =>
    refine ⟨by rw [latch, slot_setSlot_self hi, hx], fun j hj => by rw [latch, slot_setSlot_of_ne (Ne.symm hj)]⟩
  | grouped g hk =>
    have hb : BitVec.ofNat 4 g.bap = bap := bap_of_grouped hk
    generalize (symq c e (Config.levels bap.toNat)).toNat = q
    by_cases h0 : s.cnt g = 0
    · simp only [latch, groupElem, groupSlots, h0, if_true, slot_setCnt, slot_setHead]
      exact ⟨by rw [slot_setSlot_self hi, hb], fun j hj => by rw [slot_setSlot_of_ne (Ne.symm hj)]⟩
    · simp only [latch, groupElem, groupSlots, h0, if_false, slot_setCnt]
      refine ⟨by rw [slot_setSlot_self hi, hb], fun j hj => ?_⟩
      rw [slot_setSlot_of_ne (Ne.symm hj)]
      by_cases hjh : s.head g = j
      · subst hjh; rw [slot_setSlotVal_self (hh g)]
      · rw [slot_setSlotVal_of_ne hjh]

/-- The group state after an element: a class's counter and head move only with an element of the class, and a head is then the slot
that opened its group, or the one it was (R138). -/
theorem ElemDone.groups {s t : State} {i : Nat} {c : Int} {e : Nat} {bap : BitVec 4} (h : ElemDone s i c e bap t) (hi : i < 1536)
    (g : Grp) :
    (classKind bap ≠ .grouped g → t.cnt g = s.cnt g ∧ t.head g = s.head g) ∧
    (classKind bap = .grouped g →
      t.cnt g = (s.cnt g + 1) % g.size ∧ t.head g = if s.cnt g = 0 then i else s.head g) := by
  cases h with
  | plain x hx hp hg => exact ⟨fun _ => by cases g <;> exact ⟨rfl, rfl⟩, fun h => absurd h (hg g)⟩
  | grouped g' hk =>
    generalize (symq c e (Config.levels bap.toNat)).toNat = q
    have lc : ∀ u : State, (latchQout u i).cnt g = u.cnt g := fun u => by cases g <;> rfl
    have lh : ∀ u : State, (latchQout u i).head g = u.head g := fun u => by cases g <;> rfl
    have gs : groupSlots s g' i q = { s with mem := (groupSlots s g' i q).mem } := groupSlots_frame s g' i q
    generalize (groupSlots s g' i q).mem = m at gs
    have gc : ({ s with mem := m } : State).cnt g = s.cnt g := by cases g <;> rfl
    have gh : ({ s with mem := m } : State).head g = s.head g := by cases g <;> rfl
    rw [lc, lh, groupElem, gs]
    refine ⟨fun hne => ?_, fun heq => ?_⟩
    · have hne' : g' ≠ g := fun he => hne (by rw [hk, he])
      split
      · rw [cnt_setCnt_of_ne _ hne', cnt_setHead, head_setCnt, head_setHead_of_ne _ hne', gc, gh]; exact ⟨rfl, rfl⟩
      · rw [cnt_setCnt_of_ne _ hne', head_setCnt, gc, gh]; exact ⟨rfl, rfl⟩
    · rw [hk] at heq
      obtain rfl : g' = g := ClassKind.grouped.inj heq
      split
      · rw [cnt_setCnt_self _ _ (Grp.next_lt _ _), head_setCnt, head_setHead_self _ _ hi]; exact ⟨rfl, rfl⟩
      · rw [cnt_setCnt_self _ _ (Grp.next_lt _ _), head_setCnt, gh]; exact ⟨rfl, rfl⟩

/-- An element writes the quantizer's state alone, whether it completes or not (R202). -/
theorem qelem_frame (s : State) (i : Nat) (c : Int) (e : Nat) (bap : BitVec 4) : quantFrame s (qelem s i c e bap).st := by
  rcases qelem_cases s i c e bap with ⟨t, ht, hd⟩ | ⟨hf, -⟩ | ⟨hf, -⟩
  · rw [ht]; exact hd.frame
  · rw [hf]; rfl
  · rw [hf]; rfl

/-- What the quantizer keeps. -/
theorem quantFrame.kept {s t : State} (h : quantFrame s t) :
    t.ctrl = s.ctrl ∧ t.busy = s.busy ∧ t.done = s.done ∧ t.lastCmd = s.lastCmd ∧ t.bswenSampled = s.bswenSampled ∧
    t.errBits = s.errBits ∧ t.errCode = s.errCode ∧ t.errInfo = s.errInfo ∧ t.qin = s.qin ∧ t.tdstat = s.tdstat ∧
    t.tdres = s.tdres ∧ t.bitpos = s.bitpos ∧ t.putdata = s.putdata ∧ t.fsw = s.fsw ∧ t.crc1 = s.crc1 ∧ t.crc2 = s.crc2 ∧
    t.frameBytes = s.frameBytes ∧ t.crcStart = s.crcStart ∧ t.crcLen = s.crcLen ∧ t.crcBits = s.crcBits ∧ t.crcVal = s.crcVal ∧
    t.memDraw = s.memDraw ∧ t.draws = s.draws ∧ t.rst = s.rst ∧ t.inputs = s.inputs ∧ t.resp = s.resp := by
  unfold quantFrame at h
  rw [h]
  simp

/-- An element does not read QIN: QCOEF passes it as the coefficient (R144, R145). -/
theorem qelem_qin (s : State) (v : Word) (i : Nat) (c : Int) (e : Nat) (bap : BitVec 4) :
    qelem { s with qin := v } i c e bap = { st := { (qelem s i c e bap).st with qin := v }, err := (qelem s i c e bap).err } := by
  cases hk : classKind bap with
  | zero => simp only [qelem, hk]; rfl
  | grouped g =>
    have hgr : ∀ q, groupElem { s with qin := v } g i q = { groupElem s g i q with qin := v } := by
      intro q
      have h0 : ({ s with qin := v } : State).cnt g = s.cnt g := by cases g <;> rfl
      have hs : groupSlots { s with qin := v } g i q = { groupSlots s g i q with qin := v } := by
        have h1 : ({ s with qin := v } : State).head g = s.head g := by cases g <;> rfl
        unfold groupSlots; rw [h0, h1]; split <;> rfl
      unfold groupElem
      rw [h0, hs]
      generalize groupSlots s g i q = G
      split <;> cases g <;> rfl
    simp only [qelem, hk, hgr]
    split
    · rfl
    · split <;> rfl
  | symmetric =>
    simp only [qelem, hk]
    split
    · rfl
    · split <;> rfl
  | asymmetric =>
    simp only [qelem, hk]
    split <;> rfl

/-- The information word of BADEXP and QRANGE as a sum (R207). -/
theorem elemInfo_eq {i e : Nat} (hi : i < 2048) (he : e < 256) (bap : BitVec 4) :
    elemInfo i bap e = BitVec.ofNat 32 (i + bap.toNat * 2 ^ 12 + e * 2 ^ 16) := by
  apply BitVec.eq_of_toNat_eq
  have := bap.isLt
  simp only [elemInfo, toNat_append_add, BitVec.toNat_ofNat]
  omega

/-- A first member's slot (R138, R139). -/
theorem slot_groupElem_first {s : State} {g : Grp} {i : Nat} (q : Nat) (h0 : s.cnt g = 0) (hi : i < 1536) :
    (groupElem s g i q).slot i =
      { val := BitVec.ofNat 16 (q * g.levels ^ (g.size - 1)), ph := false, bap := BitVec.ofNat 4 g.bap } := by
  simp only [groupElem, groupSlots, h0, if_true, slot_setCnt, slot_setHead, slot_setSlot_self hi]

/-- A later member's slot and its head's (R138, R140, R141). -/
theorem slot_groupElem_later {s : State} {g : Grp} {i : Nat} (q : Nat) (h0 : s.cnt g ≠ 0) (hi : i < 1536) (hh : s.head g < 1536) :
    (groupElem s g i q).slot i = { val := 128#16, ph := true, bap := BitVec.ofNat 4 g.bap } ∧
    (s.head g ≠ i → (groupElem s g i q).slot (s.head g) =
      { s.slot (s.head g) with val := (s.slot (s.head g)).val + BitVec.ofNat 16 (q * g.levels ^ (g.size - 1 - s.cnt g)) }) := by
  refine ⟨?_, fun hne => ?_⟩
  · simp only [groupElem, groupSlots, h0, if_false, slot_setCnt, slot_setSlot_self hi]; rfl
  · simp only [groupElem, groupSlots, h0, if_false, slot_setCnt]
    rw [slot_setSlot_of_ne (Ne.symm hne), slot_setSlotVal_self hh, BitVec.ofNat_add, BitVec.ofNat_toNat, BitVec.setWidth_eq]

/-! ### A run of elements -/

/-- The element of coefficient k of a run, its operands in COEF, EXPM and BAPM (R145). -/
def runElem (ch : BitVec 3) (k : Nat) (s : State) : CmdResult :=
  qelem s (slotIndex ch k) (s.coef (slotIndex ch k)).toInt (s.expm (slotIndex ch k)).toNat (s.bapm (slotIndex ch k))

/-- A run of m + 1 elements is its first element and the run of the rest (R145). -/
theorem qrunFrom_succ (ch : BitVec 3) (m k : Nat) (s : State) :
    qrunFrom ch (m + 1) k s =
      match (runElem ch k s).err with
      | none => qrunFrom ch m (k + 1) (runElem ch k s).st
      | some _ => runElem ch k s := by
  rw [qrunFrom]
  change (match runElem ch k s with
    | { st := t, err := none } => qrunFrom ch m (k + 1) t
    | { st := t, err := some e } => { st := t, err := some e }) = _
  obtain ⟨t, _ | e⟩ := runElem ch k s <;> rfl

/-- A run that raised no error, one element longer (R145). -/
theorem qrunFrom_snoc {ch : BitVec 3} {m k : Nat} {s t : State} (h : qrunFrom ch m k s = { st := t, err := none }) :
    qrunFrom ch (m + 1) k s = runElem ch (k + m) t := by
  induction m generalizing k s with
  | zero =>
    obtain rfl : s = t := (CmdResult.mk.inj h).1
    rw [qrunFrom_succ]
    cases hr : (runElem ch k s).err with
    | none => simp only [qrunFrom, CmdResult.ok]; rw [← hr]; rfl
    | some e => rfl
  | succ m ih =>
    rw [qrunFrom_succ] at h ⊢
    cases hr : (runElem ch k s).err with
    | none => simp only [hr] at h ⊢; rw [ih h, show k + 1 + m = k + (m + 1) by omega]
    | some e => simp only [hr] at h; rw [h] at hr; cases hr

/-- A run that raised an error stays as it is when it is longer (R210). -/
theorem qrunFrom_of_err {ch : BitVec 3} {m n k : Nat} {s t : State} {e : CmdError} (hmn : m ≤ n)
    (h : qrunFrom ch m k s = { st := t, err := some e }) : qrunFrom ch n k s = { st := t, err := some e } := by
  induction m generalizing n k s with
  | zero => cases (CmdResult.mk.inj h).2
  | succ m ih =>
    obtain ⟨n, rfl⟩ : ∃ n', n = n' + 1 := ⟨n - 1, by omega⟩
    rw [qrunFrom_succ] at h ⊢
    cases hr : (runElem ch k s).err with
    | none => simp only [hr] at h ⊢; exact ih (by omega) h
    | some e' => simp only [hr] at h ⊢; exact h

/-- A property that every element keeps, the run keeps. -/
theorem qrunFrom_induct {P : State → Prop} {ch : BitVec 3} (m k : Nat) (s : State) (h0 : P s)
    (step : ∀ j t u, k ≤ j → j < k + m → P t →
      ElemDone t (slotIndex ch j) (t.coef (slotIndex ch j)).toInt (t.expm (slotIndex ch j)).toNat (t.bapm (slotIndex ch j)) u → P u) :
    P (qrunFrom ch m k s).st := by
  induction m generalizing k s with
  | zero => exact h0
  | succ m ih =>
    rw [qrunFrom_succ]
    rcases qelem_cases s (slotIndex ch k) (s.coef (slotIndex ch k)).toInt (s.expm (slotIndex ch k)).toNat (s.bapm (slotIndex ch k))
      with ⟨t, ht, hd⟩ | ⟨hf, -⟩ | ⟨hf, -⟩
    · rw [runElem, ht]
      exact ih (k + 1) t (step k s t (Nat.le_refl k) (by omega) h0 hd) (fun j u v h1 h2 => step j u v (by omega) (by omega))
    · rw [runElem, hf]; exact h0
    · rw [runElem, hf]; exact h0

/-- A run writes the quantizer's state alone (R202). -/
theorem qrunFrom_frame (ch : BitVec 3) (m k : Nat) (s : State) : quantFrame s (qrunFrom ch m k s).st :=
  qrunFrom_induct (P := quantFrame s) m k s (quantFrame.refl s) fun _ _ _ _ _ h hd => h.trans hd.frame

/-- Elements write bytes of the SLOT window alone, even from a head no run reaches (R138). -/
theorem ElemDone.bytes_of_slot {s t : State} {i : Nat} {c : Int} {e : Nat} {bap : BitVec 4} (h : ElemDone s i c e bap t)
    (hi : i < 2048) {a : Nat} (ha : inRange slotBase 0x2000 a = false) : t.readByte a = s.readByte a := by
  rw [inRange_false_iff] at ha
  have heads : ∀ g, s.head g < 2048 := by intro g; cases g <;> exact BitVec.isLt _
  refine h.bytes ?_ fun g _ => .inr ?_
  · rw [slotByte, inRange_false_iff, slotAddr]; omega
  · have := heads g
    rw [slotByte, inRange_false_iff, slotAddr]; omega

theorem slotIndex_lt (ch : BitVec 3) {k : Nat} (h : k < 256) : slotIndex ch k < 2048 := by
  have := ch.isLt
  simp only [slotIndex, Config.ncoef]
  omega

/-- A run writes bytes of the SLOT window alone. -/
theorem readByte_qrunFrom {ch : BitVec 3} {m k : Nat} (h : k + m ≤ 256) (s : State) {a : Nat}
    (ha : inRange slotBase 0x2000 a = false) : (qrunFrom ch m k s).st.readByte a = s.readByte a :=
  qrunFrom_induct (P := fun t => t.readByte a = s.readByte a) m k s rfl fun j _ _ _ h2 h3 hd =>
    (hd.bytes_of_slot (slotIndex_lt ch (by omega)) ha).trans h3

/-- COEF, EXPM and BAPM are as they were at every element of a run. -/
theorem operands_of_bytes {s t : State} (h : ∀ a, inRange slotBase 0x2000 a = false → t.readByte a = s.readByte a) {i : Nat}
    (hi : i < 2048) : t.coef i = s.coef i ∧ t.expm i = s.expm i ∧ t.bapm i = s.bapm i := by
  have hs : ∀ b, b < 0x8000 → t.readByte b = s.readByte b := fun b hb => h b (by rw [inRange_false_iff, slotBase]; omega)
  refine ⟨readWord_congr fun b _ h2 => hs b ?_, hs _ ?_, ?_⟩
  · rw [coefBase] at h2; omega
  · rw [expmBase]; omega
  · rw [State.bapm, State.bapm, hs]; rw [bapmBase]; omega

/-- An element of a run raises no error exactly where its operands are legal; then it is done (R145, R146). -/
theorem elementLegal_iff (s : State) (i : Nat) (c : Int) (e : Nat) (bap : BitVec 4) :
    elementLegal c e bap ↔ (qelem s i c e bap).err = none := by
  by_cases h0 : bap = 0#4
  · subst h0; simp [elementLegal, qelem_zero, CmdResult.ok]
  · by_cases he : 24 < e
    · rw [qelem_badExp h0 he]
      simp only [elementLegal, CmdResult.fail, reduceCtorEq, iff_false]
      rintro (h | h)
      · exact h0 h
      · omega
    · by_cases h5 : bap.toNat ≤ 5
      · obtain ⟨hL, hk⟩ := levels_odd h0 h5
        have hr := symqInRange_iff c (Nat.not_lt.1 he) hL
        by_cases hc : -(2 ^ 24 : Int) ≤ c * 2 ^ e ∧ c * 2 ^ e < 2 ^ 24
        · have : (qelem s i c e bap).err = none := by
            rcases hk with hk | ⟨g, hk⟩
            · rw [qelem_symmetric hk (Nat.not_lt.1 he) (hr.2 hc)]; rfl
            · rw [qelem_grouped hk (Nat.not_lt.1 he) (hr.2 hc)]; rfl
          rw [this]
          exact ⟨fun _ => rfl, fun _ => .inr ⟨Nat.not_lt.1 he, .inr hc⟩⟩
        · rw [qelem_qRange h0 h5 (Nat.not_lt.1 he) hc]
          simp only [elementLegal, CmdResult.fail, reduceCtorEq, iff_false]
          rintro (h | ⟨-, h | h⟩)
          · exact h0 h
          · omega
          · exact hc h
      · have hk : classKind bap = .asymmetric := by
          have main : ∀ b : BitVec 4, ¬ b.toNat ≤ 5 → classKind b = .asymmetric := by decide
          exact main bap h5
        rw [qelem_asymmetric hk (Nat.not_lt.1 he)]
        exact ⟨fun _ => rfl, fun _ => .inr ⟨Nat.not_lt.1 he, .inl (by omega)⟩⟩

/-- A run over legal elements raises no error (R145). -/
theorem qrunFrom_ok {ch : BitVec 3} {m k : Nat} {s : State} (h : k + m ≤ 256)
    (legal : ∀ j, k ≤ j → j < k + m → elementLegal (s.coef (slotIndex ch j)).toInt (s.expm (slotIndex ch j)).toNat
      (s.bapm (slotIndex ch j))) : (qrunFrom ch m k s).err = none := by
  induction m generalizing k s with
  | zero => rfl
  | succ m ih =>
    rw [qrunFrom_succ]
    have h1 := (elementLegal_iff s (slotIndex ch k) _ _ _).1 (legal k (Nat.le_refl k) (by omega))
    have h1' : (runElem ch k s).err = none := h1
    rw [h1']
    refine ih (by omega) fun j hj1 hj2 => ?_
    have hb : ∀ a, inRange slotBase 0x2000 a = false → (runElem ch k s).st.readByte a = s.readByte a := by
      intro a ha
      have := readByte_qrunFrom (ch := ch) (m := 1) (k := k) (by omega) s ha
      rwa [qrunFrom_succ, h1'] at this
    obtain ⟨e1, e2, e3⟩ := operands_of_bytes hb (slotIndex_lt ch (show j < 256 by omega))
    rw [e1, e2, e3]
    exact legal j (by omega) (by omega)

end Sys2Proof.Machine
end

