-- ==== Sys2Proof/Laws/Transient.lean ====
section
/-!
SUPPORT. The transient detector: peaks of windows without a NaN, and the NaN check.
-/
namespace Sys2Proof.Machine

open Sys2Proof

/-- A magnitude in binary32, the format of this hardware (R11, R15). -/
theorem magBits_eq (x : Word) : magBits x = x.toNat % 2 ^ 31 := rfl

/-- isnan in binary32: x[30:23] = 0xFF and x[22:0] not 0 (R15). -/
theorem isNan_eq (x : Word) : isNan x = decide (x.toNat % 2 ^ 31 / 2 ^ 23 = 255 ∧ x.toNat % 2 ^ 23 ≠ 0) := rfl

/-- A magnitude is below 2^31, and clearing the sign keeps it (R15). -/
theorem abs32_toNat (x : Word) : (abs32 x).toNat = magBits x := by
  rw [abs32, BitVec.toNat_and, magBits_eq]
  exact Nat.and_two_pow_sub_one_eq_mod _ 31

theorem magBits_lt (x : Word) : magBits x < 2 ^ 31 := Nat.mod_lt _ (by norm_num)

theorem magBits_abs32 (x : Word) : magBits (abs32 x) = magBits x := by
  have := magBits_lt x
  rw [magBits_eq, abs32_toNat]
  omega

theorem isNan_abs32 (x : Word) : isNan (abs32 x) = isNan x := by
  have h1 : (abs32 x).toNat % 2 ^ 31 = x.toNat % 2 ^ 31 := by rw [abs32_toNat, magBits_eq]; omega
  have h2 : (abs32 x).toNat % 2 ^ 23 = x.toNat % 2 ^ 23 := by rw [abs32_toNat, magBits_eq]; omega
  rw [isNan_eq, isNan_eq, h1, h2]

theorem orderKey_abs32 (x : Word) : orderKey (abs32 x) = (magBits x : Int) := by
  have h : (abs32 x).getLsbD signBit = false := by
    show (x &&& 0x7FFFFFFF#32).getLsbD 31 = false
    simp
  rw [orderKey, h, magBits_abs32]
  rfl

/-- The order of magnitudes that are no NaN is that of their bit patterns (R15). -/
theorem gtF_abs32 {x y : Word} (hx : isNan x = false) (hy : isNan y = false) :
    gtF (abs32 x) (abs32 y) = decide ((abs32 y).toNat < (abs32 x).toNat) := by
  rw [gtF, ltF, isNan_abs32, isNan_abs32, hx, hy, orderKey_abs32, orderKey_abs32, abs32_toNat, abs32_toNat]
  simp

theorem isNan_zero : isNan 0#32 = false := by decide

/-- A peak over samples without a NaN bounds every magnitude, and is one of them or the value it started from (R111). -/
theorem peakOf_spec (xs : List Word) (p : Word) (hp : p = abs32 p) (hn : isNan p = false) (h : ∀ x ∈ xs, isNan x = false) :
    (p.toNat ≤ (peakOf p xs).toNat) ∧ (∀ x ∈ xs, (abs32 x).toNat ≤ (peakOf p xs).toNat) ∧
    (peakOf p xs = p ∨ ∃ x ∈ xs, peakOf p xs = abs32 x) := by
  induction xs generalizing p with
  | nil => exact ⟨Nat.le_refl _, by simp, .inl rfl⟩
  | cons x xs ih =>
    have hx : isNan x = false := h x (List.mem_cons_self ..)
    have hxs : ∀ y ∈ xs, isNan y = false := fun y hy => h y (List.mem_cons_of_mem _ hy)
    have hg : gtF (abs32 x) p = decide (p.toNat < (abs32 x).toNat) := by
      conv_lhs => rw [hp]
      rw [gtF_abs32 hx hn, ← hp]
    rw [peakOf, hg]
    by_cases hlt : p.toNat < (abs32 x).toNat
    · have ha : abs32 x = abs32 (abs32 x) := by
        apply BitVec.eq_of_toNat_eq
        rw [abs32_toNat (abs32 x), magBits_abs32, abs32_toNat]
      obtain ⟨i1, i2, i3⟩ := ih (abs32 x) ha (by rw [isNan_abs32]; exact hx) hxs
      simp only [hlt, decide_true, if_true]
      refine ⟨by omega, ?_, .inr ?_⟩
      · intro y hy
        rcases List.mem_cons.1 hy with rfl | hy
        · exact i1
        · exact i2 y hy
      · rcases i3 with i3 | ⟨y, hy, i3⟩
        · exact ⟨x, List.mem_cons_self .., i3⟩
        · exact ⟨y, List.mem_cons_of_mem _ hy, i3⟩
    · obtain ⟨i1, i2, i3⟩ := ih p hp hn hxs
      simp only [hlt, decide_false, Bool.false_eq_true, if_false]
      refine ⟨i1, ?_, ?_⟩
      · intro y hy
        rcases List.mem_cons.1 hy with rfl | hy
        · omega
        · exact i2 y hy
      · rcases i3 with i3 | ⟨y, hy, i3⟩
        · exact .inl i3
        · exact .inr ⟨y, List.mem_cons_of_mem _ hy, i3⟩

/-- A peak depends on the magnitudes alone (R123). -/
theorem peakOf_congr {xs ys : List Word} (h : xs.map abs32 = ys.map abs32) (p : Word) : peakOf p xs = peakOf p ys := by
  induction xs generalizing ys p with
  | nil =>
    cases ys with
    | nil => rfl
    | cons y ys => cases h
  | cons x xs ih =>
    cases ys with
    | nil => cases h
    | cons y ys =>
      simp only [List.map_cons, List.cons.injEq] at h
      rw [peakOf, peakOf, h.1, ih h.2]

theorem peak_congr {w w' : List Word} (h : w.map abs32 = w'.map abs32) (a n : Nat) : peak w a n = peak w' a n :=
  peakOf_congr (by rw [List.map_take, List.map_drop, h, ← List.map_drop, ← List.map_take]) _

/-- The level checks look at the listed segments and the ones before them alone (R113, R114). -/
theorem firstRise_congr {w w' : List Word} {n : Nat} {t : Word} {is : List Nat}
    (h : ∀ i ∈ is, segPeak w n i = segPeak w' n i ∧ segPeak w n (i - 1) = segPeak w' n (i - 1)) :
    firstRise w n t is = firstRise w' n t is := by
  induction is with
  | nil => rfl
  | cons i is ih =>
    obtain ⟨h1, h2⟩ := h i (List.mem_cons_self ..)
    rw [firstRise, firstRise, h1, h2, ih fun j hj => h j (List.mem_cons_of_mem _ hj)]

/-- The first rise is at a listed index whose comparison fires, and no earlier one's does; or none fires (R113, R114). -/
theorem firstRise_cases (w : List Word) (n : Nat) (t : Word) (is : List Nat) :
    (firstRise w n t is = none ∧ ∀ i ∈ is, productExceeds (segPeak w n i) t (segPeak w n (i - 1)) = false) ∨
    ∃ l i r, is = l ++ i :: r ∧ firstRise w n t is = some i ∧
      productExceeds (segPeak w n i) t (segPeak w n (i - 1)) = true ∧
      ∀ j ∈ l, productExceeds (segPeak w n j) t (segPeak w n (j - 1)) = false := by
  induction is with
  | nil => exact .inl ⟨rfl, by simp⟩
  | cons i is ih =>
    cases hi : productExceeds (segPeak w n i) t (segPeak w n (i - 1)) with
    | true => exact .inr ⟨[], i, is, rfl, by rw [firstRise, hi]; rfl, hi, by simp⟩
    | false =>
      have hf : firstRise w n t (i :: is) = firstRise w n t is := by rw [firstRise, hi]; rfl
      rcases ih with ⟨h1, h2⟩ | ⟨l, j, r, h1, h2, h3, h4⟩
      · refine .inl ⟨by rw [hf, h1], ?_⟩
        intro j hj
        rcases List.mem_cons.1 hj with rfl | hj
        · exact hi
        · exact h2 j hj
      · refine .inr ⟨i :: l, j, r, by rw [h1]; rfl, by rw [hf, h2], h3, ?_⟩
        intro m hm
        rcases List.mem_cons.1 hm with rfl | hm
        · exact hi
        · exact h4 m hm

/-- No NaN is found exactly where there is none (R116). -/
theorem firstNan_eq_none (j : Nat) (xs : List Word) : firstNan j xs = none ↔ ∀ x ∈ xs, isNan x = false := by
  induction xs generalizing j with
  | nil => simp [firstNan]
  | cons x xs ih =>
    rw [firstNan]
    cases hx : isNan x with
    | true => simp [hx]
    | false => simp [hx, ih]

/-- The NaN found is the lowest (R116). -/
theorem firstNan_eq_some {xs : List Word} {j : Nat} {x : Word} (h : xs[j]? = some x) (hx : isNan x = true)
    (low : ∀ (j' : Nat) (x' : Word), j' < j → xs[j']? = some x' → isNan x' = false) (b : Nat) : firstNan b xs = some (b + j) := by
  induction xs generalizing j b with
  | nil => cases h
  | cons y ys ih =>
    rw [firstNan]
    cases j with
    | zero =>
      obtain rfl : y = x := by simpa using h
      rw [hx]; rfl
    | succ j =>
      have hy : isNan y = false := low 0 y (by omega) rfl
      rw [hy]
      simp only [Bool.false_eq_true, if_false]
      rw [ih (by simpa using h) (fun j' x' hj' hx' => low (j' + 1) x' (by omega) (by simpa using hx')) (b + 1)]
      congr 1
      omega

/-- The nine outcomes R112 to R115 give DETECT. -/
def detections : List Detection :=
  [⟨false, 4#3, 0#4⟩, ⟨true, 1#3, 1#4⟩, ⟨true, 2#3, 2#4⟩, ⟨true, 2#3, 3#4⟩, ⟨true, 3#3, 4#4⟩, ⟨true, 3#3, 5#4⟩, ⟨true, 3#3, 6#4⟩,
    ⟨true, 3#3, 7#4⟩, ⟨false, 0#3, 0#4⟩]

/-- Everything DETECT can report (R112 to R115). -/
theorem detect_mem (w : List Word) : detect w ∈ detections := by
  have listed : ∀ {n : Nat} {t : Word} {is : List Nat} {i : Nat}, firstRise w n t is = some i → i ∈ is := by
    intro n t is i h
    rcases firstRise_cases w n t is with ⟨h1, -⟩ | ⟨l, j, r, h1, h2, -⟩
    · rw [h1] at h; cases h
    · obtain rfl : j = i := by rw [h2] at h; exact Option.some.inj h
      rw [h1]; simp
  unfold detect
  split
  · decide
  · split
    · decide
    · split
      · rename_i i hi
        have := listed hi
        simp only [List.mem_cons, List.not_mem_nil, or_false] at this
        rcases this with rfl | rfl <;> decide
      · split
        · rename_i i hi
          have := listed hi
          simp only [List.mem_cons, List.not_mem_nil, or_false] at this
          rcases this with rfl | rfl | rfl | rfl <;> decide
        · decide

theorem tdstatOk_iff (t : BitVec 12) : TdstatOk t ↔
    (t.getLsbD 0 = true ↔ (1 ≤ tdCode t ∧ tdCode t ≤ 3)) ∧ tdCode t ≤ 5 ∧ (tdCode t = 1 → tdIdx t = 1) ∧
    (tdCode t = 2 → 2 ≤ tdIdx t ∧ tdIdx t ≤ 3) ∧ (tdCode t = 3 → 4 ≤ tdIdx t ∧ tdIdx t ≤ 7) ∧
    (tdCode t ≠ 1 → tdCode t ≠ 2 → tdCode t ≠ 3 → tdIdx t = 0) ∧ tdCh t < 6 ∧ (t.getLsbD 11 = false → tdCh t = 0) ∧
    (tdCode t = 5 → t.getLsbD 11 = true) :=
  ⟨fun ⟨a, b, c, d, e, f, g, h, i⟩ => ⟨a, b, c, d, e, f, g, h, i⟩, fun ⟨a, b, c, d, e, f, g, h, i⟩ => ⟨a, b, c, d, e, f, g, h, i⟩⟩

/-- TDSTAT as reset leaves it is well formed (R40). -/
theorem tdstatOk_reset : TdstatOk 0#12 := (tdstatOk_iff _).2 (by decide)

/-- What TDRUN writes to TDSTAT is well formed (R40, R117). -/
theorem tdstatOk_tdrun (w : List Word) : TdstatOk ((detect w).stat 0#3 false) := by
  have main : ∀ d ∈ detections, TdstatOk (d.stat 0#3 false) := by simp only [tdstatOk_iff]; decide
  exact main _ (detect_mem w)

/-- What TDPUSH writes to TDSTAT with block switching on is well formed (R40, R118). -/
theorem tdstatOk_tdpush (w : List Word) {ch : BitVec 3} (h : ch.toNat < 6) : TdstatOk ((detect w).stat ch true) := by
  have main : ∀ ch : BitVec 3, ch.toNat < 6 → ∀ d ∈ detections, TdstatOk (d.stat ch true) := by
    simp only [tdstatOk_iff]; decide +kernel
  exact main ch h _ (detect_mem w)

/-- What TDPUSH writes to TDSTAT with block switching off is well formed (R40, R118). -/
theorem tdstatOk_disabled {ch : BitVec 3} (h : ch.toNat < 6) : TdstatOk (tdstatBits false 5#3 0#4 ch true) := by
  have main : ∀ ch : BitVec 3, ch.toNat < 6 → TdstatOk (tdstatBits false 5#3 0#4 ch true) := by simp only [tdstatOk_iff]; decide
  exact main ch h

/-- TDRES changes in the channel's bit alone (R41). -/
theorem setTdres_getLsbD (r : BitVec 6) {ch : BitVec 3} (h : ch.toNat < 6) (b : Bool) {c : Nat} (hc : c < 6) :
    (setTdres r ch b).getLsbD c = if c = ch.toNat then b else r.getLsbD c := by
  have main : ∀ (r : BitVec 6) (ch : BitVec 3) (b : Bool) (c : Fin 6), ch.toNat < 6 →
      (setTdres r ch b).getLsbD c.val = if c.val = ch.toNat then b else r.getLsbD c.val := by decide +kernel
  exact main r ch b ⟨c, hc⟩ h

/-- DETECT with the segment lengths of this hardware's window written out (R112 to R114). -/
theorem detect_eq (w : List Word) : detect w =
    if ltF (peak w 0 256) Config.tdFloor || ltF (peak w 256 256) Config.tdFloor then ⟨false, 4#3, 0#4⟩
    else if productExceeds (peak w 256 256) Config.tdT1 (peak w 0 256) then ⟨true, 1#3, 1#4⟩
    else
      match firstRise w 128 Config.tdT2 [2, 3] with
      | some i => ⟨true, 2#3, BitVec.ofNat 4 i⟩
      | none =>
        match firstRise w 64 Config.tdT3 [4, 5, 6, 7] with
        | some i => ⟨true, 3#3, BitVec.ofNat 4 i⟩
        | none => ⟨false, 0#3, 0#4⟩ := rfl

/-- A tail lies at its channel's 1024 bytes of TDTAIL (R71, R75). -/
theorem tailAddr_eq (ch : BitVec 3) : tailAddr ch = 0xC000 + 1024 * ch.toNat := by
  simp only [tailAddr, entryBytes, tailLen, tdtailBase, Config.tdWin, Config.accessBits]
  omega

/-- A tail written with the new samples reads back as them, and every other byte is kept (R118). -/
theorem tail_writeWords (s : State) {ch : BitVec 3} (h : ch.toNat < 6) {vs : List Word} (hl : vs.length = 256) :
    (s.writeWords (tailAddr ch) vs).tail ch = vs ∧ bytesKept (inRange (tailAddr ch) 1024) s (s.writeWords (tailAddr ch) vs) := by
  refine ⟨?_, fun a ha => ?_⟩
  · have := readWords_writeWords vs (a := tailAddr ch) s (fun j hj => by
      apply wordMask_tail <;> rw [inTdtail_eq, inRange_iff, tailAddr_eq, tdtailBase] <;> omega)
    rw [hl] at this
    exact this
  · rw [inRange_false_iff] at ha
    exact readByte_writeWords_of_outside vs s (by omega)

end Sys2Proof.Machine
end

