-- ==== Sys2Proof/Laws/Exec.lean ====
section
/-!
SUPPORT. All commands at once: what every one of them keeps and which errors it can raise, and the parts of the invariant that
raising an error, a command and each kind of access keep.
-/
namespace Sys2Proof.Machine

open Sys2Proof

/-! ### What every command keeps -/

/-- The registers and fields no command's rule writes (R202): those of the host, of the issue logic, and the model's own. -/
def hostKept (s t : State) : Prop :=
  t.ctrl = s.ctrl ∧ t.lastCmd = s.lastCmd ∧ t.bswenSampled = s.bswenSampled ∧ t.qin = s.qin ∧ t.putdata = s.putdata ∧
    t.fsw = s.fsw ∧ t.crcStart = s.crcStart ∧ t.crcLen = s.crcLen ∧ t.crcBits = s.crcBits ∧ t.memDraw = s.memDraw ∧
    t.draws = s.draws ∧ t.rst = s.rst ∧ t.inputs = s.inputs ∧ t.resp = s.resp ∧ t.errBits = s.errBits ∧ t.errCode = s.errCode ∧
    t.errInfo = s.errInfo

/-- No error, or one that execution can raise (R206). -/
def execError (e : Option CmdError) : Prop := e = none ∨ ∃ x, e = some x ∧ 3 ≤ x.code.num ∧ x.code.num ≤ 9

theorem hostKept_of_quant {s t : State} (h : quantFrame s t) : hostKept s t := by
  obtain ⟨k1, k2, k3, k4, k5, k6, k7, k8, k9, k10, k11, k12, k13, k14, k15, k16, k17, k18, k19, k20, k21, k22, k23, k24, k25,
    k26⟩ := h.kept
  exact ⟨k1, k4, k5, k9, k13, k14, k18, k19, k20, k22, k23, k24, k25, k26, k6, k7, k8⟩
theorem hostKept_of_writer {s t : State} (h : WriterKeeps s t) : hostKept s t := by
  have := h.frame
  generalize t.mem = m at this; generalize t.bitpos = b at this; subst this
  refine ⟨rfl, rfl, rfl, rfl, rfl, rfl, rfl, rfl, rfl, rfl, rfl, rfl, rfl, rfl, rfl, rfl, rfl⟩

/-- Everything a command can do to what it does not write, and the errors it can raise (R202, R206, R214). -/
theorem exec_result (i : Instr) (s : State) : ∃ r : CmdResult, exec i s = r.outcome ∧ hostKept s r.st ∧ execError r.err := by
  have K0 : hostKept s s := ⟨rfl, rfl, rfl, rfl, rfl, rfl, rfl, rfl, rfl, rfl, rfl, rfl, rfl, rfl, rfl, rfl, rfl⟩
  cases i with
  | qcoef ch k bap exp =>
    refine ⟨_, rfl, hostKept_of_quant (qelem_frame _ _ _ _ _), ?_⟩
    rcases qelem_cases s (slotIndex ch k.toNat) s.qin.toInt exp.toNat bap with ⟨t, ht, -⟩ | ⟨hf, -⟩ | ⟨hf, -⟩
    · rw [ht]; exact .inl rfl
    · rw [hf]; exact .inr ⟨_, rfl, by simp [ErrCode.num]⟩
    · rw [hf]; exact .inr ⟨_, rfl, by simp [ErrCode.num]⟩
  | qrun ch n =>
    refine ⟨_, rfl, hostKept_of_quant (qrunFrom_frame _ _ _ _), ?_⟩
    suffices ∀ m k s, execError (qrunFrom ch m k s).err from this _ _ _
    intro m
    induction m with
    | zero => intro k s; exact .inl rfl
    | succ m ih =>
      intro k s
      rw [qrunFrom_succ]
      rcases qelem_cases s (slotIndex ch k) (s.coef (slotIndex ch k)).toInt (s.expm (slotIndex ch k)).toNat (s.bapm (slotIndex ch k))
        with ⟨t, ht, hd⟩ | ⟨hf, -⟩ | ⟨hf, -⟩
      · rw [runElem, ht]; exact ih _ _
      · rw [runElem, hf]; exact .inr ⟨_, rfl, by simp [ErrCode.num]⟩
      · rw [runElem, hf]; exact .inr ⟨_, rfl, by simp [ErrCode.num]⟩
  | putbits w =>
    have := putBits_keeps s w.toNat s.putdata (putbitsInfo s)
    refine ⟨_, rfl, hostKept_of_writer this.1, ?_⟩
    rcases this.2 with h | h
    · exact .inl h
    · exact .inr ⟨_, h, by simp [ErrCode.num]⟩
  | flush => exact ⟨_, rfl, hostKept_of_writer (flushWriter_keeps s), .inl rfl⟩
  | mpack ch n =>
    have := mpackFrom_keeps ch n.toNat 0 s
    refine ⟨_, rfl, hostKept_of_writer this.1, ?_⟩
    rcases this.2 with h | ⟨_, h⟩
    · exact .inl h
    · exact .inr ⟨_, h, by simp [ErrCode.num]⟩
  | tdrun =>
    refine ⟨tdrunBody s, rfl, ?_⟩
    unfold tdrunBody; split
    · exact ⟨K0, .inr ⟨_, rfl, by simp [ErrCode.num]⟩⟩
    · exact ⟨K0, .inl rfl⟩
  | tdpush ch =>
    refine ⟨tdpushBody ch s, rfl, ?_⟩
    unfold tdpushBody; split
    · split
      · exact ⟨K0, .inr ⟨_, rfl, by simp [ErrCode.num]⟩⟩
      · generalize s.tdnew = vs; exact ⟨K0, .inl rfl⟩
    · exact ⟨K0, .inl rfl⟩
  | crccalc =>
    refine ⟨crccalcBody s, rfl, ?_⟩
    unfold crccalcBody; split
    · exact ⟨K0, .inr ⟨_, rfl, by simp [ErrCode.num]⟩⟩
    · exact ⟨K0, .inl rfl⟩
  | final =>
    refine ⟨finalBody s, rfl, ?_⟩
    rcases finalBody_cases s with ⟨-, h'⟩ | ⟨-, -, -, h'⟩ | ⟨h4, h5, h6, h'⟩
    · rw [h']; exact ⟨K0, .inr ⟨_, rfl, by simp [ErrCode.num]⟩⟩
    · rw [h']; exact ⟨K0, .inr ⟨_, rfl, by simp [ErrCode.num]⟩⟩
    · rw [h']
      obtain ⟨e, -⟩ := finishFrame_spec { s with frameBytes := 0#16 } h4 h5 h6
      refine ⟨?_, .inl rfl⟩
      show hostKept s (finishFrame { s with frameBytes := 0#16 } s.fsw.toNat)
      generalize finishFrame { s with frameBytes := 0#16 } s.fsw.toNat = F at *
      generalize F.mem = m at *
      generalize F.crc1 = c1 at *
      generalize F.crc2 = c2 at *
      subst e
      exact K0
  | _ => exact ⟨_, rfl, K0, .inl rfl⟩

/-! ### The invariant, part by part -/

/-- The invariant but for its two clauses about BUSY: what a command's rule keeps while it runs. -/
structure EngineInv (s : State) : Prop where
  mem_wf : Memory.wf s.mem = true
  bitpos_le : s.bitpos.toNat ≤ 32768
  cnt1_lt : s.cnt1.toNat < 3
  cnt2_lt : s.cnt2.toNat < 3
  head_lt : ∀ g : Grp, s.head g < 1536
  latch_code : s.errBits = 0#12 ↔ s.errCode = 0#4
  latch_info : s.errBits = 0#12 → s.errInfo = 0#32
  code_le : s.errCode.toNat ≤ 12
  tdstat_ok : TdstatOk s.tdstat
  frame_bytes : s.frameBytes.toNat = 0 ∨
    (s.frameBytes.toNat % 2 = 0 ∧ 8 ≤ s.frameBytes.toNat ∧ s.frameBytes.toNat ≤ 4096)
  draw_lt : s.memDraw < s.draws

theorem inv_iff (s : State) : s.Inv ↔ EngineInv s ∧ (s.busy = true → (decode? s.fetchWord).isSome = true) ∧
    (s.busy = true → s.done = false) := by
  constructor
  · rintro ⟨a, b, c, d, e, f, g, h, i, j, k, l, m⟩
    exact ⟨⟨a, b, c, d, e, h, i, j, k, l, m⟩, f, g⟩
  · rintro ⟨⟨a, b, c, d, e, h, i, j, k, l, m⟩, f, g⟩
    exact ⟨a, b, c, d, e, f, g, h, i, j, k, l, m⟩

theorem EngineInv.raise {s : State} (h : EngineInv s) (c : ErrCode) (info : Word) : EngineInv (s.raise c info) := by
  refine ⟨h.mem_wf, h.bitpos_le, h.cnt1_lt, h.cnt2_lt, ?_, ?_, ?_, ?_, h.tdstat_ok, h.frame_bytes, h.draw_lt⟩
  · intro g; have := h.head_lt g; cases g <;> exact this
  · have hne := raise_errBits_ne_zero s c info
    refine ⟨fun h => absurd h hne, fun hc => ?_⟩
    exfalso
    by_cases h0 : s.errBits = 0#12
    · rw [((raise_spec s c info).2.1 h0).1] at hc; revert hc; cases c <;> decide
    · rw [((raise_spec s c info).2.2.1 h0).1] at hc; exact h0 (h.latch_code.2 hc)
  · intro h0; exact absurd h0 (raise_errBits_ne_zero s c info)
  · by_cases h0 : s.errBits = 0#12
    · rw [((raise_spec s c info).2.1 h0).1]; cases c <;> decide
    · rw [((raise_spec s c info).2.2.1 h0).1]; exact h.code_le

theorem EngineInv.complete {r : CmdResult} (h : EngineInv r.st) : EngineInv r.complete := by
  obtain ⟨t, _ | e⟩ := r
  · refine ⟨h.mem_wf, h.bitpos_le, h.cnt1_lt, h.cnt2_lt, ?_, h.latch_code, h.latch_info, h.code_le, h.tdstat_ok,
      h.frame_bytes, h.draw_lt⟩
    intro g; have := h.head_lt g; cases g <;> exact this
  · have h := EngineInv.raise h e.code e.info
    refine ⟨h.mem_wf, h.bitpos_le, h.cnt1_lt, h.cnt2_lt, ?_, h.latch_code, h.latch_info, h.code_le, h.tdstat_ok,
      h.frame_bytes, h.draw_lt⟩
    intro g; have := h.head_lt g; cases g <;> exact this

theorem elemDone_wf {s t : State} {i : Nat} {c : Int} {e : Nat} {bap : BitVec 4} (h : ElemDone s i c e bap t) (hw :
    Memory.wf s.mem = true) : Memory.wf t.mem = true := by
  cases h with
  | plain x => exact writeCells_wf _ _ hw
  | grouped g hk =>
    generalize (symq c e (Config.levels bap.toNat)).toNat = q
    show Memory.wf (groupElem s g i q).mem = true
    unfold groupElem groupSlots
    split
    · simp only [setCnt_mem, setHead_mem]; exact writeCells_wf _ _ hw
    · simp only [setCnt_mem]; exact writeCells_wf _ _ (writeCell_wf _ _ (writeCell_wf _ _ hw))

theorem EngineInv.elem {s t : State} {i : Nat} {c : Int} {e : Nat} {bap : BitVec 4} (h : ElemDone s i c e bap t) (hi : i < 1536) (hc :
    EngineInv s) : EngineInv t := by
  obtain ⟨k1, k2, k3, k4, k5, k6, k7, k8, k9, k10, k11, k12, k13, k14, k15, k16, k17, k18, k19, k20, k21, k22, k23, k24, k25,
    k26⟩ := h.frame.kept
  have hg := fun g => h.groups hi g
  have hcnt : ∀ g : Grp, s.cnt g < g.size → t.cnt g < g.size := by
    intro g hlt
    by_cases hk : classKind bap = .grouped g
    · rw [((hg g).2 hk).1]; exact Grp.next_lt g _
    · rw [((hg g).1 hk).1]; exact hlt
  refine ⟨elemDone_wf h hc.mem_wf, (by rw [k12]; exact hc.bitpos_le), hcnt .g1 hc.cnt1_lt, hcnt .g2 hc.cnt2_lt, ?_,
    (by rw [k6, k7]; exact hc.latch_code), (by rw [k6, k8]; exact hc.latch_info), (by rw [k7]; exact hc.code_le),
    (by rw [k10]; exact hc.tdstat_ok), (by rw [k17]; exact hc.frame_bytes),
    (by rw [k22, k23]; exact hc.draw_lt)⟩
  intro g
  by_cases hk : classKind bap = .grouped g
  · rw [((hg g).2 hk).2]; split
    · exact hi
    · exact hc.head_lt g
  · rw [((hg g).1 hk).2]; exact hc.head_lt g

theorem EngineInv.qelem {s : State} {i : Nat} {c : Int} {e : Nat} {bap : BitVec 4} (hi : i < 1536) (hc : EngineInv s) :
    EngineInv (qelem s i c e bap).st := by
  rcases qelem_cases s i c e bap with ⟨t, ht, hd⟩ | ⟨hf, -⟩ | ⟨hf, -⟩
  · rw [ht]; exact hc.elem hd hi
  · rw [hf]; exact hc
  · rw [hf]; exact hc

theorem EngineInv.writer {s t : State} (h : WriterKeeps s t) (hc : EngineInv s) : EngineInv t := by
  have hf := h.frame
  have hw := h.wf hc.mem_wf
  have hp := h.pos hc.bitpos_le
  generalize t.mem = m at *
  generalize t.bitpos = b at *
  subst hf
  exact ⟨hw, hp, hc.cnt1_lt, hc.cnt2_lt, fun g => by have := hc.head_lt g; cases g <;> exact this, hc.latch_code, hc.latch_info,
    hc.code_le, hc.tdstat_ok, hc.frame_bytes, hc.draw_lt⟩

theorem slotIndex_lt_of_chOk {ch : BitVec 3} {k : Nat} (h : chOk ch = true) (hk : k < 256) : slotIndex ch k < 1536 := by
  have h : ch.toNat < 6 := of_decide_eq_true h
  simp only [slotIndex, Config.ncoef]; omega

theorem EngineInv.exec {s t : State} {i : Instr} (hwf : i.wf = true) (hc : EngineInv s) (hx : exec i s = .next t) : EngineInv t := by
  cases i with
  | nop => injection hx with hx; subst hx; exact EngineInv.complete (r := .ok s) hc
  | qblk =>
    injection hx with hx; subst hx; apply EngineInv.complete
    exact ⟨hc.mem_wf, hc.bitpos_le, by show (0#2).toNat < 3; decide, by show (0#2).toNat < 3; decide,
      fun g => by cases g <;> (show (0#11).toNat < 1536; decide), hc.latch_code, hc.latch_info, hc.code_le, hc.tdstat_ok,
      hc.frame_bytes, hc.draw_lt⟩
  | qcoef ch k bap exp =>
    injection hx with hx; subst hx; apply EngineInv.complete
    exact hc.qelem (slotIndex_lt_of_chOk hwf (by have := k.isLt; omega))
  | qrun ch n =>
    injection hx with hx; subst hx; apply EngineInv.complete
    simp only [Instr.wf, Bool.and_eq_true] at hwf
    have hn : n.toNat ≤ 256 := of_decide_eq_true hwf.2
    exact qrunFrom_induct _ _ _ hc fun j a b h1 h2 h3 h4 => h3.elem h4 (slotIndex_lt_of_chOk hwf.1 (by omega))
  | fbegin =>
    injection hx with hx; subst hx; apply EngineInv.complete
    exact ⟨hc.mem_wf, by show (0#32).toNat ≤ 32768; decide, hc.cnt1_lt, hc.cnt2_lt,
      fun g => by have := hc.head_lt g; cases g <;> exact this, hc.latch_code, hc.latch_info, hc.code_le, hc.tdstat_ok,
      .inl rfl, hc.draw_lt⟩
  | putbits w =>
    injection hx with hx; subst hx; apply EngineInv.complete
    exact hc.writer (putBits_keeps _ _ _ _).1
  | flush => injection hx with hx; subst hx; apply EngineInv.complete; exact hc.writer (flushWriter_keeps s)
  | mpack ch n => injection hx with hx; subst hx; apply EngineInv.complete; exact hc.writer (mpackFrom_keeps _ _ _ _).1
  | tdrun =>
    injection hx with hx; subst hx; apply EngineInv.complete
    unfold tdrunBody
    split
    · exact hc
    · have ht := tdstatOk_tdrun s.tdwin
      exact ⟨hc.mem_wf, hc.bitpos_le, hc.cnt1_lt, hc.cnt2_lt, fun g => by have := hc.head_lt g; cases g <;> exact this, hc.latch_code,
        hc.latch_info, hc.code_le, ht, hc.frame_bytes, hc.draw_lt⟩
  | tdpush ch =>
    injection hx with hx; subst hx; apply EngineInv.complete
    have hch : ch.toNat < 6 := of_decide_eq_true hwf
    unfold tdpushBody
    split
    · split
      · exact hc
      · have ht := tdstatOk_tdpush (pushWindow s ch) hch
        generalize s.tdnew = vs
        exact ⟨writeCellsList_wf _ _ hc.mem_wf, hc.bitpos_le, hc.cnt1_lt, hc.cnt2_lt,
          fun g => by have := hc.head_lt g; cases g <;> exact this, hc.latch_code, hc.latch_info, hc.code_le, ht, hc.frame_bytes,
          hc.draw_lt⟩
    · have ht := tdstatOk_disabled hch
      exact ⟨hc.mem_wf, hc.bitpos_le, hc.cnt1_lt, hc.cnt2_lt, fun g => by have := hc.head_lt g; cases g <;> exact this, hc.latch_code,
        hc.latch_info, hc.code_le, ht, hc.frame_bytes, hc.draw_lt⟩
  | tdclr =>
    injection hx with hx; subst hx; apply EngineInv.complete
    exact ⟨clearTails_wf s hc.mem_wf, hc.bitpos_le, hc.cnt1_lt, hc.cnt2_lt, fun g => by have := hc.head_lt g; cases g <;> exact this,
      hc.latch_code, hc.latch_info, hc.code_le, hc.tdstat_ok, hc.frame_bytes, hc.draw_lt⟩
  | crccalc =>
    injection hx with hx; subst hx; apply EngineInv.complete
    unfold crccalcBody
    split
    · exact hc
    · exact ⟨hc.mem_wf, hc.bitpos_le, hc.cnt1_lt, hc.cnt2_lt, fun g => by have := hc.head_lt g; cases g <;> exact this, hc.latch_code,
        hc.latch_info, hc.code_le, hc.tdstat_ok, hc.frame_bytes, hc.draw_lt⟩
  | crczapp =>
    injection hx with hx; subst hx; apply EngineInv.complete
    exact ⟨hc.mem_wf, hc.bitpos_le, hc.cnt1_lt, hc.cnt2_lt, fun g => by have := hc.head_lt g; cases g <;> exact this, hc.latch_code,
      hc.latch_info, hc.code_le, hc.tdstat_ok, hc.frame_bytes, hc.draw_lt⟩
  | crcinv =>
    injection hx with hx; subst hx; apply EngineInv.complete
    exact ⟨hc.mem_wf, hc.bitpos_le, hc.cnt1_lt, hc.cnt2_lt, fun g => by have := hc.head_lt g; cases g <;> exact this, hc.latch_code,
      hc.latch_info, hc.code_le, hc.tdstat_ok, hc.frame_bytes, hc.draw_lt⟩
  | final =>
    injection hx with hx; subst hx; apply EngineInv.complete
    have hc0 : EngineInv { s with frameBytes := 0#16 } :=
      ⟨hc.mem_wf, hc.bitpos_le, hc.cnt1_lt, hc.cnt2_lt, fun g => by have := hc.head_lt g; cases g <;> exact this, hc.latch_code,
        hc.latch_info, hc.code_le, hc.tdstat_ok, .inl rfl, hc.draw_lt⟩
    rcases finalBody_cases s with ⟨-, h'⟩ | ⟨-, -, -, h'⟩ | ⟨h4, h5, h6, h'⟩
    · rw [h']; exact hc0
    · rw [h']; exact hc0
    · rw [h']
      obtain ⟨e, -, -, -, -, -, -, -, -, -, -, hw⟩ := finishFrame_spec { s with frameBytes := 0#16 } h4 h5 h6
      have hw := hw hc.mem_wf
      show EngineInv (finishFrame { s with frameBytes := 0#16 } s.fsw.toNat)
      generalize finishFrame { s with frameBytes := 0#16 } s.fsw.toNat = F at *
      generalize F.mem = m at *
      generalize F.crc1 = c1 at *
      generalize F.crc2 = c2 at *
      subst e
      refine ⟨hw, ?_, hc.cnt1_lt, hc.cnt2_lt, fun g => by have := hc.head_lt g; cases g <;> exact this, hc.latch_code, hc.latch_info,
        hc.code_le, hc.tdstat_ok, .inr ?_, hc.draw_lt⟩
      · simp; omega
      · simp; omega


theorem decode_wf {w : Word} {i : Instr} (h : decode w = .ok i) : i.wf = true := by
  unfold decode at h
  split at h
  · cases h
  · rename_i op hop
    split at h
    · cases h
    · split at h
      · cases h
      · split at h
        · cases h
        · split at h
          · cases h
          · rename_i h1 h2 h3 h4
            injection h with h
            subst h
            cases op <;> simp_all [assemble, Instr.wf, formatOf, hasChannel]

theorem EngineInv.fields {s t : State} (h : EngineInv s) (hm : t.mem = s.mem) (hb : t.bitpos = s.bitpos) (h1 : t.cnt1 = s.cnt1)
    (h2 : t.cnt2 = s.cnt2)
    (g1 : t.head1 = s.head1) (g2 : t.head2 = s.head2) (g4 : t.head4 = s.head4) (e1 : t.errBits = s.errBits)
      (e2 : t.errCode = s.errCode) (e3 : t.errInfo = s.errInfo)
    (t1 : t.tdstat = s.tdstat) (f : t.frameBytes = s.frameBytes) (d1 : t.memDraw = s.memDraw) (d2 : t.draws = s.draws) :
      EngineInv t := by
  refine ⟨by rw [hm]; exact h.mem_wf, by rw [hb]; exact h.bitpos_le, by rw [h1]; exact h.cnt1_lt, by rw [h2]; exact h.cnt2_lt,
    fun g => ?_,
    by rw [e1, e2]; exact h.latch_code, by rw [e1, e3]; exact h.latch_info, by rw [e2]; exact h.code_le,
      by rw [t1]; exact h.tdstat_ok,
    by rw [f]; exact h.frame_bytes, by rw [d1, d2]; exact h.draw_lt⟩
  have := h.head_lt g
  cases g
  · show t.head1.toNat < _; rw [g1]; exact this
  · show t.head2.toNat < _; rw [g2]; exact this
  · show t.head4.toNat < _; rw [g4]; exact this

theorem engineInv_reset (m : List Host.Cell) (hm : Memory.wf m = true) (a b : Nat) (hab : a < b) (r : Bool) (is : List Input) (rs :
    BusResp) :
   EngineInv { State.reset with mem := m, memDraw := a, draws := b, rst := r, inputs := is, resp := rs } :=
  ⟨hm, by show (0#32).toNat ≤ _; decide, by show (0#2).toNat < 3; decide, by show (0#2).toNat < 3; decide,
    fun g => by cases g <;> (show (0#11).toNat < 1536; decide),
   by show 0#12 = 0#12 ↔ 0#4 = 0#4; simp, fun _ => rfl, by show (0#4).toNat ≤ 12; decide,
     tdstatOk_reset, .inl rfl, hab⟩

/-- The invariant, its clauses about BUSY apart. -/
def FullInv (s : State) : Prop :=
  EngineInv s ∧ (s.busy = true → (decode? s.fetchWord).isSome = true) ∧ (s.busy = true → s.done = false)

theorem FullInv.raise {s : State} (h : FullInv s) (c : ErrCode) (info : Word) : FullInv (s.raise c info) := ⟨h.1.raise c info, h.2⟩
theorem FullInv.resp {s : State} (h : FullInv s) (r : BusResp) :
    FullInv (s.respond r) := ⟨h.1.fields rfl rfl rfl rfl rfl rfl rfl rfl rfl rfl rfl rfl rfl rfl, h.2⟩

theorem FullInv.accept {s : State} (h : FullInv s) (hb : s.busy = false) (w : Word) : FullInv (s.accept w) := by
  unfold State.accept
  split
  · rename_i i hi
    refine ⟨h.1.fields rfl rfl rfl rfl rfl rfl rfl rfl rfl rfl rfl rfl rfl rfl, fun _ => ?_, fun _ => rfl⟩
    show (decode? w).isSome = true
    unfold decode?; rw [hi]; rfl
  · rename_i e he
    have h1 : EngineInv { s with lastCmd := w, bswenSampled := s.bswen } :=
      h.1.fields rfl rfl rfl rfl rfl rfl rfl rfl rfl rfl rfl rfl rfl rfl
    have h2 := h1.raise (DecodeError.toCode e) w
    refine ⟨h2.fields rfl rfl rfl rfl rfl rfl rfl rfl rfl rfl rfl rfl rfl rfl, ?_, ?_⟩
    · intro hb'; have : s.busy = true := hb'; rw [hb] at this; cases this
    · intro hb'; have : s.busy = true := hb'; rw [hb] at this; cases this

theorem FullInv.softReset {s : State} (h : FullInv s) : FullInv s.softReset := by
  have ha : Memory.wf s.abortPending.mem = true ∧ s.abortPending.memDraw < s.abortPending.draws := by
    unfold State.abortPending
    split
    · split
      · exact ⟨drawAt_wf _ _ h.1.mem_wf, Nat.lt_succ_of_lt h.1.draw_lt⟩
      · exact ⟨h.1.mem_wf, h.1.draw_lt⟩
    · exact ⟨h.1.mem_wf, h.1.draw_lt⟩
  refine ⟨?_, (fun hb => by cases hb), (fun hb => by cases hb)⟩
  exact engineInv_reset _ (clearTails_wf _ ha.1) _ _ ha.2 _ _ _

theorem FullInv.writeReg {s : State} (h : FullInv s) (r : Reg) (v : Word) : FullInv (s.writeReg r v) := by
  cases r with
  | ctrl =>
    unfold State.writeReg
    simp only
    split
    · exact h.softReset
    · exact ⟨h.1.fields rfl rfl rfl rfl rfl rfl rfl rfl rfl rfl rfl rfl rfl rfl, h.2⟩
  | status =>
    refine ⟨h.1.fields rfl rfl rfl rfl rfl rfl rfl rfl rfl rfl rfl rfl rfl rfl, h.2.1, fun hb => ?_⟩
    show (s.done && !v.getLsbD 1) = false
    rw [h.2.2 hb]; rfl
  | cmd =>
    show FullInv (s.writeCmd v)
    unfold State.writeCmd
    cases hb : s.busy
    · exact h.accept hb v
    · exact h.raise _ _
  | errBits =>
    refine ⟨⟨h.1.mem_wf, h.1.bitpos_le, h.1.cnt1_lt, h.1.cnt2_lt, fun g => by have := h.1.head_lt g; cases g <;> exact this, ?_, ?_,
      ?_, h.1.tdstat_ok, h.1.frame_bytes, h.1.draw_lt⟩, h.2⟩
    · show s.errBits &&& _ = _ ↔ (if s.errBits &&& ~~~(v.extractLsb' 1 12) = 0#12 then 0#4 else s.errCode) = 0#4
      split
      · rename_i h0; exact ⟨fun _ => rfl, fun _ => h0⟩
      · rename_i h0
        refine ⟨fun hx => absurd hx h0, fun hx => ?_⟩
        rw [h.1.latch_code.2 hx] at h0; simp at h0
    · intro h0
      have h0 : s.errBits &&& ~~~(v.extractLsb' 1 12) = 0#12 := h0
      show (if _ then _ else _) = _
      rw [if_pos h0]
    · show (if s.errBits &&& ~~~(v.extractLsb' 1 12) = 0#12 then 0#4 else s.errCode).toNat ≤ 12
      split
      · decide
      · exact h.1.code_le
  | qin | putData | fsw | crcStart | crcLen | crcBits | crcVal =>
    exact ⟨h.1.fields rfl rfl rfl rfl rfl rfl rfl rfl rfl rfl rfl rfl rfl rfl, h.2⟩
  | _ => exact h

theorem FullInv.writePlace {s : State} (h : FullInv s) (p : Place) (v : Word) : FullInv (s.writePlace p v) := by
  cases p with
  | reg r => exact h.writeReg r v
  | entry a => exact ⟨⟨writeCells_wf _ _ h.1.mem_wf, h.1.bitpos_le, h.1.cnt1_lt, h.1.cnt2_lt,
    fun g => by have := h.1.head_lt g; cases g <;> exact this, h.1.latch_code, h.1.latch_info, h.1.code_le, h.1.tdstat_ok,
    h.1.frame_bytes, h.1.draw_lt⟩, h.2⟩
  | frame a => exact ⟨⟨writeCellsBE_wf _ _ h.1.mem_wf, h.1.bitpos_le, h.1.cnt1_lt, h.1.cnt2_lt,
    fun g => by have := h.1.head_lt g; cases g <;> exact this, h.1.latch_code, h.1.latch_info, h.1.code_le, h.1.tdstat_ok,
    h.1.frame_bytes, h.1.draw_lt⟩, h.2⟩


end Sys2Proof.Machine
end

