-- ==== Sys2Proof/Laws/PerInstr.lean ====
section
/-!
SUPPORT. Facts about each command as syntax, one lemma per constructor: its word carries its opcode in bits [31:24], and that byte
maps back to its opcode (30_encoding.md R91, R98).
-/
namespace Sys2Proof.Laws

open Sys2Proof

/-- The word of a command carries its op byte in bits [31:24], and the opcode map reads the opcode back from it (R91, R98). -/
def OpcodeField.Statement (i : Instr) : Prop :=
  fieldOp (encode i) = opByte (opcodeOf i) ∧ opcodeOfByte (fieldOp (encode i)) = some (opcodeOf i)

/-- The op byte stands above the 24 operand bits. -/
theorem fieldOp_encode (i : Instr) : fieldOp (encode i) = opByte (opcodeOf i) := by
  ext j hj
  have top : (encode i).getLsbD (24 + j) = (opByte (opcodeOf i)).getLsbD j := by
    have h := BitVec.getLsbD_append (x := opByte (opcodeOf i)) (y := operandBits i) (i := 24 + j)
    simpa [encode] using h
  rw [fieldOp, BitVec.getElem_extractLsb', top, BitVec.getLsbD_eq_getElem hj]

/-- The opcode map inverts the op bytes. -/
theorem opcodeOfByte_opByte (op : Opcode) : opcodeOfByte (opByte op) = some op := by
  cases op <;> rfl

/-- Both together. -/
theorem opcodeField (i : Instr) : OpcodeField.Statement i :=
  ⟨fieldOp_encode i, by rw [fieldOp_encode, opcodeOfByte_opByte]⟩

theorem OpcodeField.nop : OpcodeField.Statement (.nop) := opcodeField _
theorem OpcodeField.qblk : OpcodeField.Statement (.qblk) := opcodeField _
theorem OpcodeField.qcoef (ch : BitVec 3) (k : BitVec 8) (bap : BitVec 4) (exp : BitVec 5) : OpcodeField.Statement (.qcoef ch k bap exp) := opcodeField _
theorem OpcodeField.qrun (ch : BitVec 3) (n : BitVec 9) : OpcodeField.Statement (.qrun ch n) := opcodeField _
theorem OpcodeField.fbegin : OpcodeField.Statement (.fbegin) := opcodeField _
theorem OpcodeField.putbits (w : BitVec 6) : OpcodeField.Statement (.putbits w) := opcodeField _
theorem OpcodeField.flush : OpcodeField.Statement (.flush) := opcodeField _
theorem OpcodeField.mpack (ch : BitVec 3) (n : BitVec 9) : OpcodeField.Statement (.mpack ch n) := opcodeField _
theorem OpcodeField.tdrun : OpcodeField.Statement (.tdrun) := opcodeField _
theorem OpcodeField.tdpush (ch : BitVec 3) : OpcodeField.Statement (.tdpush ch) := opcodeField _
theorem OpcodeField.tdclr : OpcodeField.Statement (.tdclr) := opcodeField _
theorem OpcodeField.crccalc : OpcodeField.Statement (.crccalc) := opcodeField _
theorem OpcodeField.crczapp : OpcodeField.Statement (.crczapp) := opcodeField _
theorem OpcodeField.crcinv : OpcodeField.Statement (.crcinv) := opcodeField _
theorem OpcodeField.final : OpcodeField.Statement (.final) := opcodeField _

end Sys2Proof.Laws
end

