-- ==== Sys2Proof/Laws/Samples.lean ====
section
/-!
SUPPORT. The arithmetic of binary32 samples: rounding to the nearest, what the magnitude bits of a rounded product stand for, and the order
of magnitudes (R15).
-/
namespace Sys2Proof.Machine

open Sys2Proof

/-! ### The format's parameters, written out -/

theorem isInf_eq (x : Word) : isInf x = decide (x.toNat % 2 ^ 31 = 0x7F800000) := rfl

theorem orderKey_eq (x : Word) :
    orderKey x = if x.getLsbD 31 then -((x.toNat % 2 ^ 31 : Nat) : Int) else ((x.toNat % 2 ^ 31 : Nat) : Int) := rfl

theorem roundMag_eq (p : Nat) : roundMag p = min (spacing p * 2 ^ 23 + roundShift p (149 + spacing p)) 0x7F800000 := rfl

theorem spacing_eq (p : Nat) : spacing p = Nat.log2 (p / 2 ^ 149) - 23 := rfl

/-- A finite sample's units are its magnitude's (R15). -/
theorem finiteUnits_eq (x : Word) : finiteUnits x = binary32Units (x.toNat % 2 ^ 31) := by
  have e : finiteUnits x = if x.toNat % 2 ^ 31 / 2 ^ 23 = 0 then x.toNat % 2 ^ 23
      else (2 ^ 23 + x.toNat % 2 ^ 23) * 2 ^ (x.toNat % 2 ^ 31 / 2 ^ 23 - 1) := rfl
  rw [e, binary32Units, show x.toNat % 2 ^ 31 % 2 ^ 23 = x.toNat % 2 ^ 23 by omega]
  by_cases h : x.toNat % 2 ^ 31 < 2 ^ 23
  · rw [if_pos (by omega), if_pos h]; omega
  · rw [if_neg (by omega), if_neg h]

/-! ### Magnitudes -/

/-- In units, a magnitude above the lowest binade is its 24 significant bits, shifted (R15). -/
theorem binary32Units_add {k r : Nat} (h1 : 2 ^ 23 ≤ r) (h2 : r ≤ 2 ^ 24) : binary32Units (k * 2 ^ 23 + r) = r * 2 ^ k := by
  rw [binary32Units, if_neg (by omega)]
  rcases Nat.lt_or_eq_of_le h2 with h | rfl
  · rw [show (k * 2 ^ 23 + r) % 2 ^ 23 = r - 2 ^ 23 by omega, show (k * 2 ^ 23 + r) / 2 ^ 23 - 1 = k by omega,
      show 2 ^ 23 + (r - 2 ^ 23) = r by omega]
  · rw [show (k * 2 ^ 23 + 2 ^ 24) % 2 ^ 23 = 0 by omega, show (k * 2 ^ 23 + 2 ^ 24) / 2 ^ 23 - 1 = k + 1 by omega, Nat.pow_succ]
    omega

/-- Every magnitude is a shift of at most 24 significant bits: of fewer in the lowest binade alone (R15). -/
theorem binary32Units_cases (m : Nat) :
    (m < 2 ^ 23 ∧ binary32Units m = m) ∨
    ∃ k r, m = k * 2 ^ 23 + r ∧ 2 ^ 23 ≤ r ∧ r < 2 ^ 24 ∧ binary32Units m = r * 2 ^ k := by
  by_cases h : m < 2 ^ 23
  · exact .inl ⟨h, by rw [binary32Units, if_pos h]⟩
  · have e : m = (m / 2 ^ 23 - 1) * 2 ^ 23 + (2 ^ 23 + m % 2 ^ 23) := by omega
    refine .inr ⟨m / 2 ^ 23 - 1, 2 ^ 23 + m % 2 ^ 23, e, by omega, by omega, ?_⟩
    rw [binary32Units, if_neg h]

/-- A greater magnitude has more units (R15). -/
theorem binary32Units_lt_succ (m : Nat) : binary32Units m < binary32Units (m + 1) := by
  rcases binary32Units_cases m with ⟨h, e⟩ | ⟨k, r, rfl, h1, h2, e⟩
  · rw [e]
    by_cases h' : m + 1 < 2 ^ 23
    · rw [binary32Units, if_pos h']; omega
    · have := binary32Units_add (k := 0) (r := m + 1) (by omega) (by omega)
      rw [Nat.zero_mul, Nat.zero_add] at this
      rw [this]; omega
  · rw [e, Nat.add_assoc, binary32Units_add (by omega) (by omega)]
    exact Nat.mul_lt_mul_of_pos_right (by omega) (by positivity)

theorem binary32Units_strictMono : StrictMono binary32Units := strictMono_nat_of_lt_succ binary32Units_lt_succ

/-! ### Rounding -/

/-- Everything rounding can do: the result is within half a place, and even where it is exactly half a place away (R15). -/
theorem roundShift_spec (p n : Nat) :
    p / 2 ^ n ≤ roundShift p n ∧ roundShift p n ≤ p / 2 ^ n + 1 ∧
    2 * (roundShift p n * 2 ^ n) ≤ 2 * p + 2 ^ n ∧ 2 * p ≤ 2 * (roundShift p n * 2 ^ n) + 2 ^ n ∧
    (2 * (roundShift p n * 2 ^ n) = 2 * p + 2 ^ n ∨ 2 * p = 2 * (roundShift p n * 2 ^ n) + 2 ^ n → roundShift p n % 2 = 0) := by
  have hd : p / 2 ^ n * 2 ^ n + p % 2 ^ n = p := Nat.div_add_mod' p (2 ^ n)
  have hlt : p % 2 ^ n < 2 ^ n := Nat.mod_lt _ (by positivity)
  unfold roundShift
  generalize p / 2 ^ n = q at *
  generalize p % 2 ^ n = r at *
  have hs : (q + 1) * 2 ^ n = q * 2 ^ n + 2 ^ n := Nat.succ_mul ..
  generalize 2 ^ n = d at *
  split
  · rw [hs]; generalize q * d = x at *; omega
  · generalize q * d = x at *; omega

/-- Where the results of a product lie: its binade, as the places its units are shifted by (R15). -/
theorem spacing_cases (p : Nat) :
    (spacing p = 0 ∧ p / 2 ^ (149 + spacing p) < 2 ^ 24) ∨
    (0 < spacing p ∧ 2 ^ 23 ≤ p / 2 ^ (149 + spacing p) ∧ p / 2 ^ (149 + spacing p) < 2 ^ 24) := by
  rw [Nat.pow_add, ← Nat.div_div_eq_div_mul, spacing_eq]
  generalize p / 2 ^ 149 = q
  have hlt : q < 2 ^ (q.log2 + 1) := Nat.lt_log2_self
  by_cases h : q.log2 ≤ 23
  · refine .inl ⟨by omega, ?_⟩
    rw [show q.log2 - 23 = 0 by omega, Nat.pow_zero, Nat.div_one]
    exact Nat.lt_of_lt_of_le hlt (Nat.pow_le_pow_right (by omega) (by omega))
  · have hq : q ≠ 0 := by rintro rfl; exact h (by decide)
    have hle : 2 ^ q.log2 ≤ q := Nat.log2_self_le hq
    generalize q.log2 = l at *
    obtain ⟨k, rfl⟩ : ∃ k, l = 23 + k := ⟨l - 23, by omega⟩
    rw [show 23 + k - 23 = k by omega]
    rw [Nat.pow_add] at hle
    rw [show 23 + k + 1 = 24 + k by omega, Nat.pow_add] at hlt
    exact .inr ⟨by omega, (Nat.le_div_iff_mul_le (by positivity)).2 hle, (Nat.div_lt_iff_lt_mul (by positivity)).2 hlt⟩

/-- The magnitude bits of a rounded product stand for the rounded multiple of the spacing, and are even exactly when it is (R15). -/
theorem roundMag_units (p : Nat) :
    binary32Units (spacing p * 2 ^ 23 + roundShift p (149 + spacing p)) = roundShift p (149 + spacing p) * 2 ^ spacing p := by
  obtain ⟨h1, h2, -⟩ := roundShift_spec p (149 + spacing p)
  have hb := spacing_cases p
  generalize spacing p = k at *
  generalize p / 2 ^ (149 + k) = q at *
  generalize roundShift p (149 + k) = r at *
  rcases hb with ⟨rfl, h⟩ | ⟨-, h, h'⟩
  · by_cases hr : r < 2 ^ 23
    · rw [Nat.zero_mul, Nat.zero_add, binary32Units, if_pos hr, Nat.pow_zero, Nat.mul_one]
    · exact binary32Units_add (by omega) (by omega)
  · exact binary32Units_add (by omega) (by omega)

/-- A product rounds to infinity from half a place above the largest finite sample on (R15). -/
theorem roundMag_lt_iff (p : Nat) :
    spacing p * 2 ^ 23 + roundShift p (149 + spacing p) < 0x7F800000 ↔ p < (2 ^ 25 - 1) * 2 ^ 401 := by
  obtain ⟨h1, h2, h3, h4, h5⟩ := roundShift_spec p (149 + spacing p)
  have hb := spacing_cases p
  generalize hk : spacing p = k at *
  generalize roundShift p (149 + k) = r at *
  have hd : p < (p / 2 ^ (149 + k) + 1) * 2 ^ (149 + k) := by
    rw [Nat.mul_comm]; exact Nat.lt_mul_div_succ p (by positivity)
  have hp : p / 2 ^ (149 + k) * 2 ^ (149 + k) ≤ p := Nat.div_mul_le_self ..
  generalize p / 2 ^ (149 + k) = q at *
  rcases Nat.lt_trichotomy k 253 with hlt | rfl | hgt
  · refine ⟨fun _ => ?_, fun _ => by omega⟩
    obtain ⟨j, hj⟩ : ∃ j, 401 = 149 + k + j := ⟨252 - k, by omega⟩
    rw [hj, Nat.pow_add, ← Nat.mul_assoc, Nat.mul_right_comm]
    exact Nat.lt_of_lt_of_le hd (Nat.mul_le_mul_right _
      (Nat.le_trans (show q + 1 ≤ 2 ^ 25 - 1 by omega) (Nat.le_mul_of_pos_right _ (by positivity))))
  · have hr : 253 * 2 ^ 23 + r < 0x7F800000 ↔ r < 2 ^ 24 := by omega
    rw [hr]
    have e : (2 : Nat) ^ (149 + 253) = 2 * 2 ^ 401 := by
      rw [show 149 + 253 = 401 + 1 from rfl, Nat.pow_succ']
    rw [e] at h3 h4 h5
    generalize (2 : Nat) ^ 401 = d at *
    constructor
    · intro h
      rcases Nat.lt_or_eq_of_le (show r ≤ 2 ^ 24 - 1 by omega) with hlt | rfl
      · have := Nat.mul_le_mul_right d (show r ≤ 2 ^ 24 - 2 by omega)
        rw [Nat.mul_left_comm] at h4
        generalize r * d = x at *
        have : 0 < d := by omega
        omega
      · omega
    · intro h
      by_contra hr'
      obtain rfl : r = 2 ^ 24 := by omega
      omega
  · refine ⟨fun _ => by omega, fun h => ?_⟩
    exfalso
    have : 2 ^ 23 * 2 ^ (149 + 254) ≤ p := Nat.le_trans (Nat.mul_le_mul (show 2 ^ 23 ≤ q by omega)
      (Nat.pow_le_pow_right (by omega) (show 149 + 254 ≤ 149 + k by omega))) hp
    have e : (2 : Nat) ^ (149 + 254) = 4 * 2 ^ 401 := by
      rw [show 149 + 254 = 2 + 401 from rfl, Nat.pow_add]
    rw [e] at this
    generalize (2 : Nat) ^ 401 = d at *
    omega

end Sys2Proof.Machine
end

