-- ==== Sys2Proof/Tests/Slice0.lean ====
section
/-!
SUPPORT. Tests on fixed values, their expected results taken from spec/95_test_vectors.md (the row is named with each) and from the words
written out in the spec; and, for each statement that has hypotheses, a state and operands that meet them.
-/
namespace Sys2Proof.Tests

open Sys2Proof Sys2Proof.Machine

-- One test is elaborated after another: many waiting for the kernel at once, each on a thread of its own, would take the memory.
set_option Elab.async false

/-! ### Helpers -/

/-- The state an outcome leaves. -/
def after (o : Host.Outcome State Fault Refusal) : State :=
  match o with
  | .next t => t
  | .fault _ => State.reset
  | .refused _ => State.reset

/-- The reset state with inputs to come. -/
def idle (is : List Input) : State := { State.reset with inputs := is }

/-- A machine that has accepted a word and not yet executed it. -/
def running (w : Word) (is : List Input) : State := { State.reset with busy := true, lastCmd := w, inputs := is }

/-- The reset state with the first entries of COEF, EXPM and BAPM written. -/
def operands (cs es bs : List Word) : State :=
  ((State.reset.writeWords coefBase cs).writeWords expmBase es).writeWords bapmBase bs

/-- The reset state with the first words of FBUF written. -/
def frame (a b : Word) : State := (State.reset.writeWordBE fbufBase a).writeWordBE (fbufBase + 4) b

/-- The reset state with a window in TDWIN. -/
def window (ws : List Word) : State := State.reset.writeWords tdwinBase ws

/-- A machine whose accepted TDPUSH sampled BSWEN as `b`, with samples in TDNEW. -/
def pushing (b : Bool) (ws : List Word) : State := { State.reset.writeWords tdnewBase ws with bswenSampled := b }

theorem exec_after (i : Instr) (s : State) : exec i s = .next (after (exec i s)) := by cases i <;> rfl

/-- An aligned entry of TDWIN or TDNEW stores all of its bits. -/
theorem wordMask_samples {a : Nat} (h4 : a % 4 = 0) (h1 : 0xA000 ≤ a) (h2 : a < 0xAC00) : wordMask a = 0xFFFFFFFF#32 := by
  have he : isEntry a = true := by
    have : inRange tdwinBase 0x0800 a = true ∨ inRange tdnewBase 0x0400 a = true := by
      rw [inRange_iff, inRange_iff, tdwinBase, tdnewBase]; omega
    rcases this with h | h <;> simp [isEntry_eq, h]
  have n : ∀ b, b < 0x8800 → inRange b 0x1800 a = false := fun b hb => by rw [inRange_false_iff]; omega
  rw [wordMask_entry h4 he, n expmBase (by decide), n bapmBase (by decide), n slotBase (by decide)]
  rfl

theorem tdwin_window {ws : List Word} (h : ws.length = 512) : (window ws).tdwin = ws := by
  have := readWords_writeWords ws (a := tdwinBase) State.reset fun j hj =>
    wordMask_samples (by rw [tdwinBase]; omega) (by rw [tdwinBase]; omega) (by rw [tdwinBase]; omega)
  rw [h] at this
  exact this

theorem readByte_pushing (b : Bool) (ws : List Word) (a : Nat) :
    (pushing b ws).readByte a = (State.reset.writeWords tdnewBase ws).readByte a := rfl

theorem tdnew_pushing (b : Bool) {ws : List Word} (h : ws.length = 256) : (pushing b ws).tdnew = ws := by
  have := readWords_writeWords ws (a := tdnewBase) State.reset fun j hj =>
    wordMask_samples (by rw [tdnewBase]; omega) (by rw [tdnewBase]; omega) (by rw [tdnewBase]; omega)
  rw [h] at this
  rw [tdnew_eq, readWords_congr (s := State.reset.writeWords tdnewBase ws) 256 fun c _ _ => readByte_pushing b ws c]
  exact this

theorem tail_pushing (b : Bool) {ws : List Word} (h : ws.length = 256) : (pushing b ws).tail 0#3 = List.replicate 256 0#32 := by
  have h0 : (pushing b ws).tail 0#3 = State.reset.readWords (tailAddr 0#3) 256 := readWords_congr 256 fun c h1 h2 => by
    rw [readByte_pushing]
    apply readByte_writeWords_of_outside
    have : tailAddr 0#3 = 0xC000 := rfl
    rw [h, tdnewBase]
    omega
  rw [h0]
  decide +kernel

/-! ### WellFormed -/

theorem test_wf_ch : (Instr.qcoef 6#3 0#8 0#4 0#5).wf = false ∧ (Instr.tdpush 7#3).wf = false ∧ (Instr.tdpush 5#3).wf = true := by decide
theorem test_wf_n : (Instr.qrun 0#3 257#9).wf = false ∧ (Instr.mpack 0#3 511#9).wf = false ∧ (Instr.mpack 0#3 256#9).wf = true := by
  decide
theorem test_wf_w : (Instr.putbits 33#6).wf = false ∧ (Instr.putbits 63#6).wf = false ∧ (Instr.putbits 32#6).wf = true := by decide

/-! ### Decode: words written out from the formats (R92 to R96), the op bytes (R98) and the examples of R106 -/

theorem test_decode_nop : decode 0x00000000#32 = .ok .nop := by decide
theorem test_decode_qblk : decode 0x01000000#32 = .ok .qblk := by decide
/-- 02, ch 101, k 11111111, bap 1111, exp 11000, 0000 (R106). -/
theorem test_decode_qcoef : decode 0x02BFFF80#32 = .ok (.qcoef 5#3 255#8 15#4 24#5) := by decide
/-- 95 E3. -/
theorem test_decode_qcoef_fields : decode 0x02406990#32 = .ok (.qcoef 2#3 3#8 4#4 25#5) := by decide
/-- 03, ch 000, n 1 0000 0000 (R106). -/
theorem test_decode_qrun : decode 0x03100000#32 = .ok (.qrun 0#3 256#9) := by decide
theorem test_decode_fbegin : decode 0x08000000#32 = .ok .fbegin := by decide
/-- 09, w 010000 (R106). -/
theorem test_decode_putbits : decode 0x09400000#32 = .ok (.putbits 16#6) := by decide
theorem test_decode_flush : decode 0x0A000000#32 = .ok .flush := by decide
/-- 95 M7: ch 001, n 0 0000 0100. -/
theorem test_decode_mpack : decode 0x0B204000#32 = .ok (.mpack 1#3 4#9) := by decide
theorem test_decode_tdrun : decode 0x10000000#32 = .ok .tdrun := by decide
/-- 95 P-T4: ch 011. -/
theorem test_decode_tdpush : decode 0x11600000#32 = .ok (.tdpush 3#3) := by decide
theorem test_decode_tdclr : decode 0x12000000#32 = .ok .tdclr := by decide
theorem test_decode_crccalc : decode 0x18000000#32 = .ok .crccalc := by decide
theorem test_decode_crczapp : decode 0x19000000#32 = .ok .crczapp := by decide
theorem test_decode_crcinv : decode 0x1A000000#32 = .ok .crcinv := by decide
theorem test_decode_final : decode 0x1B000000#32 = .ok .final := by decide
/-- 95 X1 to X6 and P-T5. -/
theorem test_decode_illegal :
    decode 0x04000000#32 = .error .badCmd ∧ decode 0x00000001#32 = .error .badCmd ∧ decode 0x02000001#32 = .error .badCmd ∧
    decode 0xFF000000#32 = .error .badCmd ∧ decode 0x03C01000#32 = .error .badCh ∧ decode 0x03D01000#32 = .error .badCmd ∧
    decode 0x11E00000#32 = .error .badCh := by decide
theorem test_table_word : decodeTableWord 32 0x0B204000 = some (.mpack 1#3 4#9) ∧ decodeTableWord 32 0x04000000 = none := by decide

/-! ### Commands -/

/-- 95 S5 and Y1 to Y32, four of them. -/
theorem test_symq : symq 0x00555556 0 3 = 2 ∧ symq (-0x00555556) 0 3 = 0 ∧ symq (-3) 22 7 = 0 ∧ symq (-0x00800001) 1 15 = -1 := by
  decide
/-- 95 A4, A12, A18, A15. -/
theorem test_asymq : asymq 0x00800000 1 5 = 0x0F ∧ asymq (-0x00123456) 3 14 = 0x2DCB ∧ asymq 0x7FFFFFFF 24 16 = 0x7FFF ∧
    asymq (-1) 0 16 = 0xFFFF := by decide

/-- R200: NOP completes. -/
theorem test_nop : (after (exec .nop (running 0#32 []))).statusWord = 2#32 := by decide
/-- R143: GRPCNT = 0x10 becomes 0. -/
theorem test_qblk : (after (exec .qblk { State.reset with cnt4 := 1#1, head4 := 7#11 })).grpCntWord = 0#32 := by decide
/-- 95 E1. -/
theorem test_qcoef_head :
    (after (exec (.qcoef 0#3 0#8 1#4 0#5) { State.reset with qin := 0x00800000#32 })).qout = 0x00100012#32 ∧
    (after (exec (.qcoef 0#3 0#8 1#4 0#5) { State.reset with qin := 0x00800000#32 })).grpCntWord = 1#32 := by decide +kernel
/-- 95 E7. -/
theorem test_qcoef_own_head :
    (after (exec (.qcoef 0#3 0#8 1#4 0#5) { State.reset.setSlot 0 { val := 18#16, ph := false, bap := 1#4 } with cnt1 := 1#2 })).slot 0
      = { val := 128#16, ph := true, bap := 1#4 } := by decide +kernel
/-- R145's example. -/
theorem test_qrun : (after (exec (.qrun 0#3 3#9) (operands [0x00800000#32, 0xFF800000#32, 0#32] [0#32, 0#32, 0#32]
    [1#32, 1#32, 1#32]))).slot 0 = { val := 19#16, ph := false, bap := 1#4 } := by decide +kernel
/-- R145, R210: element 1 raises BADEXP (bap 2, e 25), element 0 stays. -/
theorem test_qrun_error :
    (after (exec (.qrun 1#3 2#9) ((((State.reset.writeWord 0x6400 3#32).writeWord 0x6404 2#32).writeWord 0x4400 0#32).writeWord 0x4404
      25#32 |>.writeWord 0x2400 0x00155555#32))).errInfo = 0x00192101#32 := by decide +kernel
/-- R164's example. -/
theorem test_fbegin : (after (exec .fbegin { State.reset with bitpos := 59#32, crc2 := 3#16 })).bitpos = 0#32 := by decide
/-- 95 B3 and B4: bits 101 and then nine ones. -/
theorem test_putbits :
    (after (exec (.putbits 9#6) { (frame 0xA0FFFFFF#32 0#32) with bitpos := 3#32, putdata := 0x1FF#32 })).fbufBytes 0 3
      = [0xBF#8, 0xF0#8, 0xFF#8] := by decide +kernel
/-- 95 B11. -/
theorem test_putbits_overflow :
    (after (exec (.putbits 1#6) { State.reset with bitpos := 32768#32 })).errInfo = 0x8000#32 ∧
    (after (exec (.putbits 1#6) { State.reset with bitpos := 32768#32 })).errCode = 6#4 := by decide
/-- 95 B5. -/
theorem test_flush : (after (exec .flush { State.reset with bitpos := 12#32 })).bitpos = 16#32 := by decide +kernel
/-- 95 B12. -/
theorem test_flush_full : (after (exec .flush { State.reset with bitpos := 32768#32 })).bitpos = 32768#32 := by decide +kernel
/-- 95 M5. -/
theorem test_mpack :
    (after (exec (.mpack 0#3 1#9) (State.reset.setSlot 0 { val := 0xFFFF#16, ph := false, bap := 1#4 }))).bitpos = 5#32 ∧
    (after (exec (.mpack 0#3 1#9) ((frame 0#32 0#32).setSlot 0 { val := 0xFFFF#16, ph := false, bap := 1#4 }))).fbuf 0 = 0xF8#8 := by
  decide +kernel
/-- 95 M7, from slot 257 on. -/
theorem test_mpack_overflow :
    (after (exec (.mpack 1#3 2#9) { ((State.reset.setSlot 256 { val := 0#16, ph := false, bap := 0#4 }).setSlot 257
      { val := 9#16, ph := false, bap := 5#4 }) with bitpos := 32765#32 })).errInfo = 0x90107FFD#32 := by decide +kernel

/-- 95 T10: quarter 2 rises over quarter 1. -/
theorem test_tdrun : (after (exec .tdrun (window (List.replicate 128 0x3F000000#32 ++ List.replicate 128 0x3C23D70A#32 ++
    List.replicate 256 0x3F000000#32)))).tdstat = 0x025#12 := by
  show (after (tdrunBody _).outcome).tdstat = _
  rw [tdrunBody, tdwin_window (by decide +kernel)]
  decide +kernel
/-- 95 T8: a tie does not fire; T9: one ulp less does; T13, T14, T20. -/
theorem test_detect :
    (detect (List.replicate 256 0x3DCCCCCD#32 ++ List.replicate 256 0x3F800000#32)).stat 0#3 false = 0x000#12 ∧
    (detect (List.replicate 256 0x3DCCCCCC#32 ++ List.replicate 256 0x3F800000#32)).stat 0#3 false = 0x013#12 ∧
    (detect (List.replicate 384 0x3F000000#32 ++ List.replicate 64 0x3CC49BA6#32 ++ List.replicate 64 0x3F000000#32)).stat 0#3 false
      = 0x077#12 ∧
    (detect (List.replicate 384 0x3F000000#32 ++ List.replicate 64 0x3CD4FDF4#32 ++ List.replicate 64 0x3F000000#32)).stat 0#3 false
      = 0x000#12 ∧
    (detect (List.replicate 512 0x7F800000#32)).stat 0#3 false = 0x000#12 := by decide +kernel
/-- 95 P-T1. -/
theorem test_tdpush : (after (exec (.tdpush 0#3) (pushing true (List.replicate 256 0x3F000000#32)))).tdstat = 0x808#12 := by
  show (after (tdpushBody _ _).outcome).tdstat = _
  rw [tdpushBody, if_pos (by rfl), pushWindow, tail_pushing true List.length_replicate, tdnew_pushing true List.length_replicate]
  decide +kernel
/-- 95 P-T3. -/
theorem test_tdpush_disabled : (after (exec (.tdpush 2#3) { State.reset with tdres := 0x3F#6 })).tdstat = 0xA0A#12 ∧
    (after (exec (.tdpush 2#3) { State.reset with tdres := 0x3F#6 })).tdres = 0x3B#6 := by decide
/-- R119's example: TDTAIL[3][17] reads 0. -/
theorem test_tdclr : (after (exec .tdclr (State.reset.writeWord 0xCC44 0x3F000000#32))).readWord 0xCC44 = 0#32 := by decide +kernel
/-- 95 K1, with the check value of R180. -/
theorem test_crccalc : (after (exec .crccalc { (frame 0x31323334#32 0x35363738#32).writeWordBE 0xE008 0x39000000#32 with
    crcLen := 9#16 })).crcVal = 0xFEE8#16 := by decide +kernel
/-- 95 K4. -/
theorem test_crccalc_range : (after (exec .crccalc { State.reset with crcStart := 4090#16, crcLen := 7#16 })).errInfo = 0x0FFA0007#32 := by
  decide
/-- 95 K5. -/
theorem test_crczapp : (after (exec .crczapp { State.reset with crcVal := 0xFEE8#16, crcBits := 8#32 })).crcVal = 0x6A07#16 := by
  decide +kernel
/-- 95, 6.2: INV(0xFEE8, 16). -/
theorem test_crcinv : (after (exec .crcinv { State.reset with crcVal := 0xFEE8#16, crcBits := 16#32 })).crcVal = 0xD52E#16 := by
  decide +kernel
/-- 95 F1. -/
theorem test_final :
    (after (exec .final { frame 0x0B770000#32 0x123456A0#32 with fsw := 8#16, bitpos := 59#32 })).fbufBytes 0 8
      = [0x0B#8, 0x77#8, 0x83#8, 0x7D#8, 0x12#8, 0x34#8, 0x56#8, 0xA0#8] := by decide +kernel
/-- 95 F5. -/
theorem test_final_short :
    (after (exec .final { frame 0x0B77FFFF#32 0xABCDFFFF#32 with fsw := 4#16, bitpos := 48#32 })).fbufBytes 0 8
      = [0x0B#8, 0x77#8, 0x00#8, 0x00#8, 0xAB#8, 0xCD#8, 0xF8#8, 0xA4#8] := by decide +kernel

/-! ### The host's side -/

/-- 95 X6: accepted, and rejected for n before the channel. -/
theorem test_issue_illegal : (after (step (idle [.write .b32 0x000C#16 0x03D01000#32]))).errInfo = 0x03D01000#32 ∧
    (after (step (idle [.write .b32 0x000C#16 0x03D01000#32]))).errCode = 1#4 ∧
    (after (step (idle [.write .b32 0x000C#16 0x03D01000#32]))).statusWord = 2#32 := by decide
/-- 95 X10. -/
theorem test_busy_cmd : (after (step (running 0x01000000#32 [.write .b32 0x000C#16 0#32]))).errCode = 10#4 ∧
    (after (step (running 0x01000000#32 [.write .b32 0x000C#16 0#32]))).lastCmd = 0x01000000#32 := by decide
/-- 95 X11, X12. -/
theorem test_busy_access : (after (step (running 0x01000000#32 [.read .b32 0x003C#16]))).errInfo = 0x0000003C#32 ∧
    (after (step (running 0x01000000#32 [.write .b32 0x2000#16 5#32]))).errInfo = 0x00012000#32 := by decide
/-- 95 X14 to X18. -/
theorem test_bus : (after (step (idle [.read .b16 0x0008#16]))).errInfo = 0x00020008#32 ∧
    (after (step (idle [.read .b32 0x0002#16]))).errInfo = 0x00040002#32 ∧
    (after (step (idle [.write .b32 0x0100#16 0#32]))).errInfo = 0x00050100#32 ∧
    (after (step (running 0x01000000#32 [.read .b8 0x003C#16]))).errInfo = 0x0000003C#32 := by decide
/-- 95 X20, X21. -/
theorem test_irq : State.irq { State.reset with ctrl := 2#3, done := true } = true ∧
    State.irq { State.reset with ctrl := 4#3, errBits := 1#12 } = true ∧
    State.irq { State.reset with ctrl := 4#3, done := true } = false := by decide
/-- 95 X25, X26: unstored bits read 0. -/
theorem test_storage_widths : (State.reset.writeWord 0x8000 0xFFFFFFFF#32).readWord 0x8000 = 0x00F1FFFF#32 ∧
    (State.reset.writeWord 0x4000 0x12345678#32).readWord 0x4000 = 0x00000078#32 := by decide +kernel
/-- 95 X22, X23: soft reset abandons the command. -/
theorem test_soft_reset : (after (step (running 0x03100000#32 [.write .b32 0x0004#16 0x80000007#32]))).statusWord = 0#32 ∧
    (after (step (running 0x03100000#32 [.write .b32 0x0004#16 0x80000007#32]))).ctrl = 0#3 := by decide +kernel
/-- R31, R212: writing ones. -/
theorem test_acknowledge : (after (step { idle [.write .b32 0x0010#16 0x100#32] with errBits := 0x080#12, errCode := 8#4 })).errCode
    = 0#4 := by decide
theorem test_fetch_runs : step (State.reset.withFetchWord 32 0x0B204000) =
    exec (.mpack 1#3 4#9) (State.reset.withFetchWord 32 0x0B204000) := rfl

/-! ### A state and operands that meet the hypotheses of each statement, at the boundaries of its clauses -/

theorem witness_EncodeThenDecode : (Instr.qcoef 5#3 255#8 15#4 31#5).wf = true ∧ (Instr.mpack 5#3 256#9).wf = true ∧
    (Instr.putbits 32#6).wf = true ∧ (Instr.tdpush 0#3).wf = true := by decide
theorem witness_DecodedWordIsItsEncoding : decode 0x03B00000#32 = .ok (.qrun 5#3 256#9) := by decide
theorem witness_DecodeChecksInOrder_opcode : ∀ op : Opcode, (0x04000000#32).extractLsb' 24 8 ≠ opByte op := by
  intro op; cases op <;> decide
theorem witness_DecodeChecksInOrder_reserved :
    (0x03D01001#32).extractLsb' 24 8 = opByte .qrun ∧ 0x03D01001#32 &&& reservedMask (formatOf .qrun) ≠ 0#32 := by decide
/-- n = 257 with channel 6; w = 33. -/
theorem witness_DecodeChecksInOrder_field :
    ((0x03D01000#32).extractLsb' 24 8 = opByte .qrun ∧ 0x03D01000#32 &&& reservedMask (formatOf .qrun) = 0#32 ∧
      formatOf .qrun = .R ∧ 256 < ((0x03D01000#32).extractLsb' 12 9).toNat) ∧
    ((0x09840000#32).extractLsb' 24 8 = opByte .putbits ∧ 0x09840000#32 &&& reservedMask (formatOf .putbits) = 0#32 ∧
      formatOf .putbits = .W ∧ 32 < ((0x09840000#32).extractLsb' 18 6).toNat) := by decide
/-- Channel 6 with n = 256, and channel 5. -/
theorem witness_DecodeChecksInOrder_channel :
    ((0x03D00000#32).extractLsb' 24 8 = opByte .qrun ∧ 0x03D00000#32 &&& reservedMask (formatOf .qrun) = 0#32 ∧
      ((0x03D00000#32).extractLsb' 12 9).toNat ≤ 256 ∧ formatOf .qrun ≠ .W ∧ 6 ≤ ((0x03D00000#32).extractLsb' 21 3).toNat) ∧
    ((0x03B00000#32).extractLsb' 24 8 = opByte .qrun ∧ 0x03B00000#32 &&& reservedMask (formatOf .qrun) = 0#32 ∧
      ((0x03B00000#32).extractLsb' 12 9).toNat ≤ 256 ∧ ((0x03B00000#32).extractLsb' 21 3).toNat < 6) := by decide
theorem witness_CommandWriteIsAcceptance : (idle [.write .b32 0x000C#16 0#32]).rst = false ∧
    (idle [.write .b32 0x000C#16 0#32]).busy = false ∧ decode 0#32 = .ok .nop ∧ decode 0x04000000#32 = .error .badCmd ∧
    decode 0x03C01000#32 = .error .badCh := by decide
theorem witness_BusyCommandWriteRefused : (running 0#32 [.write .b32 0x000C#16 7#32]).rst = false ∧
    (running 0#32 [.write .b32 0x000C#16 7#32]).busy = true ∧
    (running 0#32 [.write .b32 0x000C#16 7#32]).inputs = .write .b32 0x000C#16 7#32 :: [] := by decide
theorem witness_StepRunsAcceptedCommand : (running 0x01000000#32 []).rst = false ∧ (running 0x01000000#32 []).busy = true ∧
    decode (running 0x01000000#32 []).lastCmd = .ok .qblk ∧ (running 0x01000000#32 []).inputs = [] ∧
    (running 0x01000000#32 [.engine]).inputs = .engine :: [] := by decide
/-- A command that raises no error, and one that does: FINAL with the reset FSW (95 F8). -/
theorem witness_CommandRaisesAtMostOneError :
    exec .nop State.reset = .next { State.reset with done := true } ∧
    exec .final State.reset = .next { State.reset with done := true, errBits := 0x080#12, errCode := 8#4 } := by
  constructor <;> rfl
theorem witness_CommandsWriteOnlyTheirOwnState : Instr.wf .nop = true ∧
    exec .nop State.reset = .next { State.reset with done := true } ∧ opcodeOf .nop ∉ [Opcode.qblk, .qcoef, .qrun] ∧
    opcodeOf .nop ∉ [Opcode.qcoef, .qrun] ∧ opcodeOf .nop ∉ [Opcode.fbegin, .putbits, .flush, .mpack, .final] ∧
    opcodeOf .nop ∉ [Opcode.putbits, .flush, .mpack, .final] ∧ opcodeOf .nop ∉ [Opcode.tdrun, .tdpush] ∧ opcodeOf .nop ≠ .tdpush ∧
    opcodeOf .nop ∉ [Opcode.tdpush, .tdclr] ∧ opcodeOf .nop ∉ [Opcode.crccalc, .crczapp, .crcinv] ∧
    opcodeOf .nop ∉ [Opcode.fbegin, .final] ∧ inRange slotBase 0x1800 0x97FF = true ∧ inRange fbufBase 0x1000 0xEFFF = true ∧
    inTdtail 0xD7FF = true ∧ inRange tdnewBase 0x0400 0xABFF = true := by
  refine ⟨rfl, rfl, ?_⟩
  decide
/-- The first and last engine-owned registers, the first and last entries of the memories. -/
theorem witness_BusyAccessRefused : ∀ off ∈ [0x001C#16, 0x0060#16, 0x2000#16, 0xD7FC#16, 0xE000#16, 0xEFFC#16],
    (running 0#32 [.read .b32 off]).busy = true ∧ off.toNat % 4 = 0 ∧
    ((0x1C ≤ off.toNat ∧ off.toNat < 0x64) ∨ isEntry off.toNat = true ∨ inRange fbufBase 0x1000 off.toNat = true) := by
  simp only [List.forall_mem_cons, List.not_mem_nil, IsEmpty.forall_iff, implies_true, and_true]
  decide +kernel
/-- Just below and above what is mapped. -/
theorem witness_BusAccessRefused : (AccessSize.b16 ≠ .b32 ∧ (0x0002#16).toNat % 4 ≠ 0) ∧
    ∀ off ∈ [0x0064#16, 0x1FFC#16, 0x3800#16, 0xDFFC#16, 0xF000#16, 0xFFFC#16],
      0x64 ≤ off.toNat ∧ isEntry off.toNat = false ∧ inRange fbufBase 0x1000 off.toNat = false := by
  simp only [List.forall_mem_cons, List.not_mem_nil, IsEmpty.forall_iff, implies_true, and_true]
  decide +kernel
theorem witness_ReadsHaveNoSideEffects :
    (running 0#32 []).busy = true ∧ Reg.engineOwned .errInfo = false ∧ (idle []).busy = false ∧
    (∀ off ∈ [0x2000#16, 0x37FC#16, 0xA000#16, 0xD7FC#16], off.toNat % 4 = 0 ∧ isEntry off.toNat = true) := by
  simp only [List.forall_mem_cons, List.not_mem_nil, IsEmpty.forall_iff, implies_true, and_true]
  decide +kernel
theorem witness_MemoryEntryReadsBackStoredBits : (idle []).rst = false ∧ (idle []).busy = false ∧
    ∀ off ∈ [0x4000#16, 0x57FC#16, 0x6000#16, 0x77FC#16, 0x8000#16, 0x97FC#16, 0x2000#16, 0xABFC#16, 0xC000#16],
      off.toNat % 4 = 0 ∧ isEntry off.toNat = true := by
  simp only [List.forall_mem_cons, List.not_mem_nil, IsEmpty.forall_iff, implies_true, and_true]
  decide +kernel
theorem witness_FrameWordsAreBigEndian : (idle [.read .b32 (BitVec.ofNat 16 (0xE000 + 4 * 1023))]).inputs =
    .read .b32 0xEFFC#16 :: [] ∧ (idle []).rst = false ∧ (idle []).busy = false ∧ 1023 < 1024 := by decide
theorem witness_RegisterWrites : (idle []).rst = false ∧ (idle []).busy = false ∧
    (idle [.write .b32 (BitVec.ofNat 16 (Reg.offset .frameBytes)) 9#32]).inputs = .write .b32 0x0050#16 9#32 :: [] ∧
    (idle [.write .b32 (BitVec.ofNat 16 (Reg.offset .ctrl)) 0x7FFFFFFF#32]).inputs = .write .b32 0x0004#16 0x7FFFFFFF#32 :: [] ∧
    (0x7FFFFFFF#32).getLsbD 31 = false ∧
    ((running 0#32 [.write .b32 (BitVec.ofNat 16 (Reg.offset .ctrl)) 6#32]).busy = true ∧ Reg.engineOwned .ctrl = false ∧
      (running 0#32 [.write .b32 (BitVec.ofNat 16 (Reg.offset .ctrl)) 6#32]).inputs = .write .b32 0x0004#16 6#32 :: []) ∧
    (Reg.engineOwned .id = false ∧
      (running 0#32 [.write .b32 (BitVec.ofNat 16 (Reg.offset .id)) 6#32]).inputs = .write .b32 0x0000#16 6#32 :: []) := by decide
/-- A busy machine reads BITPOS, whatever it holds. -/
theorem witness_BusyHidesEngineState :
    sameHostView (running 0#32 [.read .b32 0x003C#16]) { running 0#32 [.read .b32 0x003C#16] with bitpos := 5#32 } ∧
    step (running 0#32 [.read .b32 0x003C#16]) = .next (after (step (running 0#32 [.read .b32 0x003C#16]))) ∧
    step { running 0#32 [.read .b32 0x003C#16] with bitpos := 5#32 } =
      .next (after (step { running 0#32 [.read .b32 0x003C#16] with bitpos := 5#32 })) := by
  refine ⟨?_, rfl, rfl⟩
  unfold sameHostView
  decide
theorem witness_RaiseLatchesFirstError : State.reset.errBits = 0#12 ∧ ({ State.reset with errBits := 0x800#12 } : State).errBits ≠ 0#12 ∧
    (State.reset.raise .bus 1#32).errBitsWord.getLsbD 12 = true := by decide
theorem witness_HostAcknowledgesByWritingOnes : (idle [.write .b32 0x0010#16 2#32]).rst = false ∧
    (idle [.write .b32 0x0010#16 2#32]).inputs = .write .b32 0x0010#16 2#32 :: [] ∧
    (idle [.write .b32 0x0008#16 2#32]).inputs = .write .b32 0x0008#16 2#32 :: [] := by decide
theorem witness_ErrorBitsAreSticky : step { State.reset with errBits := 0x800#12 } = .next { State.reset with errBits := 0x800#12 } ∧
    (0x800#12).getLsbD 11 = true := ⟨rfl, by decide⟩
theorem witness_IrqFollowsEnabledConditions : (idle []).rst = false := rfl
theorem witness_HardResetByRst : ({ idle [.rst false] with rst := true } : State).rst = true ∧
    ({ idle [.rst false] with rst := true } : State).inputs = .rst false :: [] ∧
    ({ idle [.read .b8 3#16] with rst := true } : State).inputs = .read .b8 3#16 :: [] ∧
    ({ idle [.write .b32 0#16 3#32] with rst := true } : State).inputs = .write .b32 0#16 3#32 :: [] := by decide
/-- Idle, with an abandoned QCOEF and with an abandoned NOP. -/
theorem witness_SoftReset :
    (idle [.write .b32 0x0004#16 0x80000000#32]).inputs = .write .b32 0x0004#16 0x80000000#32 :: [] ∧
    (0x80000000#32).getLsbD 31 = true ∧ (idle []).rst = false ∧ (idle []).busy = false ∧
    (running 0x02000200#32 []).busy = true ∧ decode (running 0x02000200#32 []).lastCmd = .ok (.qcoef 0#3 0#8 1#4 0#5) ∧
    abortTargets (.qcoef 0#3 0#8 1#4 0#5) (running 0x02000200#32 []) = [0x8000, 0x8001, 0x8002] ∧
    decode (running 0#32 []).lastCmd = .ok .nop ∧ abortTargets .nop (running 0#32 []) = [] ∧
    opcodeOf .nop ∉ [Opcode.qcoef, .qrun, .putbits, .flush, .mpack, .final] ∧ inTdtail 0xBFFF = false ∧ inTdtail 0xC000 = true := by
  decide
/-- A machine with a command pending meets the invariant. -/
theorem witness_EveryStepKeepsInvariant : (running 0x1B000000#32 []).Inv :=
  ⟨by decide, by decide, by decide, by decide, (fun g => by cases g <;> decide), (fun _ => by decide), (fun _ => rfl), by decide,
    (fun _ => rfl), by decide, tdstatOk_reset, .inl rfl, by decide⟩

theorem witness_QcoefClassZeroWritesZeroSlot : (5#3).toNat < 6 := by decide
/-- 95 Y14, Y25 (top level) and Y26 (bottom level). -/
theorem witness_QcoefSymmetricWritesItsCode :
    ((3 : Nat) : Int) = ((((((7 : Nat) : Int) * (0x00155555#32).toInt) >>> (24 - (0#5).toNat)) + 1) >>> (1 : Nat)) + (((7 : Nat) : Int) - 1) / 2
      ∧ 3 ≤ 7 - 1 ∧
    ((14 : Nat) : Int) = ((((((15 : Nat) : Int) * (0x007FFFFF#32).toInt) >>> (24 - (1#5).toNat)) + 1) >>> (1 : Nat)) +
      (((15 : Nat) : Int) - 1) / 2 ∧ 14 ≤ 15 - 1 ∧
    ((0 : Nat) : Int) = ((((((15 : Nat) : Int) * (0xFF800000#32).toInt) >>> (24 - (1#5).toNat)) + 1) >>> (1 : Nat)) +
      (((15 : Nat) : Int) - 1) / 2 ∧ (5#3).toNat < 6 ∧ (24#5).toNat ≤ 24 := by decide
/-- 95 A4 (clipped above), A19 (clipped below), A6 (the least code, and e + b = 29), A12 (a right shift). -/
theorem witness_QcoefAsymmetricWritesClippedCode : (5#3).toNat < 6 ∧ (24#5).toNat ≤ 24 ∧ 6 ≤ (6#4).toNat ∧
    (2 ^ (5 - 1) ≤ (0x00800000#32).toInt >>> (25 - ((1#5).toNat + 5))) ∧
    (25 ≤ (24#5).toNat + 16 ∧ (0x80000000#32).toInt * 2 ^ ((24#5).toNat + 16 - 25) < -(2 ^ (16 - 1))) ∧
    (25 ≤ (24#5).toNat + 5 ∧ (0xFFFFFFFF#32).toInt * 2 ^ ((24#5).toNat + 5 - 25) = -(2 ^ (5 - 1))) ∧
    (¬ 25 ≤ (3#5).toNat + 14 ∧ (0xFFEDCBAA#32).toInt >>> (25 - ((3#5).toNat + 14)) = -0x1235) := by decide
/-- 95 Y2, Y12 and the top of class 4. -/
theorem witness_QcoefFirstMemberOpensGroup : (∀ g : Grp, State.reset.cnt g = 0) ∧
    symq (0x00800000#32).toInt (0#5).toNat (Grp.levels .g1) = ((2 : Nat) : Int) ∧ 2 ≤ Grp.levels .g1 - 1 ∧
    symq (0xFFC00000#32).toInt (1#5).toNat (Grp.levels .g2) = ((1 : Nat) : Int) ∧ 1 ≤ Grp.levels .g2 - 1 ∧
    symq (0x00FFFFFF#32).toInt (0#5).toNat (Grp.levels .g4) = ((10 : Nat) : Int) ∧ 10 ≤ Grp.levels .g4 - 1 :=
  ⟨fun g => by cases g <;> decide, by decide, by decide, by decide, by decide, by decide, by decide⟩
/-- The last member of a class-2 group whose head is the last slot, and of a class-4 group. -/
theorem witness_QcoefLaterMemberAddsIntoHead :
    (0 < ({ State.reset with cnt2 := 2#2, head2 := 1535#11 } : State).cnt .g2 ∧
      ({ State.reset with cnt2 := 2#2, head2 := 1535#11 } : State).cnt .g2 < Grp.size .g2 ∧
      ({ State.reset with cnt2 := 2#2, head2 := 1535#11 } : State).head .g2 < 1536 ∧
      ({ State.reset with cnt2 := 2#2, head2 := 1535#11 } : State).head .g2 ≠ 256 * (0#3).toNat + (0#8).toNat) ∧
    (0 < ({ State.reset with cnt4 := 1#1 } : State).cnt .g4 ∧ ({ State.reset with cnt4 := 1#1 } : State).cnt .g4 < Grp.size .g4 ∧
      ({ State.reset with cnt4 := 1#1 } : State).head .g4 < 1536) ∧
    symq (0#32).toInt (24#5).toNat (Grp.levels .g2) = ((2 : Nat) : Int) ∧ 2 ≤ Grp.levels .g2 - 1 ∧
    symq (0#32).toInt (24#5).toNat (Grp.levels .g4) = ((5 : Nat) : Int) ∧ 5 ≤ Grp.levels .g4 - 1 := by decide
/-- 95 E3, Y6 and Y27. -/
theorem witness_QcoefErrorsWriteNothing : (2#3).toNat < 6 ∧ 4#4 ≠ 0#4 ∧ 24 < (25#5).toNat ∧
    0x00194203#32 = BitVec.ofNat 32 (256 * (2#3).toNat + (3#8).toNat + (4#4).toNat * 2 ^ 12 + (25#5).toNat * 2 ^ 16) ∧
    ((0#5).toNat ≤ 24 ∧ (1#4).toNat ≤ 5 ∧
      ¬ (-(2 ^ 24 : Int) ≤ (0x01000000#32).toInt * 2 ^ (0#5).toNat ∧ (0x01000000#32).toInt * 2 ^ (0#5).toNat < 2 ^ 24)) ∧
    ((1#5).toNat ≤ 24 ∧ (5#4).toNat ≤ 5 ∧
      ¬ (-(2 ^ 24 : Int) ≤ (0xFF7FFFFF#32).toInt * 2 ^ (1#5).toNat ∧ (0xFF7FFFFF#32).toInt * 2 ^ (1#5).toNat < 2 ^ 24)) := by
  decide
theorem witness_SymqInRangeExactly : 24 ≤ 24 ∧ 15 ∈ [3, 5, 7, 11, 15] ∧ 0 ≤ symq (-1) 24 15 ∧ symq (-1) 24 15 ≤ 14 ∧
    symq 1 24 15 = 15 := by decide
theorem witness_SymqRoundsToNearestLevel : 24 ≤ 24 ∧ 3 ∈ [3, 5, 7, 11, 15] ∧ -1 = symq (-1) 24 3 - 1 ∧
    (-(2 ^ 24 : Int) ≤ -0x01000000 ∧ (0x00FFFFFF : Int) < 2 ^ 24) := by decide
/-- Three members of class 1 and two of class 4. -/
theorem witness_GroupFieldRoundTrip :
    (∃ t₀ t₁ t₂ : State, exec (.qcoef 0#3 0#8 1#4 0#5) { State.reset with qin := 0x00800000#32 } = .next t₀ ∧
      exec (.qcoef 0#3 1#8 1#4 0#5) { t₀ with qin := 0xFF800000#32 } = .next t₁ ∧
      exec (.qcoef 5#3 255#8 1#4 0#5) { t₁ with qin := 0#32 } = .next t₂) ∧
    (∃ t₀ t₁ : State, exec (.qcoef 0#3 2#8 4#4 0#5) { State.reset with qin := 0x00C00000#32 } = .next t₀ ∧
      exec (.qcoef 0#3 5#8 4#4 0#5) { t₀ with qin := 0xFF400000#32 } = .next t₁) ∧
    BitVec.ofNat 4 (Grp.bap .g1) = 1#4 ∧ State.reset.cnt .g1 = 0 ∧ State.reset.cnt4 = 0#1 ∧
    symq (0x00800000#32).toInt 0 3 = ((2 : Nat) : Int) ∧ symq (0xFF800000#32).toInt 0 3 = ((0 : Nat) : Int) ∧
    symq (0#32).toInt 0 3 = ((1 : Nat) : Int) ∧ symq (0x00C00000#32).toInt 0 11 = ((9 : Nat) : Int) ∧
    symq (0xFF400000#32).toInt 0 11 = ((1 : Nat) : Int) ∧ ((0#3, 0#8) : BitVec 3 × BitVec 8) ≠ (0#3, 1#8) ∧
    ((0#3, 0#8) : BitVec 3 × BitVec 8) ≠ (5#3, 255#8) :=
  ⟨⟨_, _, _, rfl, rfl, rfl⟩, ⟨_, _, rfl, rfl⟩, by decide⟩
theorem witness_QrunExtendsByOneQcoef :
    qrunFrom 0#3 0 0 (operands [0x00155555#32] [0#32] [3#32]) = { st := operands [0x00155555#32] [0#32] [3#32], err := none } ∧
    ((operands [0x00155555#32] [0#32] [3#32]).expm (256 * (0#3).toNat + 0)).toNat < 32 ∧
    ∃ u : State, exec (.qcoef 0#3 (BitVec.ofNat 8 0) ((operands [0x00155555#32] [0#32] [3#32]).bapm (256 * (0#3).toNat + 0))
        (((operands [0x00155555#32] [0#32] [3#32]).expm (256 * (0#3).toNat + 0)).extractLsb' 0 5))
      { operands [0x00155555#32] [0#32] [3#32] with qin := (operands [0x00155555#32] [0#32] [3#32]).coef (256 * (0#3).toNat + 0) }
        = .next u :=
  ⟨rfl, by decide +kernel, _, exec_after _ _⟩
/-- Four legal elements: class 0 with an exponent of 255, classes 3 and 15, and class 1; no group open. -/
theorem witness_QrunQuantizesChannel :
    (∀ g : Grp, (operands [0#32, 0xFF000000#32, 0x80000000#32, 0#32] [255#32, 0#32, 24#32, 24#32] [0#32, 3#32, 15#32, 1#32]).head g < 1536 ∧
      (operands [0#32, 0xFF000000#32, 0x80000000#32, 0#32] [255#32, 0#32, 24#32, 24#32] [0#32, 3#32, 15#32, 1#32]).cnt g = 0) ∧
    ∀ k : Nat, k < (4#9).toNat →
      elementLegal ((operands [0#32, 0xFF000000#32, 0x80000000#32, 0#32] [255#32, 0#32, 24#32, 24#32]
          [0#32, 3#32, 15#32, 1#32]).coef (256 * (0#3).toNat + k)).toInt
        ((operands [0#32, 0xFF000000#32, 0x80000000#32, 0#32] [255#32, 0#32, 24#32, 24#32]
          [0#32, 3#32, 15#32, 1#32]).expm (256 * (0#3).toNat + k)).toNat
        ((operands [0#32, 0xFF000000#32, 0x80000000#32, 0#32] [255#32, 0#32, 24#32, 24#32]
          [0#32, 3#32, 15#32, 1#32]).bapm (256 * (0#3).toNat + k)) := by
  refine ⟨fun g => by cases g <;> decide, ?_⟩
  unfold elementLegal
  decide +kernel
/-- Exponents 25 and, at the range's upper end, c * 2^e = 2^24. -/
theorem witness_QrunStopsAtFirstError :
    (qrunFrom 0#3 0 0 (operands [0#32] [25#32] [15#32]) = { st := operands [0#32] [25#32] [15#32], err := none } ∧
      (operands [0#32] [25#32] [15#32]).bapm (256 * (0#3).toNat + 0) ≠ 0#4 ∧
      24 < ((operands [0#32] [25#32] [15#32]).expm (256 * (0#3).toNat + 0)).toNat) ∧
    (qrunFrom 0#3 0 0 (operands [1#32] [24#32] [5#32]) = { st := operands [1#32] [24#32] [5#32], err := none } ∧
      (operands [1#32] [24#32] [5#32]).bapm (256 * (0#3).toNat + 0) ≠ 0#4 ∧
      ((operands [1#32] [24#32] [5#32]).expm (256 * (0#3).toNat + 0)).toNat ≤ 24 ∧
      ¬ elementLegal ((operands [1#32] [24#32] [5#32]).coef (256 * (0#3).toNat + 0)).toInt
        ((operands [1#32] [24#32] [5#32]).expm (256 * (0#3).toNat + 0)).toNat
        ((operands [1#32] [24#32] [5#32]).bapm (256 * (0#3).toNat + 0))) := by
  refine ⟨⟨rfl, ?_⟩, rfl, ?_⟩
  · decide +kernel
  · unfold elementLegal
    decide +kernel
theorem witness_PutbitsWritesFieldOrRefuses : (32#6).toNat ≤ 32 ∧
    ({ State.reset with bitpos := 32736#32 } : State).bitpos.toNat + (32#6).toNat ≤ 32768 ∧
    ({ State.reset with bitpos := 32768#32 } : State).bitpos.toNat ≤ 32768 ∧
    ({ State.reset with bitpos := 32768#32 } : State).bitpos.toNat + (0#6).toNat ≤ 32768 ∧
    32768 < ({ State.reset with bitpos := 32737#32 } : State).bitpos.toNat + (32#6).toNat := by decide
theorem witness_FlushFillsByteWithZeros : ({ State.reset with bitpos := 59#32 } : State).bitpos.toNat ≤ 32768 ∧
    ({ State.reset with bitpos := 32768#32 } : State).bitpos.toNat ≤ 32768 := by decide
/-- The slots of `witness_Mpack…`: a class-3 code, which takes three bits. -/
def oneSlot (pos : Word) : State := { State.reset.setSlot 0 { val := 5#16, ph := false, bap := 3#4 } with bitpos := pos }
theorem witness_MpackAppendsMantissaFields : (0#3).toNat < 6 ∧ (1#9).toNat ≤ 256 ∧
    emittedBits (oneSlot 32765#32) 0#3 1 = [true, false, true] ∧
    (oneSlot 32765#32).bitpos.toNat + (emittedBits (oneSlot 32765#32) 0#3 (1#9).toNat).length ≤ 32768 ∧
    [0, 5, 7, 3, 7, 4, 5, 6, 7, 8, 9, 10, 11, 12, 14, 16][({ val := 5#16, ph := false, bap := 15#4 } : Slot).bap.toNat]? = some 16 := by
  decide +kernel
theorem witness_MpackStopsAtFirstOverflow :
    (oneSlot 32766#32).bitpos.toNat + (emittedBits (oneSlot 32766#32) 0#3 0).length ≤ 32768 ∧
    32768 < (oneSlot 32766#32).bitpos.toNat + (emittedBits (oneSlot 32766#32) 0#3 (0 + 1)).length ∧
    exec (.mpack 0#3 (BitVec.ofNat 9 0)) (oneSlot 32766#32) = .next (after (exec (.mpack 0#3 (BitVec.ofNat 9 0)) (oneSlot 32766#32))) :=
  ⟨by decide +kernel, by decide +kernel, exec_after _ _⟩

/-- Rounding by hand: half the smallest subnormal ties down to 0, half of three of them up to two, and 31 * (1082401 * 2^103) lies half a
place above the largest finite sample, which is infinity; with the second factor one place less the product is 2^24 - 2.4375 places of
2^104, which is 2^24 - 2 of them. -/
theorem test_mul32_rounds : mul32 0x00000001#32 0x3F000000#32 = some 0x00000000#32 ∧
    mul32 0x80000003#32 0x3F000000#32 = some 0x80000002#32 ∧ mul32 0x41F80000#32 0x7D042108#32 = some 0x7F800000#32 ∧
    mul32 0x41F80000#32 0x7D042107#32 = some 0x7F7FFFFE#32 := by decide +kernel
/-- A product at the bound of overflow, one below it that ties, infinity times the smallest sample, and a NaN. -/
theorem witness_SampleArithmeticIsBinary32 :
    (binary32Finite 0x41F80000#32 ∧ binary32Finite 0x7D042108#32 ∧
      (2 ^ 25 - 1) * 2 ^ 401 ≤ (binary32Value 0x41F80000#32 * binary32Value 0x7D042108#32).natAbs) ∧
    (binary32Finite 0x00000001#32 ∧ binary32Finite 0x3F000000#32 ∧
      (binary32Value 0x00000001#32 * binary32Value 0x3F000000#32).natAbs < (2 ^ 25 - 1) * 2 ^ 401 ∧
      binary32Value 0x00000001#32 ≠ binary32Value 0x00000000#32 ∧
      (binary32Value 0x00000001#32 * 2 ^ 149 - binary32Value 0x00000001#32 * binary32Value 0x3F000000#32).natAbs =
        (binary32Value 0x00000000#32 * 2 ^ 149 - binary32Value 0x00000001#32 * binary32Value 0x3F000000#32).natAbs) ∧
    ((0xFF800000#32).toNat % 2 ^ 31 = 0x7F800000 ∧ 0 < (0x00000001#32).toNat % 2 ^ 31 ∧ isNan 0x00000001#32 = false) ∧
    isNan 0x7F800001#32 = true ∧ mul32 0x3F800000#32 Config.tdT1 = some Config.tdT1 := by
  unfold binary32Finite
  decide +kernel
/-- Infinities of both signs are no NaN. -/
theorem witness_PeakIsLargestMagnitude : ∀ x ∈ [0x7F800000#32, 0xFF800000#32, 0x80000000#32], isNan x = false := by
  simp only [List.forall_mem_cons, List.not_mem_nil, IsEmpty.forall_iff, implies_true, and_true]
  decide +kernel
theorem witness_DetectIgnoresSigns :
    (List.replicate 512 0xBF000000#32).map abs32 = (List.replicate 512 0x3F000000#32).map abs32 := by decide +kernel
/-- Sample 0, and then sample 128, differ. -/
theorem witness_DetectSeesEarlySamplesOnlyInPeaks :
    ((0#32 :: List.replicate 511 0x3F800000#32).drop 128 = (List.replicate 512 0x3F800000#32).drop 128 ∧
      peak (0#32 :: List.replicate 511 0x3F800000#32) 0 256 = peak (List.replicate 512 0x3F800000#32) 0 256) ∧
    ((List.replicate 128 0x3F800000#32 ++ 0#32 :: List.replicate 383 0x3F800000#32).drop 192 = (List.replicate 512 0x3F800000#32).drop 192 ∧
      peak (List.replicate 128 0x3F800000#32 ++ 0#32 :: List.replicate 383 0x3F800000#32) 0 256 =
        peak (List.replicate 512 0x3F800000#32) 0 256 ∧
      peak (List.replicate 128 0x3F800000#32 ++ 0#32 :: List.replicate 383 0x3F800000#32) 128 128 =
        peak (List.replicate 512 0x3F800000#32) 128 128) := by decide +kernel

/-- A window in three parts. -/
def parts (a b c : Nat) (x y z : Word) : List Word := List.replicate a x ++ (List.replicate b y ++ List.replicate c z)

theorem parts_length (a b c : Nat) (x y z : Word) : (parts a b c x y z).length = a + (b + c) := by simp [parts]

theorem parts_not_nan {a b c : Nat} {x y z : Word} (h : isNan x = false ∧ isNan y = false ∧ isNan z = false) :
    ∀ v ∈ parts a b c x y z, isNan v = false := by
  intro v hv
  simp only [parts, List.mem_append, List.mem_replicate] at hv
  rcases hv with ⟨-, rfl⟩ | ⟨-, rfl⟩ | ⟨-, rfl⟩
  · exact h.1
  · exact h.2.1
  · exact h.2.2

theorem witness_TdrunReportsFirstRise_window (a b c : Nat) (x y z : Word) (h : a + (b + c) = 512) :
    parts a b c x y z = (window (parts a b c x y z)).tdwin := (tdwin_window (by rw [parts_length, h])).symm
/-- 95 T7 (silence, one ulp below the floor) and T2 (level 1). -/
theorem witness_TdrunReportsFirstRise_level1 :
    (∀ x ∈ parts 256 0 256 0x3B47FFFF#32 0#32 0x3F800000#32, isNan x = false) ∧
    (∀ x ∈ parts 256 0 256 0x3C23D70A#32 0#32 0x3F800000#32, isNan x = false) ∧
    ltF (peak (parts 256 0 256 0x3B47FFFF#32 0#32 0x3F800000#32) 0 256) Config.tdFloor = true ∧
    ltF (peak (parts 256 0 256 0x3C23D70A#32 0#32 0x3F800000#32) 0 256) Config.tdFloor = false ∧
    ltF (peak (parts 256 0 256 0x3C23D70A#32 0#32 0x3F800000#32) 256 256) Config.tdFloor = false ∧
    productExceeds (peak (parts 256 0 256 0x3C23D70A#32 0#32 0x3F800000#32) 256 256) Config.tdT1
      (peak (parts 256 0 256 0x3C23D70A#32 0#32 0x3F800000#32) 0 256) = true :=
  ⟨parts_not_nan (by decide), parts_not_nan (by decide), by decide +kernel⟩
/-- 95 T11: level 2 at its last quarter. -/
theorem witness_TdrunReportsFirstRise_level2 :
    (∀ x ∈ parts 256 128 128 0x3F000000#32 0x3CA3D70A#32 0x3F000000#32, isNan x = false) ∧
    ltF (peak (parts 256 128 128 0x3F000000#32 0x3CA3D70A#32 0x3F000000#32) 0 256) Config.tdFloor = false ∧
    ltF (peak (parts 256 128 128 0x3F000000#32 0x3CA3D70A#32 0x3F000000#32) 256 256) Config.tdFloor = false ∧
    productExceeds (peak (parts 256 128 128 0x3F000000#32 0x3CA3D70A#32 0x3F000000#32) 256 256) Config.tdT1
      (peak (parts 256 128 128 0x3F000000#32 0x3CA3D70A#32 0x3F000000#32) 0 256) = false ∧
    productExceeds (peak (parts 256 128 128 0x3F000000#32 0x3CA3D70A#32 0x3F000000#32) (128 * 3) 128) Config.tdT2
      (peak (parts 256 128 128 0x3F000000#32 0x3CA3D70A#32 0x3F000000#32) (128 * (3 - 1)) 128) = true ∧
    productExceeds (peak (parts 256 128 128 0x3F000000#32 0x3CA3D70A#32 0x3F000000#32) (128 * 2) 128) Config.tdT2
      (peak (parts 256 128 128 0x3F000000#32 0x3CA3D70A#32 0x3F000000#32) (128 * (2 - 1)) 128) = false :=
  ⟨parts_not_nan (by decide), by decide +kernel⟩
/-- 95 T13: level 3 at its last eighth. -/
theorem witness_TdrunReportsFirstRise_level3 :
    (∀ x ∈ parts 384 64 64 0x3F000000#32 0x3CC49BA6#32 0x3F000000#32, isNan x = false) ∧
    (∀ i ∈ [2, 3], productExceeds (peak (parts 384 64 64 0x3F000000#32 0x3CC49BA6#32 0x3F000000#32) (128 * i) 128) Config.tdT2
      (peak (parts 384 64 64 0x3F000000#32 0x3CC49BA6#32 0x3F000000#32) (128 * (i - 1)) 128) = false) ∧
    productExceeds (peak (parts 384 64 64 0x3F000000#32 0x3CC49BA6#32 0x3F000000#32) (64 * 7) 64) Config.tdT3
      (peak (parts 384 64 64 0x3F000000#32 0x3CC49BA6#32 0x3F000000#32) (64 * (7 - 1)) 64) = true ∧
    (∀ j ∈ [4, 5, 6, 7], j < 7 →
      productExceeds (peak (parts 384 64 64 0x3F000000#32 0x3CC49BA6#32 0x3F000000#32) (64 * j) 64) Config.tdT3
        (peak (parts 384 64 64 0x3F000000#32 0x3CC49BA6#32 0x3F000000#32) (64 * (j - 1)) 64) = false) :=
  ⟨parts_not_nan (by decide), by decide +kernel⟩
/-- 95 T6: at the floor and flat, no transient. -/
theorem witness_TdrunReportsFirstRise_flat :
    ltF (peak (parts 512 0 0 0x3B480000#32 0#32 0#32) 0 256) Config.tdFloor = false ∧
    ltF (peak (parts 512 0 0 0x3B480000#32 0#32 0#32) 256 256) Config.tdFloor = false ∧
    productExceeds (peak (parts 512 0 0 0x3B480000#32 0#32 0#32) 256 256) Config.tdT1
      (peak (parts 512 0 0 0x3B480000#32 0#32 0#32) 0 256) = false ∧
    (∀ i ∈ [2, 3], productExceeds (peak (parts 512 0 0 0x3B480000#32 0#32 0#32) (128 * i) 128) Config.tdT2
      (peak (parts 512 0 0 0x3B480000#32 0#32 0#32) (128 * (i - 1)) 128) = false) ∧
    (∀ i ∈ [4, 5, 6, 7], productExceeds (peak (parts 512 0 0 0x3B480000#32 0#32 0#32) (64 * i) 64) Config.tdT3
      (peak (parts 512 0 0 0x3B480000#32 0#32 0#32) (64 * (i - 1)) 64) = false) := by decide +kernel
theorem witness_TdpushDetectsAndShiftsTail : (0#3).toNat < 6 ∧ (pushing true (List.replicate 256 0x3F000000#32)).bswenSampled = true ∧
    (∀ x ∈ (pushing true (List.replicate 256 0x3F000000#32)).tail 0#3 ++ (pushing true (List.replicate 256 0x3F000000#32)).tdnew,
      isNan x = false) ∧ State.reset.bswenSampled = false := by
  refine ⟨by decide, rfl, ?_, rfl⟩
  rw [tail_pushing true List.length_replicate, tdnew_pushing true List.length_replicate]
  intro x hx
  rw [List.mem_append, List.mem_replicate, List.mem_replicate] at hx
  rcases hx with ⟨-, rfl⟩ | ⟨-, rfl⟩ <;> decide
/-- The only NaN at the last index of the window. -/
theorem witness_NanInWindowRaisesTdnan :
    (window (parts 511 1 0 0x3F000000#32 0xFFC00001#32 0#32)).tdwin[511]? = some 0xFFC00001#32 ∧ isNan 0xFFC00001#32 = true ∧
    (∀ (j' : Nat) (x' : Word), j' < 511 → (window (parts 511 1 0 0x3F000000#32 0xFFC00001#32 0#32)).tdwin[j']? = some x' →
      isNan x' = false) ∧
    (pushing true (0x7F800001#32 :: List.replicate 255 0#32)).bswenSampled = true ∧
    ((pushing true (0x7F800001#32 :: List.replicate 255 0#32)).tail 0#3 ++
      (pushing true (0x7F800001#32 :: List.replicate 255 0#32)).tdnew)[256]? = some 0x7F800001#32 ∧
    (∀ (j' : Nat) (x' : Word), j' < 256 → ((pushing true (0x7F800001#32 :: List.replicate 255 0#32)).tail 0#3 ++
      (pushing true (0x7F800001#32 :: List.replicate 255 0#32)).tdnew)[j']? = some x' → isNan x' = false) := by
  rw [tdwin_window (by rw [parts_length]), tail_pushing true (by decide +kernel), tdnew_pushing true (by decide +kernel)]
  refine ⟨by decide +kernel, by decide, fun j x hj hx => ?_, rfl, by decide +kernel, fun j x hj hx => ?_⟩
  · rw [parts, List.getElem?_append_left (by rw [List.length_replicate]; exact hj), List.getElem?_replicate, if_pos hj] at hx
    injection hx with hx
    subst hx
    decide
  · rw [List.getElem?_append_left (by rw [List.length_replicate]; exact hj), List.getElem?_replicate, if_pos hj] at hx
    injection hx with hx
    subst hx
    decide

/-- 95 K3 and K4. -/
theorem witness_CrccalcComputesOrRefuses :
    ({ State.reset with crcStart := 0#16, crcLen := 4096#16 } : State).crcStart.toNat +
      ({ State.reset with crcStart := 0#16, crcLen := 4096#16 } : State).crcLen.toNat ≤ 4096 ∧
    4096 < ({ State.reset with crcStart := 4090#16, crcLen := 7#16 } : State).crcStart.toNat +
      ({ State.reset with crcStart := 4090#16, crcLen := 7#16 } : State).crcLen.toNat := by decide
/-- The smallest and the largest frame, each as full as it may be. -/
theorem witness_FinalPlacesBothCrcs :
    (4 = ({ State.reset with fsw := 4#16, bitpos := 48#32 } : State).fsw.toNat ∧ 2 = 4 / 2 + 4 / 8 ∧
      6 = (({ State.reset with fsw := 4#16, bitpos := 48#32 } : State).bitpos.toNat + 7) / 8 ∧ 6 ≤ 2 * 4 - 2) ∧
    (2048 = ({ State.reset with fsw := 2048#16, bitpos := 32752#32 } : State).fsw.toNat ∧ 1280 = 2048 / 2 + 2048 / 8 ∧
      4094 = (({ State.reset with fsw := 2048#16, bitpos := 32752#32 } : State).bitpos.toNat + 7) / 8 ∧ 4094 ≤ 2 * 2048 - 2) := by decide
theorem witness_FinalFailureDropsFrame : ({ State.reset with fsw := 3#16 } : State).fsw.toNat < 4 ∧
    2048 < ({ State.reset with fsw := 2049#16 } : State).fsw.toNat ∧
    2 * ({ State.reset with fsw := 4#16, bitpos := 49#32 } : State).fsw.toNat - 2 <
      (({ State.reset with fsw := 4#16, bitpos := 49#32 } : State).bitpos.toNat + 7) / 8 := by decide
theorem witness_FinalizedFrameChecks :
    4 = ({ State.reset with fsw := 4#16, bitpos := 48#32 } : State).fsw.toNat ∧
    (({ State.reset with fsw := 4#16, bitpos := 48#32 } : State).bitpos.toNat + 7) / 8 ≤ 2 * 4 - 2 ∧
    exec .final { State.reset with fsw := 4#16, bitpos := 48#32 } =
      .next (after (exec .final { State.reset with fsw := 4#16, bitpos := 48#32 })) := ⟨by decide, by decide, exec_after _ _⟩

end Sys2Proof.Tests
end

/-!
PROOFS. The detector's sample arithmetic against IEEE 754 binary32 (R15, R110, R116, R125): the parts of a sample, the ordered comparison
as one of values, and the rounded product as the nearest finite sample.
-/
namespace Sys2Proof.Proofs

open Sys2Proof Sys2Proof.Machine

/-! ### The parts of a sample -/

/-- isnan reads the exponent field and the fraction field (R15). -/
theorem isNan_iff (x : Word) : isNan x = true ↔ x.extractLsb' 23 8 = 0xFF#8 ∧ x.extractLsb' 0 23 ≠ 0#23 := by
  have hexp : x.toNat % 2 ^ 31 / 2 ^ 23 = 255 ↔ x.extractLsb' 23 8 = 0xFF#8 := by
    rw [← BitVec.toNat_inj, BitVec.extractLsb'_toNat, Nat.shiftRight_eq_div_pow, BitVec.toNat_ofNat]; omega
  have hfrac : x.toNat % 2 ^ 23 = 0 ↔ x.extractLsb' 0 23 = 0#23 := by
    rw [← BitVec.toNat_inj, BitVec.extractLsb'_toNat, Nat.shiftRight_zero, BitVec.toNat_ofNat, Nat.zero_mod]
  rw [isNan_eq, decide_eq_true_iff, hexp, ne_eq, hfrac]

/-- abs32 puts a 0 above the magnitude (R15). -/
theorem abs32_eq_append (x : Word) : abs32 x = 0#1 ++ x.extractLsb' 0 31 := by
  apply BitVec.eq_of_toNat_eq
  rw [abs32_toNat, magBits_eq, BitVec.toNat_append]
  simp

theorem toNat_signed (neg : Bool) {m : Nat} (h : m < 2 ^ 31) : (signed neg m).toNat = neg.toNat * 2 ^ 31 + m := by
  have hm : m % 2 ^ 31 = m := Nat.mod_eq_of_lt h
  rw [signed, BitVec.toNat_append, BitVec.toNat_ofBool, BitVec.toNat_ofNat, hm, ← Nat.shiftLeft_add_eq_or_of_lt h,
    Nat.shiftLeft_eq]

theorem magnitude_signed (neg : Bool) {m : Nat} (h : m < 2 ^ 31) : (signed neg m).toNat % 2 ^ 31 = m := by
  rw [toNat_signed neg h]; omega

theorem sign_signed (neg : Bool) (m : Nat) : (signed neg m).getLsbD 31 = neg := by
  rw [signed, BitVec.getLsbD_append, if_neg (by decide)]
  simp

theorem evenBit_signed (neg : Bool) {m : Nat} (h : m < 2 ^ 31) (heven : m % 2 = 0) : (signed neg m).getLsbD 0 = false := by
  have : (signed neg m).toNat % 2 = 0 := by rw [toNat_signed neg h]; omega
  simpa [BitVec.getLsbD, Nat.testBit_zero] using this

theorem not_isNan_of_finite {x : Word} (h : binary32Finite x) : isNan x = false := by
  rw [binary32Finite] at h
  rw [isNan_eq, decide_eq_false_iff_not]
  omega

theorem not_isInf_of_finite {x : Word} (h : binary32Finite x) : isInf x = false := by
  rw [binary32Finite] at h
  rw [isInf_eq, decide_eq_false_iff_not]
  omega

/-! ### The ordered comparison -/

/-- The order of the samples is that of their values: both give a sign to a magnitude that counts from 0 (R15). -/
theorem orderKey_lt_iff (x y : Word) : orderKey x < orderKey y ↔ binary32Value x < binary32Value y := by
  have hxy := binary32Units_strictMono.lt_iff_lt (a := x.toNat % 2 ^ 31) (b := y.toNat % 2 ^ 31)
  have hyx := binary32Units_strictMono.lt_iff_lt (a := y.toNat % 2 ^ 31) (b := x.toNat % 2 ^ 31)
  have hx : 0 < binary32Units (x.toNat % 2 ^ 31) ↔ 0 < x.toNat % 2 ^ 31 := binary32Units_strictMono.lt_iff_lt (a := 0)
  have hy : 0 < binary32Units (y.toNat % 2 ^ 31) ↔ 0 < y.toNat % 2 ^ 31 := binary32Units_strictMono.lt_iff_lt (a := 0)
  rw [orderKey_eq, orderKey_eq, binary32Value, binary32Value]
  cases x.getLsbD 31 <;> cases y.getLsbD 31 <;> simp only [if_true, if_false, Bool.false_eq_true] <;> omega

theorem ltF_iff (x y : Word) : ltF x y = true ↔ isNan x = false ∧ isNan y = false ∧ binary32Value x < binary32Value y := by
  rw [← orderKey_lt_iff]
  simp [ltF, and_assoc]

/-! ### Products of finite samples -/

/-- A product's value has the product of the magnitudes, in squared units, under the exclusive or of the signs (R15). -/
theorem binary32Value_mul (a b : Word) : binary32Value a * binary32Value b =
    if (a.getLsbD 31 ^^ b.getLsbD 31) then -((finiteUnits a * finiteUnits b : Nat) : Int) else (finiteUnits a * finiteUnits b : Nat) := by
  rw [binary32Value, binary32Value, finiteUnits_eq, finiteUnits_eq, Int.natCast_mul]
  cases a.getLsbD 31 <;> cases b.getLsbD 31 <;> simp

theorem natAbs_binary32Value_mul (a b : Word) : (binary32Value a * binary32Value b).natAbs = finiteUnits a * finiteUnits b := by
  rw [binary32Value_mul]
  split
  · rw [Int.natAbs_neg, Int.natAbs_natCast]
  · rw [Int.natAbs_natCast]

theorem mul32_finite {a b : Word} (ha : binary32Finite a) (hb : binary32Finite b) :
    mul32 a b = some (signed (a.getLsbD 31 ^^ b.getLsbD 31) (roundMag (finiteUnits a * finiteUnits b))) := by
  rw [mul32, not_isNan_of_finite ha, not_isNan_of_finite hb, not_isInf_of_finite ha, not_isInf_of_finite hb]
  rfl

theorem roundMag_eq_inf {p : Nat} (h : (2 ^ 25 - 1) * 2 ^ 401 ≤ p) : roundMag p = 0x7F800000 := by
  have := mt (roundMag_lt_iff p).1 (Nat.not_lt.2 h)
  rw [roundMag_eq, Nat.min_eq_right (Nat.not_lt.1 this)]

/-- Below the bound of overflow nothing is cut off (R15). -/
theorem roundMag_eq_of_lt {p : Nat} (h : p < (2 ^ 25 - 1) * 2 ^ 401) :
    roundMag p = spacing p * 2 ^ 23 + roundShift p (149 + spacing p) := by
  rw [roundMag_eq, Nat.min_eq_left (Nat.le_of_lt ((roundMag_lt_iff p).2 h))]

theorem roundMag_finite {p : Nat} (h : p < (2 ^ 25 - 1) * 2 ^ 401) : roundMag p < 0x7F800000 := by
  rw [roundMag_eq_of_lt h]
  exact (roundMag_lt_iff p).2 h

theorem roundMag_lt_two_pow (p : Nat) : roundMag p < 2 ^ 31 := by
  rw [roundMag_eq]; omega

/-! ### The nearest sample -/

/-- Rounding gives the nearest multiple of the spacing, and an even one where another is as near. -/
theorem roundShift_nearest (p n t : Nat) :
    ((roundShift p n * 2 ^ n : Nat) - (p : Int)).natAbs ≤ ((t * 2 ^ n : Nat) - (p : Int)).natAbs ∧
    (t ≠ roundShift p n → ((t * 2 ^ n : Nat) - (p : Int)).natAbs = ((roundShift p n * 2 ^ n : Nat) - (p : Int)).natAbs →
      roundShift p n % 2 = 0) := by
  obtain ⟨-, -, habove, hbelow, heven⟩ := roundShift_spec p n
  generalize roundShift p n = r at *
  have hgap {u v : Nat} (h : u < v) : u * 2 ^ n + 2 ^ n ≤ v * 2 ^ n := Nat.succ_mul u (2 ^ n) ▸ Nat.mul_le_mul_right (2 ^ n) h
  rcases Nat.lt_trichotomy t r with h | rfl | h
  · have := hgap h
    omega
  · exact ⟨Nat.le_refl _, fun hne => absurd rfl hne⟩
  · have := hgap h
    omega

/-- A magnitude is a multiple of 2^k units, or it lies below the binades whose spacing is that or more (R15). -/
theorem binary32Units_multiple_or_lt (m k : Nat) :
    (∃ t, binary32Units m = t * 2 ^ k) ∨ 0 < k ∧ binary32Units m < 2 ^ 23 * 2 ^ k := by
  rcases binary32Units_cases m with ⟨hm, hu⟩ | ⟨j, r, -, -, hr, hu⟩
  · rcases Nat.eq_zero_or_pos k with rfl | hk
    · exact .inl ⟨m, by rw [hu, Nat.pow_zero, Nat.mul_one]⟩
    · exact .inr ⟨hk, by rw [hu]; exact Nat.lt_of_lt_of_le hm (Nat.le_mul_of_pos_right _ (by positivity))⟩
  · rcases Nat.lt_or_ge j k with hjk | hjk
    · have hpow : 2 * 2 ^ j ≤ 2 ^ k := Nat.pow_succ' (m := 2) (n := j) ▸ Nat.pow_le_pow_right (by omega) hjk
      have hlt : r * 2 ^ j < 2 ^ 24 * 2 ^ j := Nat.mul_lt_mul_of_pos_right hr (by positivity)
      exact .inr ⟨by omega, by omega⟩
    · obtain ⟨d, rfl⟩ := Nat.exists_eq_add_of_le' hjk
      exact .inl ⟨r * 2 ^ d, by rw [hu, Nat.pow_add, Nat.mul_assoc]⟩

/-- No magnitude lies nearer to a product than the rounded one, and that is even where another lies as near (R15). A magnitude that is no
multiple of the product's spacing lies below the product's binade, so the least multiple in the binade is nearer. -/
theorem roundMag_nearest {p : Nat} (hp : p < (2 ^ 25 - 1) * 2 ^ 401) (m : Nat) :
    ((binary32Units (roundMag p) * 2 ^ 149 : Nat) - (p : Int)).natAbs ≤ ((binary32Units m * 2 ^ 149 : Nat) - (p : Int)).natAbs ∧
    (binary32Units m ≠ binary32Units (roundMag p) →
      ((binary32Units m * 2 ^ 149 : Nat) - (p : Int)).natAbs = ((binary32Units (roundMag p) * 2 ^ 149 : Nat) - (p : Int)).natAbs →
      roundMag p % 2 = 0) := by
  have hscale (t : Nat) : t * 2 ^ spacing p * 2 ^ 149 = t * 2 ^ (149 + spacing p) := by
    rw [Nat.mul_assoc, ← Nat.pow_add, Nat.add_comm]
  rw [roundMag_eq_of_lt hp, roundMag_units, hscale]
  rcases binary32Units_multiple_or_lt m (spacing p) with ⟨t, ht⟩ | ⟨hpos, hlt⟩
  · obtain ⟨hle, heven⟩ := roundShift_nearest p (149 + spacing p) t
    rw [ht, hscale]
    refine ⟨hle, fun hne heq => ?_⟩
    have := heven (fun h => hne (by rw [h])) heq
    omega
  · obtain ⟨hle, -⟩ := roundShift_nearest p (149 + spacing p) (2 ^ 23)
    have hbinade : 2 ^ 23 * 2 ^ (149 + spacing p) ≤ p := by
      rcases spacing_cases p with ⟨hzero, -⟩ | ⟨-, hq, -⟩
      · omega
      · exact (Nat.le_div_iff_mul_le (by positivity)).1 hq
    have hfar : binary32Units m * 2 ^ 149 < 2 ^ 23 * 2 ^ (149 + spacing p) := by
      rw [← hscale]
      exact Nat.mul_lt_mul_of_pos_right hlt (by positivity)
    generalize 2 ^ 23 * 2 ^ (149 + spacing p) = edge at hle hbinade hfar
    exact ⟨by omega, by omega⟩

/-- How far a sample lies from a product of p squared units: on the other side of zero the magnitudes add up. -/
theorem error_eq (q : Word) (neg : Bool) (p : Nat) :
    (binary32Value q * 2 ^ 149 - if neg then -(p : Int) else p).natAbs =
      if q.getLsbD 31 = neg then ((binary32Units (q.toNat % 2 ^ 31) * 2 ^ 149 : Nat) - (p : Int)).natAbs
      else binary32Units (q.toNat % 2 ^ 31) * 2 ^ 149 + p := by
  rw [binary32Value]
  generalize binary32Units (q.toNat % 2 ^ 31) = u
  cases q.getLsbD 31 <;> cases neg <;> simp only [if_true, if_false, Bool.false_eq_true, Bool.true_eq_false] <;> omega

/-- A product's sample is the nearest finite one, ties to the even fraction (R15). A sample of the other sign is at least as far away as
zero is. -/
theorem signed_roundMag_nearest (neg : Bool) {p : Nat} (hp : p < (2 ^ 25 - 1) * 2 ^ 401) (q : Word) :
    (binary32Value (signed neg (roundMag p)) * 2 ^ 149 - if neg then -(p : Int) else p).natAbs ≤
      (binary32Value q * 2 ^ 149 - if neg then -(p : Int) else p).natAbs ∧
    (binary32Value q ≠ binary32Value (signed neg (roundMag p)) →
      (binary32Value q * 2 ^ 149 - if neg then -(p : Int) else p).natAbs =
        (binary32Value (signed neg (roundMag p)) * 2 ^ 149 - if neg then -(p : Int) else p).natAbs →
      (signed neg (roundMag p)).getLsbD 0 = false) := by
  have hmag := roundMag_lt_two_pow p
  rw [error_eq, error_eq, sign_signed, if_pos rfl, magnitude_signed neg hmag]
  have hvalue : binary32Value (signed neg (roundMag p)) =
      if neg then -(binary32Units (roundMag p) : Int) else binary32Units (roundMag p) := by
    rw [binary32Value, sign_signed, magnitude_signed neg hmag]
  by_cases hs : q.getLsbD 31 = neg
  · obtain ⟨hle, heven⟩ := roundMag_nearest hp (q.toNat % 2 ^ 31)
    rw [if_pos hs]
    refine ⟨hle, fun hne heq => evenBit_signed neg hmag (heven (fun hu => hne ?_) heq)⟩
    rw [hvalue, binary32Value, hs, hu]
  · obtain ⟨hle, heven⟩ := roundMag_nearest hp 0
    have hzero : binary32Units 0 = 0 := rfl
    rw [hzero] at hle heven
    rw [if_neg hs]
    refine ⟨by omega, fun hne heq => evenBit_signed neg hmag (heven (fun hu => hne ?_) (by omega))⟩
    have hq : binary32Units (q.toNat % 2 ^ 31) = 0 := by rw [← hu] at heq; omega
    rw [hvalue, ← hu, binary32Value, hq]
    simp

/-! ### Products with infinity -/

/-- The order of the factors does not matter (R15). -/
theorem mul32_comm (a b : Word) : mul32 a b = mul32 b a := by
  simp only [mul32, Bool.or_comm (isNan a), Bool.or_comm (isInf a), or_comm (a := magBits a = 0), Bool.xor_comm (a.getLsbD signBit),
    Nat.mul_comm (finiteUnits a)]

/-- Infinity times a sample that is neither zero nor a NaN is infinity (R116). -/
theorem mul32_inf {a b : Word} (ha : a.toNat % 2 ^ 31 = 0x7F800000) (hb : 0 < b.toNat % 2 ^ 31) (hn : isNan b = false) :
    mul32 a b = some (signed (a.getLsbD 31 ^^ b.getLsbD 31) 0x7F800000) := by
  have hna : isNan a = false := by rw [isNan_eq, decide_eq_false_iff_not]; omega
  have hia : isInf a = true := by rw [isInf_eq, decide_eq_true_iff, ha]
  have hnz : ¬ (magBits a = 0 ∨ magBits b = 0) := by rw [magBits_eq, magBits_eq]; omega
  rw [mul32, hna, hn, hia, if_neg (by decide), Bool.true_or, if_pos rfl, if_neg hnz]
  rfl

/-! ### Comparing a product -/

theorem productExceeds_of_mul32 {a t b p : Word} (h : mul32 a t = some p) : productExceeds a t b = gtF p b := by
  rw [productExceeds, h]

/-- Settles O46: the fields, the comparison and the products clause by clause; mul32 of finite samples by the nearest magnitude. -/
theorem sampleArithmeticIsBinary32 : Obligations.SampleArithmeticIsBinary32 := by
  refine ⟨isNan_iff, abs32_eq_append, fun x y => ⟨ltF_iff x y, rfl⟩, ?finite, ?infinite, fun a t b p => productExceeds_of_mul32,
    ?equal, ?above⟩
  case finite =>
    intro a b ha hb
    refine ⟨_, mul32_finite ha hb, sign_signed _ _, ?_⟩
    rw [natAbs_binary32Value_mul, binary32Finite, magnitude_signed _ (roundMag_lt_two_pow _), binary32Value_mul]
    exact ⟨roundMag_eq_inf, fun h => ⟨roundMag_finite h, fun q _ => signed_roundMag_nearest _ h q⟩⟩
  case infinite =>
    intro a b ha hb hn
    have hab := mul32_inf ha hb hn
    exact ⟨_, hab, mul32_comm b a ▸ hab, magnitude_signed _ (by norm_num), sign_signed _ _⟩
  case equal => decide +kernel
  case above => decide +kernel

end Sys2Proof.Proofs

/-!
PROOFS. The state between steps (10_state.md, 60_exceptions.md, 70_reset_and_hazards.md): the invariant, what a busy machine hides, the
sticky error bits, the host's register writes, the two resets, and the shift of a tail.
-/
namespace Sys2Proof.Proofs

open Sys2Proof Sys2Proof.Machine

/-! ### Host accesses, outcome by outcome -/

/-- A read answers; if the access is refused with an error, it raises that error first (R72, R73, R84, R235). -/
theorem hostRead_outcomes (s : State) (size : AccessSize) (off : BitVec 16) :
    (∃ a, s.hostRead size off = s.respond a) ∨ ∃ c info a, s.hostRead size off = (s.raise c info).respond a := by
  obtain ⟨under_rst, unmapped, refused, permitted⟩ := hostRead_cases s size off
  cases hr : s.rst with
  | true => exact .inl ⟨_, under_rst hr⟩
  | false =>
    cases hp : accessPlace size off with
    | none => exact .inr ⟨_, _, _, unmapped hr hp⟩
    | some p =>
      by_cases hb : s.busy = true ∧ p.engineOwned = true
      · exact .inr ⟨_, _, _, refused p hr hp hb.1 hb.2⟩
      · exact .inl ⟨_, permitted p hr hp (by simpa [-not_and, not_and_or] using hb)⟩

/-- A write answers, and before that does nothing, raises an error, or writes the place it names (R72, R73, R84, R235). -/
theorem hostWrite_outcomes (s : State) (size : AccessSize) (off : BitVec 16) (v : Word) :
    (∃ a, s.hostWrite size off v = s.respond a) ∨
    (∃ c info a, s.hostWrite size off v = (s.raise c info).respond a) ∨
    ∃ p a, accessPlace size off = some p ∧ s.hostWrite size off v = (s.writePlace p v).respond a := by
  obtain ⟨under_rst, unmapped, refused, permitted⟩ := hostWrite_cases s size off v
  cases hr : s.rst with
  | true => exact .inl ⟨_, under_rst hr⟩
  | false =>
    cases hp : accessPlace size off with
    | none => exact .inr (.inl ⟨_, _, _, unmapped hr hp⟩)
    | some p =>
      by_cases hb : s.busy = true ∧ p.engineOwned = true
      · exact .inr (.inl ⟨_, _, _, refused p hr hp hb.1 hb.2⟩)
      · exact .inr (.inr ⟨p, _, rfl, permitted p hr hp (by simpa [-not_and, not_and_or] using hb)⟩)

/-- A permitted write of a register answers without an error and does what the register does with it (R74). -/
theorem step_writeReg {s : State} {r : Reg} {v : Word} {rest : List Input} (hr : s.rst = false)
    (hb : s.busy = false ∨ r.engineOwned = false) (hin : s.inputs = .write .b32 (BitVec.ofNat 16 r.offset) v :: rest) :
    step s = .next ((({ s with inputs := rest } : State).writeReg r v).respond (.write false)) := by
  obtain ⟨-, -, -, permitted⟩ := hostWrite_cases { s with inputs := rest } .b32 (BitVec.ofNat 16 r.offset) v
  rw [step_of_write hin, permitted (.reg r) hr (accessPlace_reg r) hb]
  rfl

/-- An access that names a register stands at the register's offset (R27). -/
theorem off_eq_of_accessPlace_reg {size : AccessSize} {off : BitVec 16} {r : Reg} (h : accessPlace size off = some (.reg r)) :
    size = .b32 ∧ off = BitVec.ofNat 16 r.offset := by
  obtain ⟨hsize, hoff⟩ := accessPlace_eq_reg h
  exact ⟨hsize, by rw [← hoff, BitVec.ofNat_toNat, BitVec.setWidth_eq]⟩

/-! ### The engine's turn -/

/-- The engine's turn leaves the state, ends the pending command, or finds none to end (R214). -/
theorem engineStep_outcomes (s : State) :
    engineStep s = .next s ∨ (∃ i, decode s.lastCmd = .ok i ∧ s.busy = true ∧ engineStep s = exec i s) ∨
    (s.busy = true ∧ decode? s.fetchWord = none ∧ engineStep s = .fault .pendingIllegal) := by
  cases hr : s.rst with
  | true => exact .inl (by rw [engineStep, hr]; rfl)
  | false =>
    cases hb : s.busy with
    | false => exact .inl (by rw [engineStep, hr, hb]; rfl)
    | true =>
      cases hd : decode? s.fetchWord with
      | none => exact .inr (.inr ⟨rfl, rfl, by rw [engineStep, hr, hb, hd]; rfl⟩)
      | some i =>
        have hi : decode s.lastCmd = .ok i := decode?_eq_some.1 hd
        exact .inr (.inl ⟨i, hi, rfl, engineStep_of_busy hr hb hi⟩)

/-! ### The invariant -/

/-- The inputs still to come are no part of the invariant. -/
theorem fullInv_inputs {s : State} (h : FullInv s) (rest : List Input) : FullInv { s with inputs := rest } :=
  ⟨h.1.fields rfl rfl rfl rfl rfl rfl rfl rfl rfl rfl rfl rfl rfl rfl, h.2⟩

theorem fullInv_hostRead {s : State} (h : FullInv s) (size : AccessSize) (off : BitVec 16) : FullInv (s.hostRead size off) := by
  rcases hostRead_outcomes s size off with ⟨a, e⟩ | ⟨c, info, a, e⟩
  · exact e ▸ h.resp a
  · exact e ▸ (h.raise c info).resp a

theorem fullInv_hostWrite {s : State} (h : FullInv s) (size : AccessSize) (off : BitVec 16) (v : Word) :
    FullInv (s.hostWrite size off v) := by
  rcases hostWrite_outcomes s size off v with ⟨a, e⟩ | ⟨c, info, a, e⟩ | ⟨p, a, -, e⟩
  · exact e ▸ h.resp a
  · exact e ▸ (h.raise c info).resp a
  · exact e ▸ (h.writePlace p v).resp a

/-- A hard reset draws anew, so the draw it made is below the next one (R236; log 1). -/
theorem fullInv_hardReset (s : State) : FullInv s.hardReset :=
  ⟨engineInv_reset [] rfl s.draws (s.draws + 1) (Nat.lt_succ_self _) false s.inputs s.resp, nofun, nofun⟩

theorem fullInv_setRst {s : State} (h : FullInv s) (level : Bool) : FullInv (s.setRst level) := by
  unfold State.setRst
  split
  · exact ⟨h.1.fields rfl rfl rfl rfl rfl rfl rfl rfl rfl rfl rfl rfl rfl rfl, h.2⟩
  · split
    · exact fullInv_hardReset s
    · exact h

/-- A legal command ends in the invariant, the engine idle (R214). -/
theorem fullInv_exec {s : State} (h : FullInv s) {i : Instr} (hwf : i.wf = true) : ∃ t, exec i s = .next t ∧ FullInv t := by
  obtain ⟨r, hx, -, -⟩ := exec_result i s
  rw [outcome_eq_next] at hx
  exact ⟨r.complete, hx, h.1.exec hwf hx, nofun, nofun⟩

/-- The invariant's accepted word is legal, so the engine's turn never faults (R213, R214). -/
theorem fullInv_engineStep {s : State} (h : FullInv s) : ∃ t, engineStep s = .next t ∧ FullInv t := by
  rcases engineStep_outcomes s with e | ⟨i, hi, -, e⟩ | ⟨hb, hd, -⟩
  · exact ⟨s, e, h⟩
  · exact e ▸ fullInv_exec h (decode_wf hi)
  · have legal := h.2.1 hb
    rw [hd] at legal
    cases legal

theorem fullInv_step {s : State} (h : FullInv s) : ∃ t, step s = .next t ∧ FullInv t := by
  cases hin : s.inputs with
  | nil => exact step_of_nil hin ▸ fullInv_engineStep h
  | cons i rest =>
    have h' := fullInv_inputs h rest
    cases i with
    | engine => exact step_of_engine hin ▸ fullInv_engineStep h'
    | read size off => exact ⟨_, step_of_read hin, fullInv_hostRead h' size off⟩
    | write size off v => exact ⟨_, step_of_write hin, fullInv_hostWrite h' size off v⟩
    | rst level => exact ⟨_, step_of_rst hin, fullInv_setRst h' level⟩

/-- Settles O26: the invariant, its BUSY clauses apart, through each kind of input. -/
theorem everyStepKeepsInvariant : Obligations.EveryStepKeepsInvariant := by
  intro s h
  obtain ⟨t, ht, hinv⟩ := fullInv_step ((inv_iff s).1 h)
  exact ⟨t, ht, (inv_iff t).2 hinv⟩

/-- Settles O25: the reset state is one of the states a reset leaves. -/
theorem resetMeetsInvariant : Obligations.ResetMeetsInvariant :=
  (inv_iff _).2 ⟨engineInv_reset [] reset_mem_wf 0 1 Nat.zero_lt_one false [] .none, nofun, nofun⟩

/-- Settles O7: the engine's turn on a legal pending word. -/
theorem stepRunsAcceptedCommand : Obligations.StepRunsAcceptedCommand := by
  intro s i hr hb hd
  refine ⟨fun hin => ?_, fun rest hin => ?_⟩
  · rw [step_of_nil hin, engineStep_of_busy hr hb hd]
  · rw [step_of_engine hin]
    exact engineStep_of_busy (s := { s with inputs := rest }) hr hb hd

/-! ### Error bits -/

/-- Every set error bit of `s` is set in `t`. -/
def errBitsKept (s t : State) : Prop := ∀ n : Nat, s.errBits.getLsbD n = true → t.errBits.getLsbD n = true

theorem errBitsKept_of_eq {s t : State} (h : t.errBits = s.errBits) : errBitsKept s t := fun n hn => by rw [h]; exact hn

/-- Raising an error keeps the bits set before it (R209). -/
theorem errBitsKept_raise (s : State) (c : ErrCode) (info : Word) : errBitsKept s (s.raise c info) := fun n hn => by
  rw [State.raise_errBits, BitVec.getLsbD_or, hn, Bool.true_or]

/-- A command raises errors and clears none (R202). -/
theorem errBitsKept_exec {i : Instr} {s t : State} (hx : exec i s = .next t) : errBitsKept s t := by
  obtain ⟨r, hr, kept, -⟩ := exec_result i s
  obtain ⟨-, -, -, -, -, -, -, -, -, -, -, -, -, -, hbits, -, -⟩ := kept
  rw [hr, outcome_eq_next] at hx
  injection hx with hx
  subst hx
  obtain ⟨u, _ | e⟩ := r
  · exact errBitsKept_of_eq hbits
  · intro n hn
    exact errBitsKept_raise u e.code e.info n (errBitsKept_of_eq hbits n hn)

theorem errBitsKept_engineStep {s t : State} (h : engineStep s = .next t) : errBitsKept s t := by
  rcases engineStep_outcomes s with e | ⟨i, -, -, e⟩ | ⟨-, -, e⟩ <;> rw [e] at h
  · injection h with h
    exact errBitsKept_of_eq (h ▸ rfl)
  · exact errBitsKept_exec h
  · cases h

theorem errBitsKept_hostRead (s : State) (size : AccessSize) (off : BitVec 16) : errBitsKept s (s.hostRead size off) := by
  rcases hostRead_outcomes s size off with ⟨a, e⟩ | ⟨c, info, a, e⟩ <;> rw [e]
  · exact errBitsKept_of_eq rfl
  · exact errBitsKept_raise s c info

/-- Acceptance may raise an error, and clears none (R213, R215). -/
theorem errBitsKept_writeCmd (s : State) (w : Word) : errBitsKept s (s.writeCmd w) := by
  unfold State.writeCmd
  split
  · exact errBitsKept_raise s _ w
  · obtain ⟨legal, illegal⟩ := accept_cases s w
    cases hd : decode w with
    | ok i => rw [legal i hd]; exact errBitsKept_of_eq rfl
    | error e =>
      rw [illegal e hd]
      exact errBitsKept_raise { s with lastCmd := w, bswenSampled := s.bswen } _ w

/-- CTRL stores its three bits where SRST is written as 0 (R30). -/
theorem writeReg_ctrl (s : State) {v : Word} (hv : v.getLsbD 31 = false) :
    s.writeReg .ctrl v = { s with ctrl := v.extractLsb' 0 3 } := if_neg (by rw [hv]; decide)

/-- Of the registers, a write of ERRBITS and a soft reset alone can clear an error bit (R33, R212, R237). -/
theorem errBitsKept_writeReg (s : State) (r : Reg) (v : Word) :
    errBitsKept s (s.writeReg r v) ∨ r = .errBits ∨ (r = .ctrl ∧ v.getLsbD 31 = true) := by
  cases r with
  | errBits => exact .inr (.inl rfl)
  | ctrl =>
    cases hv : v.getLsbD 31 with
    | true => exact .inr (.inr ⟨rfl, rfl⟩)
    | false => exact .inl (errBitsKept_of_eq (by rw [writeReg_ctrl s hv]))
  | cmd => exact .inl (errBitsKept_writeCmd s v)
  | _ => exact .inl (errBitsKept_of_eq rfl)

/-- Of the host's writes, one to ERRBITS and a soft reset alone can clear an error bit. -/
theorem errBitsKept_hostWrite (s : State) (size : AccessSize) (off : BitVec 16) (v : Word) :
    errBitsKept s (s.hostWrite size off v) ∨ (size = .b32 ∧ off = 0x0010#16) ∨
      (size = .b32 ∧ off = 0x0004#16 ∧ v.getLsbD 31 = true) := by
  rcases hostWrite_outcomes s size off v with ⟨a, e⟩ | ⟨c, info, a, e⟩ | ⟨p, a, hp, e⟩
  · exact .inl (e ▸ errBitsKept_of_eq rfl)
  · exact .inl (e ▸ errBitsKept_raise s c info)
  · cases p with
    | entry b => exact .inl (e ▸ errBitsKept_of_eq rfl)
    | frame b => exact .inl (e ▸ errBitsKept_of_eq rfl)
    | reg r =>
      obtain ⟨hsize, hoff⟩ := off_eq_of_accessPlace_reg hp
      rcases errBitsKept_writeReg s r v with hk | rfl | ⟨rfl, hv⟩
      · exact .inl (e ▸ hk)
      · exact .inr (.inl ⟨hsize, hoff⟩)
      · exact .inr (.inr ⟨hsize, hoff, hv⟩)

/-- Settles O20: every kind of input keeps the error bits but for the three named. -/
theorem errorBitsAreSticky : Obligations.ErrorBitsAreSticky := by
  intro s t hstep
  cases hin : s.inputs with
  | nil => exact .inl (errBitsKept_engineStep (step_of_nil hin ▸ hstep))
  | cons i rest =>
    cases i with
    | engine => exact .inl (errBitsKept_engineStep (s := { s with inputs := rest }) (step_of_engine hin ▸ hstep))
    | read size off =>
      rw [step_of_read hin] at hstep
      injection hstep with hstep
      exact .inl (hstep ▸ errBitsKept_hostRead { s with inputs := rest } size off)
    | write size off v =>
      rw [step_of_write hin] at hstep
      injection hstep with hstep
      rcases errBitsKept_hostWrite { s with inputs := rest } size off v with hk | ⟨rfl, rfl⟩ | ⟨rfl, rfl, hv⟩
      · exact .inl (hstep ▸ hk)
      · exact .inr (.inl ⟨v, rest, rfl⟩)
      · exact .inr (.inr (.inl ⟨v, rest, rfl, hv⟩))
    | rst level =>
      rw [step_of_rst hin] at hstep
      injection hstep with hstep
      subst hstep
      cases level with
      | true => exact .inl (errBitsKept_of_eq rfl)
      | false =>
        cases hr : s.rst with
        | true => exact .inr (.inr (.inr ⟨rest, rfl, rfl⟩))
        | false => exact .inl (errBitsKept_of_eq (by simp [State.setRst]))

/-! ### Acknowledgement -/

/-- Bit j of ERRBITS as the host reads it is bit j - 1 of the twelve stored (R33). -/
theorem errBitsWord_getLsbD (s : State) (j : Nat) : s.errBitsWord.getLsbD j = (decide (1 ≤ j) && s.errBits.getLsbD (j - 1)) := by
  rw [State.errBitsWord, BitVec.getLsbD_append, BitVec.getLsbD_append]
  by_cases h0 : j < 1
  · simp [h0]
  · by_cases h12 : j - 1 < 12
    · simp [h0, h12, Nat.not_lt.1 h0]
    · simp [h0, h12, BitVec.getLsbD_of_ge _ _ (Nat.not_lt.1 h12)]

theorem errBitsWord_eq_zero_iff (s : State) : s.errBitsWord = 0#32 ↔ s.errBits = 0#12 := by
  have h : s.errBitsWord.toNat = s.errBits.toNat * 2 := by
    rw [State.errBitsWord, toNat_append_add, toNat_append_add]
    simp
  rw [← BitVec.toNat_inj, ← BitVec.toNat_inj, h]
  simp

/-- ERRBITS as the host reads it loses the bits written as 1: no bit of the word written goes elsewhere (R33, R212). -/
theorem errBitsWord_ackErrors (s : State) (v : Word) : (s.ackErrors v).errBitsWord = s.errBitsWord &&& ~~~v := by
  refine BitVec.eq_of_getLsbD_eq fun j hj => ?_
  rw [errBitsWord_getLsbD, BitVec.getLsbD_and, errBitsWord_getLsbD, BitVec.getLsbD_not]
  show (_ && (s.errBits &&& ~~~v.extractLsb' 1 12).getLsbD (j - 1)) = _
  rw [BitVec.getLsbD_and, BitVec.getLsbD_not, BitVec.getLsbD_extractLsb']
  by_cases h0 : 1 ≤ j
  · by_cases h12 : j - 1 < 12
    · simp [h0, h12, hj]
    · simp [BitVec.getLsbD_of_ge s.errBits _ (Nat.not_lt.1 h12)]
  · simp [h0]

/-- Settles O19: a write of ERRBITS is the acknowledgement, a write of STATUS clears DONE; neither register is engine-owned. -/
theorem hostAcknowledgesByWritingOnes : Obligations.HostAcknowledgesByWritingOnes := by
  intro s v rest hr
  refine ⟨fun hin => ?_, fun hin => ?_⟩
  · refine ⟨_, step_writeReg (r := .errBits) hr (.inr rfl) hin, errBitsWord_ackErrors s v, fun h0 => ?_, fun h0 => ?_, rfl⟩
    · have h0 := (errBitsWord_eq_zero_iff (s.ackErrors v)).1 h0
      exact ⟨if_pos h0, if_pos h0⟩
    · have h0 := mt (errBitsWord_eq_zero_iff (s.ackErrors v)).2 h0
      exact ⟨if_neg h0, if_neg h0⟩
  · exact step_writeReg (r := .status) hr (.inr rfl) hin

/-! ### Irq and reset values -/

theorem statusWord_done (s : State) : s.statusWord.getLsbD 1 = s.done := by
  rw [State.statusWord, BitVec.getLsbD_append, if_neg (by decide), BitVec.getLsbD_append, if_pos (by decide)]
  simp

/-- Settles O21: each enable and condition is the register bit the host reads. -/
theorem irqFollowsEnabledConditions : Obligations.IrqFollowsEnabledConditions := by
  intro s hr
  have hirq : s.irq = (s.ieDone && s.done || s.ieErr && decide (s.errBits ≠ 0#12)) := by
    rw [State.irq, hr]
    rfl
  have hdone : (s.regRead .status).getLsbD 1 = s.done := statusWord_done s
  have herr : s.regRead .errBits ≠ 0#32 ↔ s.errBits ≠ 0#12 := not_congr (errBitsWord_eq_zero_iff s)
  have hctrl : ∀ n, n < 3 → (s.regRead .ctrl).getLsbD n = s.ctrl.getLsbD n := fun n hn => by
    simp [State.regRead, BitVec.getLsbD_setWidth]; omega
  rw [hirq, hdone, herr, hctrl 1 (by decide), hctrl 2 (by decide)]
  simp [State.ieDone, State.ieErr]

/-- Every register of a machine just reset reads its value of R65. -/
theorem regRead_reset (r : Reg) : State.reset.regRead r = if r = .id then 0x41515443#32 else 0#32 := by
  cases r <;> decide

/-- Settles O22: the registers one by one; the tails are those of a machine whose tails were cleared. -/
theorem resetValues : Obligations.ResetValues := by
  have htails : State.reset.clearTails = State.reset := rfl
  exact ⟨regRead_reset, fun a ha => htails ▸ readByte_clearTails_of_tail ha State.reset, rfl, rfl⟩

/-! ### Soft reset -/

theorem abortPending_of_idle {s : State} (hb : s.busy = false) : s.abortPending = s := by
  rw [State.abortPending, hb]
  rfl

theorem abortPending_of_busy {s : State} {i : Instr} (hb : s.busy = true) (hd : decode s.lastCmd = .ok i) :
    s.abortPending = s.drawAt (abortTargets i s) := by
  have hd' : decode s.fetchWord = .ok i := hd
  rw [State.abortPending, hb, if_pos rfl, hd']

/-- CTRL with SRST written as 1 is a soft reset, whatever else is written (R30, R237). -/
theorem writeReg_ctrl_of_srst (s : State) {v : Word} (hv : v.getLsbD 31 = true) : s.writeReg .ctrl v = s.softReset := if_pos hv

/-- A soft reset keeps the inputs still to come and the level of `rst`. -/
theorem softReset_keeps (s : State) : s.softReset.inputs = s.inputs ∧ s.softReset.rst = s.rst := by
  show s.abortPending.inputs = s.inputs ∧ s.abortPending.rst = s.rst
  rcases abortPending_cases s with e | ⟨i, -, -, e⟩ <;> rw [e] <;> exact ⟨rfl, rfl⟩

/-- Every register of a soft reset machine reads its value of R65 (R237). -/
theorem regRead_softReset (s : State) (r : Reg) : s.softReset.regRead r = if r = .id then 0x41515443#32 else 0#32 := by
  rw [← regRead_reset r]
  cases r <;> rfl

/-- A soft reset clears the tails (R237). -/
theorem readByte_softReset_of_tail (s : State) {a : Nat} (h : inTdtail a = true) : s.softReset.readByte a = 0#8 :=
  readByte_clearTails_of_tail h s.abortPending

/-- A soft reset leaves every other byte as the abort left it (R237, R238). -/
theorem readByte_softReset_of_other (s : State) {a : Nat} (h : inTdtail a = false) :
    s.softReset.readByte a = s.abortPending.readByte a :=
  readByte_clearTails_of_other h s.abortPending

/-- The bytes an aborted command may leave unspecified: those of SLOT's window, and FBUF's (R238). -/
def abortByte (a : Nat) : Prop := inRange slotBase 0x2000 a = true ∨ fbufBase ≤ a

theorem abortByte_of_mem_slotBytes {i a : Nat} (hi : i < 2048) (ha : a ∈ slotBytes i) : abortByte a := by
  simp only [slotBytes, slotAddr, slotBase, List.mem_cons, List.not_mem_nil, or_false] at ha
  exact .inl ((inRange_iff _ _ _).2 (by rw [slotBase]; omega))

theorem head_lt_two_pow (s : State) (g : Grp) : s.head g < 2048 := by
  cases g
  · exact s.head1.isLt
  · exact s.head2.isLt
  · exact s.head4.isLt

theorem abortByte_of_mem_openHeadBytes {s : State} {g : Grp} {a : Nat} (ha : a ∈ openHeadBytes s g) : abortByte a := by
  unfold openHeadBytes at ha
  split at ha
  · cases ha
  · exact abortByte_of_mem_slotBytes (head_lt_two_pow s g) ha

theorem abortByte_of_mem_bitBytes {p0 p1 a : Nat} (ha : a ∈ bitBytes p0 p1) : abortByte a := by
  unfold bitBytes at ha
  split at ha
  · obtain ⟨j, -, rfl⟩ := List.mem_map.1 ha
    exact .inr (Nat.le_add_right _ _)
  · cases ha

/-- A legal command's targets lie in SLOT's window or in FBUF (R238). -/
theorem abortByte_of_mem_abortTargets {i : Instr} {s : State} {a : Nat} (hwf : i.wf = true) (ha : a ∈ abortTargets i s) :
    abortByte a := by
  cases i with
  | qcoef ch k bap exp =>
    rcases List.mem_append.1 ha with ha | ha
    · exact abortByte_of_mem_slotBytes (slotIndex_lt ch k.isLt) ha
    · split at ha
      · exact abortByte_of_mem_openHeadBytes ha
      · cases ha
  | qrun ch n =>
    simp only [Instr.wf, Bool.and_eq_true, countOk, decide_eq_true_eq] at hwf
    have hn : n.toNat ≤ 256 := hwf.2
    simp only [abortTargets, List.mem_append] at ha
    rcases ha with ha | (ha | ha) | ha
    · obtain ⟨l, hl, hal⟩ := List.mem_flatten.1 ha
      obtain ⟨k, hk, rfl⟩ := List.mem_map.1 hl
      have hk := List.mem_range.1 hk
      exact abortByte_of_mem_slotBytes (slotIndex_lt ch (by omega)) hal
    all_goals exact abortByte_of_mem_openHeadBytes ha
  | putbits | flush | mpack => exact abortByte_of_mem_bitBytes ha
  | final =>
    obtain ⟨j, -, rfl⟩ := List.mem_map.1 ha
    exact .inr (Nat.le_add_right _ _)
  | _ => cases ha

/-- The commands that write neither SLOT nor FBUF leave nothing unspecified (R238). -/
theorem abortTargets_eq_nil {i : Instr} (s : State) (h : opcodeOf i ∉ [Opcode.qcoef, .qrun, .putbits, .flush, .mpack, .final]) :
    abortTargets i s = [] := by
  cases i with
  | qcoef | qrun | putbits | flush | mpack | final => simp [opcodeOf] at h
  | _ => rfl

/-- The bytes a soft reset of `s` leaves unspecified: none while idle, else the pending command's targets (R238). -/
def abandoned (s : State) (lost : List Nat) : Prop :=
  (s.busy = false ∧ lost = []) ∨ ∃ i : Instr, s.busy = true ∧ decode s.lastCmd = .ok i ∧ lost = abortTargets i s

/-- A soft reset keeps every byte outside the tails but those of the abandoned command (R237, R238). -/
theorem readByte_softReset_of_not_mem {s : State} {lost : List Nat} (h : abandoned s lost) {a : Nat} (ha : inTdtail a = false)
    (hnot : a ∉ lost) : s.softReset.readByte a = s.readByte a := by
  rw [readByte_softReset_of_other s ha]
  rcases h with ⟨hb, -⟩ | ⟨i, hb, hd, rfl⟩
  · rw [abortPending_of_idle hb]
  · rw [abortPending_of_busy hb hd, readByte_drawAt_of_not_mem hnot]

theorem abortByte_of_abandoned {s : State} {lost : List Nat} (h : abandoned s lost) {a : Nat} (ha : a ∈ lost) : abortByte a := by
  rcases h with ⟨-, rfl⟩ | ⟨i, -, hd, rfl⟩
  · cases ha
  · exact abortByte_of_mem_abortTargets (decode_wf hd) ha

theorem abandoned_eq_nil {s : State} {lost : List Nat} (h : abandoned s lost) {i : Instr}
    (hi : opcodeOf i ∉ [Opcode.qcoef, .qrun, .putbits, .flush, .mpack, .final]) (hd : decode s.lastCmd = .ok i) : lost = [] := by
  rcases h with ⟨-, rfl⟩ | ⟨j, -, hj, rfl⟩
  · rfl
  · rw [hd] at hj
    cases hj
    exact abortTargets_eq_nil s hi

/-- Settles O24: a soft reset is the abort, then the cleared tails, then the registers' reset values. -/
theorem softReset : Obligations.SoftReset := by
  intro s v rest lost hr hv hin hlost
  have hstep := step_writeReg (r := .ctrl) hr (.inr rfl) hin
  rw [writeReg_ctrl_of_srst _ hv] at hstep
  have hlost : abandoned { s with inputs := rest } lost := hlost
  obtain ⟨hinputs, hrst⟩ := softReset_keeps { s with inputs := rest }
  exact ⟨_, hstep, regRead_softReset { s with inputs := rest }, rfl,
    fun a ha => readByte_softReset_of_tail { s with inputs := rest } ha,
    fun a ha hnot => readByte_softReset_of_not_mem hlost ha hnot,
    fun a ha => abortByte_of_abandoned hlost ha,
    fun i hi hd => abandoned_eq_nil hlost hi hd, hinputs, hrst.trans hr⟩

/-! ### What a busy machine hides -/

theorem sameHostView_inputs {s t : State} (h : sameHostView s t) (rest : List Input) :
    sameHostView { s with inputs := rest } { t with inputs := rest } := by
  obtain ⟨ctrl, busy, done, lastCmd, sampled, bits, code, info, rst, -, resp⟩ := h
  exact ⟨ctrl, busy, done, lastCmd, sampled, bits, code, info, rst, rfl, resp⟩

theorem sameHostView_respond {s t : State} (h : sameHostView s t) (a : BusResp) : sameHostView (s.respond a) (t.respond a) := by
  obtain ⟨ctrl, busy, done, lastCmd, sampled, bits, code, info, rst, inputs, -⟩ := h
  exact ⟨ctrl, busy, done, lastCmd, sampled, bits, code, info, rst, inputs, rfl⟩

/-- The latch depends on the error registers alone (R209). -/
theorem sameHostView_raise {s t : State} (h : sameHostView s t) (c : ErrCode) (w : Word) :
    sameHostView (s.raise c w) (t.raise c w) := by
  obtain ⟨ctrl, busy, done, lastCmd, sampled, bits, code, info, rst, inputs, resp⟩ := h
  refine ⟨ctrl, busy, done, lastCmd, sampled, ?_, ?_, ?_, rst, inputs, resp⟩
  · rw [State.raise_errBits, State.raise_errBits, bits]
  · rw [State.raise_errCode, State.raise_errCode, bits, code]
  · rw [State.raise_errInfo, State.raise_errInfo, bits, info]

/-- Acknowledgement depends on the error registers alone (R212). -/
theorem sameHostView_ackErrors {s t : State} (h : sameHostView s t) (v : Word) : sameHostView (s.ackErrors v) (t.ackErrors v) := by
  obtain ⟨ctrl, busy, done, lastCmd, sampled, bits, code, info, rst, inputs, resp⟩ := h
  refine ⟨ctrl, busy, done, lastCmd, sampled, ?_, ?_, ?_, rst, inputs, resp⟩
  · simp only [State.ackErrors, bits]
  · simp only [State.ackErrors, bits, code]
  · simp only [State.ackErrors, bits, info]

/-- A place that is not the engine's is one of the host's registers (R27, R66). -/
theorem reg_of_not_engineOwned {p : Place} (h : p.engineOwned = false) : ∃ r, p = .reg r ∧ r.engineOwned = false := by
  cases p with
  | reg r => exact ⟨r, rfl, h⟩
  | entry a => cases h
  | frame a => cases h

/-- The host's registers read alike (R27, R216). -/
theorem regRead_of_sameHostView {s t : State} (h : sameHostView s t) {r : Reg} (hr : r.engineOwned = false) :
    s.regRead r = t.regRead r := by
  obtain ⟨ctrl, busy, done, lastCmd, -, bits, code, info, -, -, -⟩ := h
  cases r with
  | id => rfl
  | ctrl => simp only [State.regRead, ctrl]
  | status => simp only [State.regRead, State.statusWord, busy, done]
  | cmd => exact lastCmd
  | errBits => simp only [State.regRead, State.errBitsWord, bits]
  | errCode => simp only [State.regRead, code]
  | errInfo => exact info
  | _ => cases hr

/-- While busy a write of one of the host's registers, no soft reset, depends on those registers alone (R66, R215, R216). -/
theorem sameHostView_writeReg {s t : State} (h : sameHostView s t) (hb : s.busy = true) {r : Reg} (hr : r.engineOwned = false)
    {v : Word} (hv : r = .ctrl → v.getLsbD 31 = false) : sameHostView (s.writeReg r v) (t.writeReg r v) := by
  have refused : ∀ u : State, u.busy = true → u.writeCmd v = u.raise .busyCmd v := fun u hu => if_pos hu
  have ⟨ctrl, busy, done, lastCmd, sampled, bits, code, info, rst, inputs, resp⟩ := h
  cases r with
  | ctrl =>
    rw [writeReg_ctrl s (hv rfl), writeReg_ctrl t (hv rfl)]
    exact ⟨rfl, busy, done, lastCmd, sampled, bits, code, info, rst, inputs, resp⟩
  | status => exact ⟨ctrl, busy, congrArg (· && !v.getLsbD 1) done, lastCmd, sampled, bits, code, info, rst, inputs, resp⟩
  | cmd =>
    show sameHostView (s.writeCmd v) (t.writeCmd v)
    rw [refused s hb, refused t (busy ▸ hb)]
    exact sameHostView_raise h .busyCmd v
  | errBits => exact sameHostView_ackErrors h v
  | id | errCode | errInfo => exact h
  | _ => cases hr

/-- While busy a read depends on the host's registers alone (R84, R216). -/
theorem sameHostView_hostRead {s t : State} (h : sameHostView s t) (hb : s.busy = true) (size : AccessSize) (off : BitVec 16) :
    sameHostView (s.hostRead size off) (t.hostRead size off) := by
  have ⟨_, busy, _, _, _, _, _, _, rst, _, _⟩ := h
  obtain ⟨srst, sunmapped, srefused, spermitted⟩ := hostRead_cases s size off
  obtain ⟨trst, tunmapped, trefused, tpermitted⟩ := hostRead_cases t size off
  rw [rst] at srst sunmapped srefused spermitted
  rw [hb] at busy
  cases hr : t.rst with
  | true =>
    rw [srst hr, trst hr]
    exact sameHostView_respond h _
  | false =>
    cases hp : accessPlace size off with
    | none =>
      rw [sunmapped hr hp, tunmapped hr hp]
      exact sameHostView_respond (sameHostView_raise h _ _) _
    | some p =>
      cases ho : p.engineOwned with
      | true =>
        rw [srefused p hr hp hb ho, trefused p hr hp busy.symm ho]
        exact sameHostView_respond (sameHostView_raise h _ _) _
      | false =>
        obtain ⟨r, rfl, hown⟩ := reg_of_not_engineOwned ho
        rw [spermitted _ hr hp (.inr ho), tpermitted _ hr hp (.inr ho),
          show s.readPlace (.reg r) = t.readPlace (.reg r) from regRead_of_sameHostView h hown]
        exact sameHostView_respond h _

/-- While busy a write, no soft reset, depends on the host's registers alone (R84, R216). -/
theorem sameHostView_hostWrite {s t : State} (h : sameHostView s t) (hb : s.busy = true) {size : AccessSize} {off : BitVec 16} {v : Word}
    (hv : size = .b32 → off = 0x0004#16 → v.getLsbD 31 = false) : sameHostView (s.hostWrite size off v) (t.hostWrite size off v) := by
  have ⟨_, busy, _, _, _, _, _, _, rst, _, _⟩ := h
  obtain ⟨srst, sunmapped, srefused, spermitted⟩ := hostWrite_cases s size off v
  obtain ⟨trst, tunmapped, trefused, tpermitted⟩ := hostWrite_cases t size off v
  rw [rst] at srst sunmapped srefused spermitted
  rw [hb] at busy
  cases hr : t.rst with
  | true =>
    rw [srst hr, trst hr]
    exact sameHostView_respond h _
  | false =>
    cases hp : accessPlace size off with
    | none =>
      rw [sunmapped hr hp, tunmapped hr hp]
      exact sameHostView_respond (sameHostView_raise h _ _) _
    | some p =>
      cases ho : p.engineOwned with
      | true =>
        rw [srefused p hr hp hb ho, trefused p hr hp busy.symm ho]
        exact sameHostView_respond (sameHostView_raise h _ _) _
      | false =>
        obtain ⟨r, rfl, hown⟩ := reg_of_not_engineOwned ho
        obtain ⟨hsize, hoff⟩ := off_eq_of_accessPlace_reg hp
        rw [spermitted _ hr hp (.inr ho), tpermitted _ hr hp (.inr ho)]
        exact sameHostView_respond (sameHostView_writeReg h hb hown fun hc => hv hsize (by rw [hoff, hc]; rfl)) _

/-- Settles O17: reads and writes of a busy machine, each by where it lands. -/
theorem busyHidesEngineState : Obligations.BusyHidesEngineState := by
  intro s s' t t' i rest hb h hin hengine hrst hsoft ht ht'
  have hin' : s'.inputs = i :: rest := by
    obtain ⟨-, -, -, -, -, -, -, -, -, inputs, -⟩ := h
    rw [← inputs, hin]
  have hrest := sameHostView_inputs h rest
  cases i with
  | engine => exact absurd rfl hengine
  | rst level => exact absurd rfl (hrst level)
  | read size off =>
    rw [step_of_read hin] at ht
    rw [step_of_read hin'] at ht'
    cases ht
    cases ht'
    exact sameHostView_hostRead hrest hb size off
  | write size off v =>
    rw [step_of_write hin] at ht
    rw [step_of_write hin'] at ht'
    cases ht
    cases ht'
    exact sameHostView_hostWrite hrest hb fun hsize hoff => hsoft v (by rw [hsize, hoff])

/-! ### Register writes -/

/-- The low n bits of a word, widened again, are the word masked. -/
theorem zeroExtend_extractLsb'_zero (v : Word) (n : Nat) :
    (v.extractLsb' 0 n).zeroExtend 32 = v &&& BitVec.ofNat 32 (2 ^ n - 1) := by
  refine BitVec.eq_of_getLsbD_eq fun j hj => ?_
  rw [BitVec.getLsbD_setWidth, BitVec.getLsbD_extractLsb', BitVec.getLsbD_and, BitVec.getLsbD_ofNat, Nat.testBit_two_pow_sub_one]
  simp [hj, Bool.and_comm]

/-- The answer on the bus is in no register. -/
@[simp] theorem regRead_respond (s : State) (a : BusResp) (r : Reg) : (s.respond a).regRead r = s.regRead r := by
  cases r <;> rfl

/-- The inputs still to come are in no register. -/
@[simp] theorem regRead_inputs (s : State) (rest : List Input) (r : Reg) : ({ s with inputs := rest } : State).regRead r = s.regRead r := by
  cases r <;> rfl

/-- The registers that ignore a write (R28). -/
def readOnlyRegs : List Reg :=
  [.id, .errCode, .errInfo, .qout, .grpCnt, .grpHead1, .grpHead2, .grpHead4, .tdStat, .tdRes, .bitPos, .crc1, .crc2, .frameBytes]

/-- The registers that store what is written, CTRL among them while SRST is written as 0 (R30, R36, R43, R44, R48 to R51). -/
def storingRegs : List Reg := [.ctrl, .qin, .putData, .fsw, .crcStart, .crcLen, .crcBits, .crcVal]

theorem writeReg_readOnly {r : Reg} (h : r ∈ readOnlyRegs) (s : State) (v : Word) : s.writeReg r v = s := by
  cases r with
  | ctrl | status | cmd | errBits | qin | putData | fsw | crcStart | crcLen | crcBits | crcVal => simp [readOnlyRegs] at h
  | _ => rfl

/-- A storing register reads back the bits it has, the others 0 (R28). -/
theorem regRead_writeReg_self {r : Reg} (h : r ∈ storingRegs) (s : State) {v : Word} (hv : r = .ctrl → v.getLsbD 31 = false) :
    (s.writeReg r v).regRead r = v &&& (if r = .ctrl then 0x00000007#32
      else if r = .qin ∨ r = .putData ∨ r = .crcBits then 0xFFFFFFFF#32
      else 0x0000FFFF#32) := by
  cases r with
  | ctrl => rw [writeReg_ctrl s (hv rfl)]; exact zeroExtend_extractLsb'_zero v 3
  | qin | putData | crcBits => exact BitVec.and_allOnes.symm
  | fsw | crcStart | crcLen | crcVal => exact zeroExtend_extractLsb'_zero v 16
  | _ => simp [storingRegs] at h

/-- A storing register's write changes no other register. -/
theorem regRead_writeReg_of_ne {r r' : Reg} (h : r ∈ storingRegs) (hne : r' ≠ r) (s : State) {v : Word}
    (hv : r = .ctrl → v.getLsbD 31 = false) : (s.writeReg r v).regRead r' = s.regRead r' := by
  cases r with
  | ctrl => rw [writeReg_ctrl s (hv rfl)]; cases r' <;> first | rfl | exact absurd rfl hne
  | qin | putData | fsw | crcStart | crcLen | crcBits | crcVal => cases r' <;> first | rfl | exact absurd rfl hne
  | _ => simp [storingRegs] at h

/-- A storing register's write keeps the memories and what is no register. -/
theorem writeReg_storing_keeps {r : Reg} (h : r ∈ storingRegs) (s : State) {v : Word} (hv : r = .ctrl → v.getLsbD 31 = false) :
    (∀ a, (s.writeReg r v).readByte a = s.readByte a) ∧ (s.writeReg r v).bswenSampled = s.bswenSampled ∧
      (s.writeReg r v).busy = s.busy ∧ (s.writeReg r v).rst = s.rst ∧ (s.writeReg r v).inputs = s.inputs := by
  cases r with
  | ctrl => rw [writeReg_ctrl s (hv rfl)]; exact ⟨fun _ => rfl, rfl, rfl, rfl, rfl⟩
  | qin | putData | fsw | crcStart | crcLen | crcBits | crcVal => exact ⟨fun _ => rfl, rfl, rfl, rfl, rfl⟩
  | _ => simp [storingRegs] at h

/-- Settles O16: the write reaches the register, which ignores it or stores its bits. -/
theorem registerWrites : Obligations.RegisterWrites := by
  intro s r v rest hr hb hin
  have hstep := step_writeReg hr hb hin
  refine ⟨fun hro => ?_, fun hrw hv => ?_⟩
  · rw [hstep, writeReg_readOnly hro]
    rfl
  · obtain ⟨hbytes, hsampled, hbusy, hrst, hinputs⟩ := writeReg_storing_keeps hrw { s with inputs := rest } hv
    refine ⟨_, hstep, ?_, fun r' hne => ?_, hbytes, hsampled, hbusy, hrst.trans hr, hinputs, rfl⟩
    · exact (regRead_respond _ _ r).trans (regRead_writeReg_self hrw { s with inputs := rest } hv)
    · exact (regRead_respond _ _ r').trans ((regRead_writeReg_of_ne hrw hne { s with inputs := rest } hv).trans (regRead_inputs s rest r'))

/-! ### The shift of a tail -/

/-- A state whose memories are those of `s` with the tail shifted reads the new samples as the tail (R59, R118). -/
theorem tail_of_shifted {s t : State} {ch : BitVec 3} (hch : ch.toNat < 6) {vs : List Word} (hlen : vs.length = 256)
    (hm : t.mem = (s.writeWords (tailAddr ch) vs).mem) (hd : t.memDraw = s.memDraw) : t.tail ch = vs := by
  obtain ⟨htail, -⟩ := tail_writeWords s hch hlen
  exact (readWords_congr 256 fun b _ _ => readByte_congr hm hd b).trans htail

/-- It reads every byte outside the tail as `s` does. -/
theorem bytesKept_of_shifted {s t : State} {ch : BitVec 3} (hch : ch.toNat < 6) {vs : List Word} (hlen : vs.length = 256)
    (hm : t.mem = (s.writeWords (tailAddr ch) vs).mem) (hd : t.memDraw = s.memDraw) :
    bytesKept (inRange (tailAddr ch) 1024) s t := by
  obtain ⟨-, hbytes⟩ := tail_writeWords s hch hlen
  exact fun a ha => (readByte_congr hm hd a).trans (hbytes a ha)

/-- TDPUSH with block switching off reports 'disabled' (R118, R121). -/
theorem tdpushBody_off {s : State} (ch : BitVec 3) (h : s.bswenSampled = false) : tdpushBody ch s =
    .ok { s with tdstat := tdstatBits false 5#3 0#4 ch true, tdres := setTdres s.tdres ch false } := by
  rw [tdpushBody, h]
  rfl

/-- TDPUSH with block switching on, on a window without a NaN (R118). -/
theorem tdpushBody_on {s : State} {ch : BitVec 3} (h : s.bswenSampled = true) (hn : ∀ x ∈ s.tail ch ++ s.tdnew, isNan x = false) :
    tdpushBody ch s = .ok { s with
      mem := (s.writeWords (tailAddr ch) s.tdnew).mem
      tdstat := (detect (pushWindow s ch)).stat ch true
      tdres := setTdres s.tdres ch (detect (pushWindow s ch)).res } := by
  have hw : firstNan 0 (pushWindow s ch) = none := (firstNan_eq_none 0 _).2 hn
  rw [tdpushBody, h, if_pos rfl, hw]
  generalize s.tdnew = new
  rfl

/-- Settles O51: the two branches of TDPUSH; the tail is a row of entries whose bits are all stored. -/
theorem tdpushDetectsAndShiftsTail : Obligations.TdpushDetectsAndShiftsTail := by
  intro s ch hch
  have hexec : exec (.tdpush ch) s = (tdpushBody ch s).outcome := rfl
  rw [hexec]
  refine ⟨fun hon hn => ?_, fun hoff => ?_⟩
  · rw [tdpushBody_on hon hn]
    have hlen : s.tdnew.length = 256 := readWords_length s tdnewBase 256
    have hwin : s.tail ch ++ s.tdnew = pushWindow s ch := rfl
    rw [hwin]
    generalize detect (pushWindow s ch) = d
    generalize s.tdnew = new at hlen ⊢
    refine ⟨_, outcome_ok _, ?tail, ?bytes, rfl, fun c hc => setTdres_getLsbD s.tdres hch d.res hc, rfl⟩
    case tail => exact tail_of_shifted hch hlen rfl rfl
    case bytes => exact bytesKept_of_shifted hch hlen rfl rfl
  · rw [tdpushBody_off ch hoff]
    exact ⟨_, outcome_ok _, rfl, rfl, fun c hc => setTdres_getLsbD s.tdres hch false hc, rfl⟩

end Sys2Proof.Proofs

/-!
PROOFS. The host window (20_memory.md): what a permitted access does, the two refusals with their information words, and what a written
entry or frame word reads back as.
-/
namespace Sys2Proof.Proofs

open Sys2Proof Sys2Proof.Machine

/-! ### Permitted accesses -/

/-- What a place reads as does not depend on the inputs still to come. -/
@[simp] theorem readPlace_inputs (s : State) (rest : List Input) (p : Place) :
    ({ s with inputs := rest } : State).readPlace p = s.readPlace p := by
  cases p with
  | reg r => exact regRead_inputs s rest r
  | entry a => rfl
  | frame a => rfl

/-- A permitted read answers with what the place holds, and that is all it does (R74, R81). -/
theorem step_readPlace {s : State} {size : AccessSize} {off : BitVec 16} {p : Place} {rest : List Input} (hr : s.rst = false)
    (hp : accessPlace size off = some p) (hb : s.busy = false ∨ p.engineOwned = false) (hin : s.inputs = .read size off :: rest) :
    step s = .next { s with inputs := rest, resp := .read (s.readPlace p) false } := by
  obtain ⟨-, -, -, permitted⟩ := hostRead_cases { s with inputs := rest } size off
  rw [step_of_read hin, permitted p hr hp hb, readPlace_inputs]
  rfl

/-- A permitted write answers without an error and does what the place does with the word (R74). -/
theorem step_writePlace {s : State} {size : AccessSize} {off : BitVec 16} {p : Place} {v : Word} {rest : List Input}
    (hr : s.rst = false) (hp : accessPlace size off = some p) (hb : s.busy = false ∨ p.engineOwned = false)
    (hin : s.inputs = .write size off v :: rest) :
    step s = .next ((({ s with inputs := rest } : State).writePlace p v).respond (.write false)) := by
  obtain ⟨-, -, -, permitted⟩ := hostWrite_cases { s with inputs := rest } size off v
  rw [step_of_write hin, permitted p hr hp hb]

/-! ### Refused accesses -/

/-- BUSYACC's word, its direction bit joined to the zeros above it (R207). -/
theorem busyInfo_eq (off : BitVec 16) (wr : Bool) : busyInfo off wr = (if wr then 1#16 else 0#16) ++ off := by
  cases wr <;> rfl

/-- The state after a refused access: the error registers and the answer, the latch taken only by a first error (R209). -/
theorem raise_respond (s : State) (c : ErrCode) (info : Word) (a : BusResp) : (s.raise c info).respond a = { s with
    resp := a
    errBits := s.errBits ||| errBit c
    errCode := if s.errBits = 0#12 then BitVec.ofNat 4 c.num else s.errCode
    errInfo := if s.errBits = 0#12 then info else s.errInfo } := rfl

/-- Settles O11: the access names a place of the engine's, so the busy machine refuses it. -/
theorem busyAccessRefused : Obligations.BusyAccessRefused := by
  intro s off v rest hr hb h4 howned
  obtain ⟨p, hp, ho⟩ := accessPlace_engineOwned h4 howned
  refine ⟨fun hin => ⟨false, ?_⟩, fun hin => ⟨false, ?_⟩⟩
  · obtain ⟨-, -, refused, -⟩ := hostRead_cases { s with inputs := rest } .b32 off
    rw [step_of_read hin, refused p hr hp hb ho, raise_respond, busyInfo_eq]
    rfl
  · obtain ⟨-, -, refused, -⟩ := hostWrite_cases { s with inputs := rest } .b32 off v
    rw [step_of_write hin, refused p hr hp hb ho, raise_respond, busyInfo_eq]
    rfl

/-- Settles O12: the access names no place, which is looked at before whether the engine is busy. -/
theorem busAccessRefused : Obligations.BusAccessRefused := by
  intro s size off v rest hr hbad
  have hp : accessPlace size off = none := accessPlace_eq_none hbad
  refine ⟨fun hin => ?_, fun hin => ?_⟩
  · obtain ⟨-, unmapped, -, -⟩ := hostRead_cases { s with inputs := rest } size off
    rw [step_of_read hin, unmapped hr hp, raise_respond]
    rfl
  · obtain ⟨-, unmapped, -, -⟩ := hostWrite_cases { s with inputs := rest } size off v
    rw [step_of_write hin, unmapped hr hp, raise_respond]
    rfl

/-- Settles O13: registers and entries are places, and a permitted read of a place only answers. -/
theorem readsHaveNoSideEffects : Obligations.ReadsHaveNoSideEffects := by
  intro s rest hr
  refine ⟨fun r hb hin => ?_, fun off hb h4 he hin => ?_⟩
  · exact step_readPlace (p := .reg r) hr (accessPlace_reg r) hb hin
  · exact step_readPlace hr (accessPlace_entry h4 he) (.inl hb) hin

/-! ### Entries -/

/-- A permitted write of an entry stores its word and answers; nothing else changes (R74, R76). -/
theorem step_writeEntry {s : State} {off : BitVec 16} {a : Nat} {v : Word} {rest : List Input} (hr : s.rst = false)
    (hb : s.busy = false) (hp : accessPlace .b32 off = some (.entry a)) (hin : s.inputs = .write .b32 off v :: rest) :
    ∃ t, step s = .next t ∧ t.mem = (s.writeWord a v).mem ∧
      { t with mem := s.mem } = { s with inputs := rest, resp := .write false } :=
  ⟨_, step_writePlace hr hp (.inl hb) hin, rfl, rfl⟩

/-- A state that differs from `s` by an entry's write reads the entry as its stored bits (R76). -/
theorem readWord_of_written {s t : State} {a : Nat} {v : Word} (hmem : t.mem = (s.writeWord a v).mem)
    (hdraw : t.memDraw = s.memDraw) : t.readWord a = v &&& wordMask a :=
  (readWord_congr fun b _ _ => readByte_congr hmem hdraw b).trans (readWord_writeWord_self s a v)

/-- It reads every byte outside the entry as `s` does. -/
theorem bytesKept_of_written {s t : State} {a : Nat} {v : Word} (hmem : t.mem = (s.writeWord a v).mem)
    (hdraw : t.memDraw = s.memDraw) : bytesKept (inRange a 4) s t := fun b hb =>
  (readByte_congr hmem hdraw b).trans (readByte_writeWord_of_outside ((inRange_false_iff a 4 b).1 hb) s v)

/-- Settles O14: the write leaves the machine idle with the entry's stored bits in place, and the read answers with them. -/
theorem memoryEntryReadsBackStoredBits : Obligations.MemoryEntryReadsBackStoredBits := by
  intro s off v rest hr hb h4 he hin
  have hp := accessPlace_entry h4 he
  obtain ⟨t, hstep, hmem, hframe⟩ := step_writeEntry hr hb hp hin
  have hdraw : t.memDraw = s.memDraw := (congrArg State.memDraw hframe :)
  have hrst : t.rst = false := (congrArg State.rst hframe).trans hr
  have hbusy : t.busy = false := (congrArg State.busy hframe).trans hb
  have hinputs : t.inputs = .read .b32 off :: rest := (congrArg State.inputs hframe :)
  refine ⟨t, hstep, ?_, bytesKept_of_written hmem hdraw, hframe⟩
  rw [step_readPlace hrst hp (.inl hbusy) hinputs, State.readPlace, readWord_of_written hmem hdraw,
    wordMask_entry h4 he]

/-! ### Words of FBUF -/

/-- Word n of FBUF starts at its byte 4n (R71, R77). -/
theorem accessPlace_frameWord {n : Nat} (hn : n < 1024) :
    accessPlace .b32 (BitVec.ofNat 16 (0xE000 + 4 * n)) = some (.frame (fbufBase + 4 * n)) := by
  have hoff : (BitVec.ofNat 16 (0xE000 + 4 * n)).toNat = fbufBase + 4 * n := by
    rw [BitVec.toNat_ofNat, fbufBase]; omega
  have h4 : (fbufBase + 4 * n) % 4 = 0 := by rw [fbufBase]; omega
  have hf : inRange fbufBase 0x1000 (fbufBase + 4 * n) = true := (inRange_iff _ _ _).2 (by omega)
  rw [← hoff] at h4 hf ⊢
  exact accessPlace_frame h4 hf

/-- A frame word's write is four writes of FBUF bytes, the most significant first (R77). -/
theorem writeWordBE_eq_setFbuf (s : State) (i : Nat) (v : Word) : s.writeWordBE (fbufBase + i) v =
    (((s.setFbuf i (v.extractLsb' 24 8)).setFbuf (i + 1) (v.extractLsb' 16 8)).setFbuf (i + 2) (v.extractLsb' 8 8)).setFbuf (i + 3)
      (v.extractLsb' 0 8) := writeWordBE_eq s (fbufBase + i) v

/-- A permitted write at FBUF stores its four bytes and answers; nothing else changes (R77). -/
theorem step_writeFrame {s : State} {off : BitVec 16} {a : Nat} {v : Word} {rest : List Input} (hr : s.rst = false)
    (hb : s.busy = false) (hp : accessPlace .b32 off = some (.frame a)) (hin : s.inputs = .write .b32 off v :: rest) :
    ∃ t, step s = .next t ∧ t.mem = (s.writeWordBE a v).mem ∧
      { t with mem := s.mem } = { s with inputs := rest, resp := .write false } :=
  ⟨_, step_writePlace hr hp (.inl hb) hin, rfl, rfl⟩

/-- The four bytes of FBUF a frame word's write leaves (R77). -/
theorem fbuf_writeWordBE {i : Nat} (hi : i + 4 ≤ 4096) (s : State) (v : Word) :
    (s.writeWordBE (fbufBase + i) v).fbuf i = v.extractLsb' 24 8 ∧
    (s.writeWordBE (fbufBase + i) v).fbuf (i + 1) = v.extractLsb' 16 8 ∧
    (s.writeWordBE (fbufBase + i) v).fbuf (i + 2) = v.extractLsb' 8 8 ∧
    (s.writeWordBE (fbufBase + i) v).fbuf (i + 3) = v.extractLsb' 0 8 := by
  rw [writeWordBE_eq_setFbuf]
  refine ⟨?_, ?_, ?_, ?_⟩
  · rw [fbuf_setFbuf_of_ne (by omega), fbuf_setFbuf_of_ne (by omega), fbuf_setFbuf_of_ne (by omega), fbuf_setFbuf_self (by omega)]
  · rw [fbuf_setFbuf_of_ne (by omega), fbuf_setFbuf_of_ne (by omega), fbuf_setFbuf_self (by omega)]
  · rw [fbuf_setFbuf_of_ne (by omega), fbuf_setFbuf_self (by omega)]
  · rw [fbuf_setFbuf_self (by omega)]

/-- A frame word's write touches its four bytes alone. -/
theorem readByte_writeWordBE_of_not_frameByte {i b : Nat} (hb : frameByte i (i + 4) b = false) (s : State) (v : Word) :
    (s.writeWordBE (fbufBase + i) v).readByte b = s.readByte b :=
  readByte_writeWordBE_of_outside (by have := of_decide_eq_false hb; omega) s v

/-- Settles O15: an aligned offset of FBUF is a place of four bytes, read and written most significant first. -/
theorem frameWordsAreBigEndian : Obligations.FrameWordsAreBigEndian := by
  intro s n v rest hr hb hn
  have hp := accessPlace_frameWord hn
  refine ⟨fun hin => step_readPlace hr hp (.inl hb) hin, fun hin => ?_⟩
  obtain ⟨t, hstep, hmem, hframe⟩ := step_writeFrame hr hb hp hin
  have hdraw : t.memDraw = s.memDraw := (congrArg State.memDraw hframe :)
  have hbytes : ∀ b, t.readByte b = (s.writeWordBE (fbufBase + 4 * n) v).readByte b := readByte_congr hmem hdraw
  obtain ⟨h0, h1, h2, h3⟩ := fbuf_writeWordBE (show 4 * n + 4 ≤ 4096 by omega) s v
  exact ⟨t, hstep, (hbytes _).trans h0, (hbytes _).trans h1, (hbytes _).trans h2, (hbytes _).trans h3,
    fun b hout => (hbytes b).trans (readByte_writeWordBE_of_not_frameByte hout s v), hframe⟩

end Sys2Proof.Proofs

/-!
PROOFS. The command words (30_encoding.md): the opcode map, the reserved bits, the fields of an encoded command, the decode checks, the
two round trips; and what a word written to CMD does while the engine is idle.
-/
namespace Sys2Proof.Proofs

open Sys2Proof Sys2Proof.Machine

/-! ### The opcode map -/

/-- The opcode map reads a byte as an opcode only if it is that opcode's byte (R98). -/
theorem opcodeOfByte_eq_some_iff {b : Byte} {op : Opcode} : opcodeOfByte b = some op ↔ b = opByte op := by
  refine ⟨fun h => ?_, fun h => h ▸ Laws.opcodeOfByte_opByte op⟩
  unfold opcodeOfByte at h
  split at h
  case h_16 => cases h
  all_goals
    cases h
    exact BitVec.eq_of_toNat_eq ‹b.toNat = _›

/-- The reserved bytes are those of no opcode (R99). -/
theorem opcodeOfByte_eq_none_iff {b : Byte} : opcodeOfByte b = none ↔ ∀ op, b ≠ opByte op := by
  simp only [Option.eq_none_iff_forall_ne_some, ne_eq, opcodeOfByte_eq_some_iff]

/-! ### The checks on the fields -/

theorem countOk_iff (n : BitVec 9) : countOk n = true ↔ n.toNat ≤ 256 := decide_eq_true_iff

theorem widthOk_iff (w : BitVec 6) : widthOk w = true ↔ w.toNat ≤ 32 := decide_eq_true_iff

theorem chOk_iff (ch : BitVec 3) : chOk ch = true ↔ ch.toNat < 6 := decide_eq_true_iff

theorem countOk_eq_false_iff (n : BitVec 9) : countOk n = false ↔ 256 < n.toNat := by
  rw [← Bool.not_eq_true, countOk_iff, Nat.not_le]

theorem widthOk_eq_false_iff (w : BitVec 6) : widthOk w = false ↔ 32 < w.toNat := by
  rw [← Bool.not_eq_true, widthOk_iff, Nat.not_le]

theorem chOk_eq_false_iff (ch : BitVec 3) : chOk ch = false ↔ 6 ≤ ch.toNat := by
  rw [← Bool.not_eq_true, chOk_iff, Nat.not_lt]

/-- The formats with a channel field (R93 to R95). -/
theorem hasChannel_iff (f : Format) : hasChannel f = true ↔ f = .Q ∨ f = .R ∨ f = .C := by
  cases f <;> decide

/-- The checks on the fields of a word ask of its command just that it is well formed (R101). -/
theorem wf_assemble_iff (op : Opcode) (w : Word) : (assemble op w).wf = true ↔
    (formatOf op = .R → countOk (fieldN w) = true) ∧ (formatOf op = .W → widthOk (fieldW w) = true) ∧
      (hasChannel (formatOf op) = true → chOk (fieldCh w) = true) := by
  cases op <;> simp [assemble, Instr.wf, formatOf, hasChannel, and_comm]

@[simp] theorem opcodeOf_assemble (op : Opcode) (w : Word) : opcodeOf (assemble op w) = op := by
  cases op <;> rfl

/-! ### Decode, check by check -/

/-- A word with a reserved op byte (R99). -/
theorem decode_of_reservedOpcode {w : Word} (h : ∀ op, fieldOp w ≠ opByte op) : decode w = .error .badCmd := by
  rw [decode, opcodeOfByte_eq_none_iff.2 h]

/-- A check that a format asks for and the word passes does not reject it. -/
theorem not_and_eq_false {p : Prop} {b : Bool} (h : p → b = true) : ¬ (p ∧ b = false) := fun ⟨hp, hb⟩ =>
  Bool.eq_false_iff.1 hb (h hp)

/-- Decode once the opcode is known (R102). -/
theorem decode_of_opByte {w : Word} {op : Opcode} (h : fieldOp w = opByte op) : decode w =
    if w &&& reservedMask (formatOf op) ≠ 0#32 then .error .badCmd
    else if formatOf op = .R ∧ countOk (fieldN w) = false then .error .badCmd
    else if formatOf op = .W ∧ widthOk (fieldW w) = false then .error .badCmd
    else if hasChannel (formatOf op) = true ∧ chOk (fieldCh w) = false then .error .badCh
    else .ok (assemble op w) := by
  rw [decode, opcodeOfByte_eq_some_iff.2 h]

/-- A word decodes to a command exactly if it has the command's op byte, no reserved bit set, and the command's fields, which are in
range (R99 to R102). -/
theorem decode_eq_ok_iff {w : Word} {i : Instr} : decode w = .ok i ↔
    fieldOp w = opByte (opcodeOf i) ∧ w &&& reservedMask (formatOf (opcodeOf i)) = 0#32 ∧ assemble (opcodeOf i) w = i ∧
      i.wf = true := by
  constructor
  · intro h
    cases hop : opcodeOfByte (fieldOp w) with
    | none => rw [decode_of_reservedOpcode (opcodeOfByte_eq_none_iff.1 hop)] at h; cases h
    | some op =>
      have hbyte := opcodeOfByte_eq_some_iff.1 hop
      have hwf := decode_wf h
      rw [decode_of_opByte hbyte] at h
      split_ifs at h with hres
      cases h
      rw [opcodeOf_assemble]
      exact ⟨hbyte, not_not.1 hres, rfl, hwf⟩
  · rintro ⟨hbyte, hres, hasm, hwf⟩
    obtain ⟨hn, hw, hch⟩ := (wf_assemble_iff (opcodeOf i) w).1 (by rw [hasm]; exact hwf)
    rw [decode_of_opByte hbyte, if_neg (not_not.2 hres), if_neg (not_and_eq_false hn), if_neg (not_and_eq_false hw),
      if_neg (not_and_eq_false hch), hasm]

/-- Settles O4: with the opcode known, each guard of the statement picks its branch of the decode procedure. -/
theorem decodeChecksInOrder : Obligations.DecodeChecksInOrder := by
  intro w
  refine ⟨decode_of_reservedOpcode, fun op hop => ?_⟩
  simp only [← countOk_iff, ← widthOk_iff, ← chOk_iff, ← countOk_eq_false_iff, ← widthOk_eq_false_iff,
    ← chOk_eq_false_iff, ← hasChannel_iff]
  rw [decode_of_opByte hop, fieldN, fieldW, fieldCh]
  refine ⟨fun hres => if_pos hres, fun hres => ?_⟩
  rw [if_neg (not_not.2 hres)]
  refine ⟨fun hR hn => if_pos ⟨hR, hn⟩, fun hW hw => ?_, fun hn hw => ?_⟩
  · rw [if_neg (by rw [hW]; simp)]
    exact if_pos ⟨hW, hw⟩
  · rw [if_neg (not_and_eq_false hn), if_neg (not_and_eq_false hw)]
    exact ⟨fun hC hch => if_pos ⟨hC, hch⟩, fun hch => if_neg (not_and_eq_false hch)⟩

/-! ### The reserved bits -/

/-- How many bits below the last field of a format are reserved (R92 to R96). -/
def reservedBits : Format → Nat
  | .N => 24
  | .Q => 4
  | .R => 12
  | .C => 21
  | .W => 18

/-- A format's mask selects its lowest bits (R100). -/
theorem and_reservedMask_eq_zero_iff (w : Word) (f : Format) :
    w &&& reservedMask f = 0#32 ↔ w.extractLsb' 0 (reservedBits f) = 0#(reservedBits f) := by
  have hmask : (reservedMask f).toNat = 2 ^ reservedBits f - 1 := by cases f <;> rfl
  rw [← BitVec.toNat_inj, ← BitVec.toNat_inj, BitVec.toNat_and, hmask, Nat.and_two_pow_sub_one_eq_mod, BitVec.extractLsb'_toNat,
    Nat.shiftRight_zero, BitVec.toNat_zero, BitVec.toNat_zero]

/-! ### The layout of a command word -/

/-- A field of n bits and the m bits below it, read together or one by one. -/
theorem extractLsb'_eq_append_iff (start n m : Nat) {w : Nat} {x : BitVec w} {hi : BitVec n} {lo : BitVec m} :
    x.extractLsb' start (n + m) = hi ++ lo ↔ x.extractLsb' (start + m) n = hi ∧ x.extractLsb' start m = lo := by
  rw [← BitVec.extractLsb'_append_extractLsb'_eq_extractLsb' (x := x) (start₂ := start + m) rfl]
  refine ⟨fun h => ?_, fun ⟨hhi, hlo⟩ => by rw [hhi, hlo]⟩
  have hhi := congrArg (BitVec.extractLsb' m n) h
  have hlo := congrArg (BitVec.extractLsb' 0 m) h
  rw [BitVec.extractLsb'_append_eq_left, BitVec.extractLsb'_append_eq_left] at hhi
  rw [BitVec.extractLsb'_append_eq_right, BitVec.extractLsb'_append_eq_right] at hlo
  exact ⟨hhi, hlo⟩

/-- The layout of format R (R94). -/
theorem formatR_eq_iff (w : Word) (ch : BitVec 3) (n : BitVec 9) :
    w.extractLsb' 0 24 = ch ++ n ++ 0#12 ↔ (fieldCh w = ch ∧ fieldN w = n) ∧ w.extractLsb' 0 12 = 0#12 := by
  rw [extractLsb'_eq_append_iff 0 12 12, extractLsb'_eq_append_iff 12 3 9]
  rfl

/-- The operand bits of a word are a command's just if the word's fields are the command's and its reserved bits are 0: field by field,
each ends where the next begins (R92 to R96). -/
theorem operandBits_eq_iff (w : Word) (i : Instr) : w.extractLsb' 0 24 = operandBits i ↔
    assemble (opcodeOf i) w = i ∧ w.extractLsb' 0 (reservedBits (formatOf (opcodeOf i))) = 0#_ := by
  cases i with
  | qcoef ch k bap exp =>
    rw [operandBits, extractLsb'_eq_append_iff 0 20 4, extractLsb'_eq_append_iff 4 15 5, extractLsb'_eq_append_iff 9 11 4,
      extractLsb'_eq_append_iff 13 3 8]
    refine and_congr_left' ?_
    rw [and_assoc, and_assoc]
    exact (Instr.qcoef.injEq ..).symm.to_iff
  | qrun ch n => exact (formatR_eq_iff w ch n).trans (and_congr_left' (Instr.qrun.injEq ..).symm.to_iff)
  | mpack ch n => exact (formatR_eq_iff w ch n).trans (and_congr_left' (Instr.mpack.injEq ..).symm.to_iff)
  | tdpush ch =>
    rw [operandBits, extractLsb'_eq_append_iff 0 3 21]
    exact and_congr_left' (Instr.tdpush.injEq ..).symm.to_iff
  | putbits width =>
    rw [operandBits, extractLsb'_eq_append_iff 0 6 18]
    exact and_congr_left' (Instr.putbits.injEq ..).symm.to_iff
  | _ => exact (and_iff_right rfl).symm

/-- A word is a command's encoding just if it has its op byte, no reserved bit set, and its fields (R91 to R96). -/
theorem encode_eq_iff {w : Word} {i : Instr} : encode i = w ↔
    fieldOp w = opByte (opcodeOf i) ∧ w &&& reservedMask (formatOf (opcodeOf i)) = 0#32 ∧ assemble (opcodeOf i) w = i := by
  rw [and_reservedMask_eq_zero_iff, and_comm (b := assemble _ _ = _), ← operandBits_eq_iff]
  calc encode i = w ↔ w.extractLsb' 0 32 = opByte (opcodeOf i) ++ operandBits i := by
        rw [BitVec.extractLsb'_eq_self, eq_comm]; rfl
    _ ↔ _ := extractLsb'_eq_append_iff 0 8 24

/-! ### The two round trips -/

/-- Decode and encode agree: the words that decode are the encodings of the well-formed commands (R98 to R103). -/
theorem decode_eq_ok_iff_encode {w : Word} {i : Instr} : decode w = .ok i ↔ i.wf = true ∧ encode i = w := by
  rw [decode_eq_ok_iff, encode_eq_iff]
  tauto

/-- Settles O1: the word in question is the command's encoding. -/
theorem encodeThenDecode : Obligations.EncodeThenDecode := fun _ hwf => decode_eq_ok_iff_encode.2 ⟨hwf, rfl⟩

/-- Settles O2: a word passes the checks only if its fields and zeros, put together again, are the whole word. -/
theorem decodedWordIsItsEncoding : Obligations.DecodedWordIsItsEncoding := fun _ _ => decode_eq_ok_iff_encode.1

/-- Settles O3: each word is the encoding of its command, laid out by the format table. -/
theorem specExampleWordsDecode : Obligations.SpecExampleWordsDecode := by
  simp only [Obligations.SpecExampleWordsDecode, decode_eq_ok_iff_encode]
  decide

/-! ### A word written to CMD -/

/-- A 32-bit write of CMD while the engine is idle is the acceptance of its word (R74, R213). -/
theorem step_writeCmd {s : State} {w : Word} {rest : List Input} (hr : s.rst = false) (hb : s.busy = false)
    (hin : s.inputs = .write .b32 0x000C#16 w :: rest) :
    step s = .next ((({ s with inputs := rest } : State).accept w).respond (.write false)) := by
  have hidle : ({ s with inputs := rest } : State).writeCmd w = ({ s with inputs := rest } : State).accept w :=
    if_neg (by simp [hb])
  rw [← hidle]
  exact step_writeReg (r := .cmd) hr (.inr rfl) hin

/-- Settles O5: acceptance, by what decode answers. -/
theorem commandWriteIsAcceptance : Obligations.CommandWriteIsAcceptance := by
  intro s w rest hr hb hin
  obtain ⟨legal, illegal⟩ := accept_cases { s with inputs := rest } w
  rw [step_writeCmd hr hb hin]
  refine ⟨fun i hi => ?_, fun e he => ?_⟩
  · rw [legal i hi]
    rfl
  · rw [illegal e he]
    cases e <;> rfl

end Sys2Proof.Proofs

/-!
PROOFS. The transient detector (40_transient.md): the peaks, what DETECT depends on, which comparison decides it, and the completion of
TDRUN, of TDPUSH on a window with a NaN, and of TDCLR.
-/
namespace Sys2Proof.Proofs

open Sys2Proof Sys2Proof.Machine

/-! ### Peaks -/

/-- Settles O47: a peak is the running maximum of the magnitudes, from +0.0 on. -/
theorem peakIsLargestMagnitude : Obligations.PeakIsLargestMagnitude := by
  intro w a n hn
  have hseg : ∀ x ∈ (w.drop a).take n, isNan x = false := fun x hx => hn x (List.mem_of_mem_drop (List.mem_of_mem_take hx))
  obtain ⟨-, bound, attained⟩ := peakOf_spec ((w.drop a).take n) 0#32 (by decide) isNan_zero hseg
  exact ⟨bound, attained⟩

/-- A peak depends on the samples from its segment's start on alone (R111). -/
theorem peak_congr_of_drop {w w' : List Word} {k a : Nat} (h : w.drop k = w'.drop k) (hka : k ≤ a) (n : Nat) :
    peak w a n = peak w' a n := by
  have hdrop : w.drop a = w'.drop a := by
    rw [← Nat.add_sub_cancel' hka, ← List.drop_drop, h, List.drop_drop]
  rw [peak, hdrop, peak]

/-! ### What DETECT depends on -/

/-- DETECT looks at the peaks of both halves, of quarters 1 to 3 and of eighths 3 to 7 (R112 to R114). -/
theorem detect_congr {w w' : List Word} (half0 : peak w 0 256 = peak w' 0 256)
    (half1 : peak w 256 256 = peak w' 256 256) (quarters : ∀ i, 1 ≤ i → segPeak w 128 i = segPeak w' 128 i)
    (eighths : ∀ i, 3 ≤ i → segPeak w 64 i = segPeak w' 64 i) :
    detect w = detect w' := by
  have rises2 : firstRise w 128 Config.tdT2 [2, 3] = firstRise w' 128 Config.tdT2 [2, 3] :=
    firstRise_congr fun i hi => by
      have hge : 2 ≤ i := by revert i; decide
      exact ⟨quarters i (by omega), quarters (i - 1) (by omega)⟩
  have rises3 : firstRise w 64 Config.tdT3 [4, 5, 6, 7] = firstRise w' 64 Config.tdT3 [4, 5, 6, 7] :=
    firstRise_congr fun i hi => by
      have hge : 4 ≤ i := by revert i; decide
      exact ⟨eighths i (by omega), eighths (i - 1) (by omega)⟩
  rw [detect_eq, detect_eq, half0, half1, rises2, rises3]

/-- Settles O48: every peak is one of magnitudes. -/
theorem detectIgnoresSigns : Obligations.DetectIgnoresSigns := fun _ _ h =>
  detect_congr (peak_congr h _ _) (peak_congr h _ _) (fun _ _ => peak_congr h _ _) (fun _ _ => peak_congr h _ _)

/-- Samples 0 to 191 count through the peaks of half 0 and quarter 1 alone: quarter 2 starts at 256, eighth 3 at 192 (R124). -/
theorem detect_congr_of_drop {w w' : List Word} (h : w.drop 192 = w'.drop 192) (half0 : peak w 0 256 = peak w' 0 256)
    (quarter1 : peak w 128 128 = peak w' 128 128) : detect w = detect w' := by
  refine detect_congr half0 (peak_congr_of_drop h (by omega) 256) (fun i hi => ?_) (fun i hi => peak_congr_of_drop h (by omega) 64)
  rcases Nat.eq_or_lt_of_le hi with rfl | hgt
  · exact quarter1
  · exact peak_congr_of_drop h (by omega) 128

/-- Settles O49: windows equal from sample 128 on are equal from 192 on and have the same quarter 1. -/
theorem detectSeesEarlySamplesOnlyInPeaks : Obligations.DetectSeesEarlySamplesOnlyInPeaks := by
  refine ⟨fun w w' h half0 => ?_, fun w w' h half0 quarter1 => detect_congr_of_drop h half0 quarter1⟩
  have hlate : w.drop 192 = w'.drop 192 := by
    rw [show 192 = 128 + 64 from rfl, ← List.drop_drop, h, List.drop_drop]
  exact detect_congr_of_drop hlate half0 (peak_congr_of_drop h (le_refl 128) 128)

/-! ### The comparison that decides -/

/-- No segment that rises, no first rise (R113, R114). -/
theorem firstRise_eq_none {w : List Word} {n : Nat} {t : Word} {is : List Nat}
    (h : ∀ i ∈ is, productExceeds (segPeak w n i) t (segPeak w n (i - 1)) = false) : firstRise w n t is = none := by
  rcases firstRise_cases w n t is with ⟨hnone, -⟩ | ⟨l, i, r, rfl, -, hi, -⟩
  · exact hnone
  · exact absurd hi (by simp [h i (by simp)])

/-- The first rise of segments listed in order is the lowest that rises (R113, R114). -/
theorem firstRise_eq_some {w : List Word} {n : Nat} {t : Word} {is : List Nat} (hsorted : is.Pairwise (· < ·)) {i : Nat} (hi : i ∈ is)
    (hrise : productExceeds (segPeak w n i) t (segPeak w n (i - 1)) = true)
    (low : ∀ j ∈ is, j < i → productExceeds (segPeak w n j) t (segPeak w n (j - 1)) = false) :
    firstRise w n t is = some i := by
  induction is with
  | nil => cases hi
  | cons k is ih =>
    obtain ⟨hk, hsorted⟩ := List.pairwise_cons.1 hsorted
    rw [firstRise]
    rcases List.mem_cons.1 hi with rfl | hi
    · rw [hrise, if_pos rfl]
    · rw [low k List.mem_cons_self (hk i hi), if_neg Bool.false_ne_true]
      exact ih hsorted hi fun j hj => low j (List.mem_cons_of_mem k hj)

section
variable {w : List Word}

/-- A half below the floor makes the window silent (R112). -/
theorem detect_of_silence (h : ltF (peak w 0 256) Config.tdFloor = true ∨ ltF (peak w 256 256) Config.tdFloor = true) :
    detect w = ⟨false, 4#3, 0#4⟩ := by
  rw [detect_eq, if_pos (Bool.or_eq_true_iff.2 h)]

variable (loud0 : ltF (peak w 0 256) Config.tdFloor = false) (loud1 : ltF (peak w 256 256) Config.tdFloor = false)
include loud0 loud1

/-- Level 1: the second half rises over the first (R112). -/
theorem detect_of_rise1 (h : productExceeds (peak w 256 256) Config.tdT1 (peak w 0 256) = true) : detect w = ⟨true, 1#3, 1#4⟩ := by
  rw [detect_eq, loud0, loud1, h]
  rfl

variable (flat1 : productExceeds (peak w 256 256) Config.tdT1 (peak w 0 256) = false)
include flat1

/-- Level 2: a quarter rises (R113). -/
theorem detect_of_rise2 {i : Nat} (h : firstRise w 128 Config.tdT2 [2, 3] = some i) :
    detect w = ⟨true, 2#3, BitVec.ofNat 4 i⟩ := by
  rw [detect_eq, loud0, loud1, flat1, h]
  rfl

variable (flat2 : firstRise w 128 Config.tdT2 [2, 3] = none)
include flat2

/-- Level 3: an eighth rises (R114). -/
theorem detect_of_rise3 {i : Nat} (h : firstRise w 64 Config.tdT3 [4, 5, 6, 7] = some i) :
    detect w = ⟨true, 3#3, BitVec.ofNat 4 i⟩ := by
  rw [detect_eq, loud0, loud1, flat1, flat2, h]
  rfl

/-- No comparison fires: no transient (R115). -/
theorem detect_of_flat (h : firstRise w 64 Config.tdT3 [4, 5, 6, 7] = none) : detect w = ⟨false, 0#3, 0#4⟩ := by
  rw [detect_eq, loud0, loud1, flat1, flat2, h]
  rfl

end

/-! ### TDRUN -/

/-- TDRUN on a window without a NaN (R117). -/
theorem tdrunBody_of_noNan {s : State} (h : ∀ x ∈ s.tdwin, isNan x = false) :
    tdrunBody s = .ok { s with tdstat := (detect s.tdwin).stat 0#3 false } := by
  rw [tdrunBody, (firstNan_eq_none 0 _).2 h]

/-- The TDSTAT of a rise of level 2, in R40's layout: RES, CODE 2, and the quarter as IDX. -/
theorem stat_rise2 : ∀ i ∈ [2, 3], Detection.stat ⟨true, 2#3, BitVec.ofNat 4 i⟩ 0#3 false = BitVec.ofNat 12 (1 + 2 * 2 + 16 * i) := by
  decide

/-- The TDSTAT of a rise of level 3, in R40's layout: RES, CODE 3, and the eighth as IDX. -/
theorem stat_rise3 : ∀ i ∈ [4, 5, 6, 7],
    Detection.stat ⟨true, 3#3, BitVec.ofNat 4 i⟩ 0#3 false = BitVec.ofNat 12 (1 + 2 * 3 + 16 * i) := by decide

/-- Settles O50: TDSTAT is that of the detection, and DETECT goes through the comparisons in the statement's order. -/
theorem tdrunReportsFirstRise : Obligations.TdrunReportsFirstRise := by
  refine ⟨decode_eq_ok_iff_encode.2 ⟨rfl, rfl⟩, fun s w hw hn => ⟨(detect w).stat 0#3 false, ?completes, fun hs => ?silent,
    fun loud0 loud1 => ⟨fun rise => ?level1, fun flat1 => ⟨fun i hi rise low => ?level2, fun flat2 => ?later⟩⟩⟩⟩
  case completes =>
    subst hw
    have hexec : exec .tdrun s = (tdrunBody s).outcome := rfl
    rw [hexec, tdrunBody_of_noNan hn, outcome_ok]
  case silent => rw [detect_of_silence hs]; rfl
  case level1 => rw [detect_of_rise1 loud0 loud1 rise]; rfl
  case level2 =>
    rw [detect_of_rise2 loud0 loud1 flat1 (firstRise_eq_some (by decide) hi rise low)]
    exact stat_rise2 i hi
  case later =>
    have hnone : firstRise w 128 Config.tdT2 [2, 3] = none := firstRise_eq_none flat2
    refine ⟨fun i hi rise low => ?level3, fun flat3 => ?flat⟩
    case level3 =>
      rw [detect_of_rise3 loud0 loud1 flat1 hnone (firstRise_eq_some (by decide) hi rise low)]
      exact stat_rise3 i hi
    case flat =>
      rw [detect_of_flat loud0 loud1 flat1 hnone (firstRise_eq_none flat3)]
      rfl

/-! ### A NaN in the window -/

/-- TDNAN's information word as a number (R207). -/
theorem nanInfo_eq {j : Nat} (hj : j < 512) (ch : BitVec 3) (push : Bool) :
    nanInfo j ch push = BitVec.ofNat 32 (j + ch.toNat * 2 ^ 12 + push.toNat * 2 ^ 15) := by
  have hch : ch.toNat < 8 := ch.isLt
  have hpush : push.toNat ≤ 1 := push.toNat_le
  apply BitVec.eq_of_toNat_eq
  simp only [nanInfo, toNat_append_add, BitVec.toNat_ofNat, BitVec.toNat_ofBool]
  omega

/-- TDRUN's window has TD_WIN samples (R11, R57). -/
theorem tdwin_length (s : State) : s.tdwin.length = 512 := readWords_length s tdwinBase 512

/-- So has TDPUSH's: a tail and the new samples (R118). -/
theorem pushWindow_length (s : State) (ch : BitVec 3) : (pushWindow s ch).length = 512 := by
  have htail : (s.tail ch).length = 256 := readWords_length s (tailAddr ch) 256
  have hnew : s.tdnew.length = 256 := readWords_length s tdnewBase 256
  rw [pushWindow, List.length_append, htail, hnew]

/-- TDRUN on a window with a NaN (R116, R117). -/
theorem tdrunBody_of_nan {s : State} {j : Nat} (h : firstNan 0 s.tdwin = some j) :
    tdrunBody s = .fail s .tdNan (nanInfo j 0#3 false) := by
  rw [tdrunBody, h]

/-- TDPUSH with block switching on, on a window with a NaN (R116, R118). -/
theorem tdpushBody_of_nan {s : State} {ch : BitVec 3} (hon : s.bswenSampled = true) {j : Nat} (h : firstNan 0 (pushWindow s ch) = some j) :
    tdpushBody ch s = .fail s .tdNan (nanInfo j ch true) := by
  rw [tdpushBody, if_pos hon, h]

/-- Settles O52: the NaN check finds the lowest index, below 512, and nothing has been written when it does. -/
theorem nanInWindowRaisesTdnan : Obligations.NanInWindowRaisesTdnan := by
  refine ⟨fun s j x hj hx low => ?tdrun, fun s ch j x _ hon hj hx low => ?tdpush⟩
  case tdrun =>
    have hlt : j < 512 := tdwin_length s ▸ (List.getElem?_eq_some_iff.1 hj).1
    have hfirst : firstNan 0 s.tdwin = some j := by rw [firstNan_eq_some hj hx low 0, Nat.zero_add]
    have hexec : exec .tdrun s = (tdrunBody s).outcome := rfl
    rw [hexec, tdrunBody_of_nan hfirst, outcome_fail, nanInfo_eq hlt]
    rfl
  case tdpush =>
    have hlt : j < 512 := pushWindow_length s ch ▸ (List.getElem?_eq_some_iff.1 hj).1
    have hfirst : firstNan 0 (pushWindow s ch) = some j := by
      rw [pushWindow, firstNan_eq_some hj hx low 0, Nat.zero_add]
    have hexec : exec (.tdpush ch) s = (tdpushBody ch s).outcome := rfl
    rw [hexec, tdpushBody_of_nan hon hfirst, outcome_fail, nanInfo_eq hlt]
    rfl

/-! ### TDCLR -/

/-- Settles O53: TDCLR unlists the bytes of TDTAIL, whose unlisted contents are 0. -/
theorem tdclrZeroesTails : Obligations.TdclrZeroesTails := by
  refine ⟨decode_eq_ok_iff_encode.2 ⟨rfl, rfl⟩, fun s => ⟨_, outcome_ok s.clearTails, fun a ha => ?zero, fun a ha => ?kept, rfl⟩⟩
  case zero => exact readByte_clearTails_of_tail ha s
  case kept => exact readByte_clearTails_of_other ha s

end Sys2Proof.Proofs

/-!
PROOFS. The quantizer (41_quantizer.md): the arithmetic of the symmetric and the asymmetric code, QCOEF class kind by class kind, the
field of a complete group, and QRUN as a chain of elements.
-/
namespace Sys2Proof.Proofs

open Sys2Proof Sys2Proof.Machine

/-! ### The symmetric code -/

/-- The level counts of R131 are odd. -/
theorem levels_mem_odd {L : Nat} (hL : L ∈ [3, 5, 7, 11, 15]) : L % 2 = 1 := by
  revert L
  decide

/-- R133's formula, the middle level written as (L - 1) / 2. -/
theorem symq_eq_shifts (c : Int) (e : Nat) {L : Nat} (hL : L % 2 = 1) :
    symq c e L = (((((L : Int) * c) >>> (24 - e)) + 1) >>> (1 : Nat)) + ((L : Int) - 1) / 2 := by
  have middle : ((L / 2 : Nat) : Int) = ((L : Int) - 1) / 2 := by omega
  rw [symq, middle]
  rfl

/-- A code between 0 and L - 1 is in range (R135). -/
theorem symqInRange_of_code {c : Int} {e L q : Nat} (h : symq c e L = (q : Int)) (hq : q < L) : symqInRange (symq c e L) L = true := by
  rw [h, symqInRange, decide_eq_true_eq]
  omega

/-- Settles O35: the range condition of every odd level count, at the five counts of R131. -/
theorem symqInRangeExactly : Obligations.SymqInRangeExactly := by
  intro c e L he hL
  rw [← symqInRange_iff c he (levels_mem_odd hL), symqInRange, decide_eq_true_eq]

/-- Settles O36: SYMQ counted from the middle is floor((x + 1) / 2) with x the floor of L * c * 2^e / 2^24. -/
theorem symqRoundsToNearestLevel : Obligations.SymqRoundsToNearestLevel := by
  refine ⟨fun c e L q he hL hq => ?_, fun c hlo hhi => ?_⟩
  · have hodd := levels_mem_odd hL
    rw [symq_eq c L he] at hq
    generalize (L : Int) * c * 2 ^ e = x at hq ⊢
    omega
  · rw [symq_eq c 3 (Nat.zero_le 24)]
    omega

/-! ### The asymmetric code -/

/-- The scaled coefficient, both shifts counted in natural numbers (R136). -/
theorem asymqScaled_eq (c : Int) (e b : Nat) :
    asymqScaled c e b = if 25 ≤ e + b then c * 2 ^ (e + b - 25) else c >>> (25 - (e + b)) := by
  have shift : asymqShift e b = (e + b : Int) - 25 := by
    simp only [asymqShift, Config.fixFrac]
    omega
  have left_iff : 0 ≤ asymqShift e b ↔ 25 ≤ e + b := by omega
  have left : (asymqShift e b).toNat = e + b - 25 := by omega
  have right : (-asymqShift e b).toNat = 25 - (e + b) := by omega
  simp only [asymqScaled, left_iff, left, right]

/-- The clipped code, case by case: the largest, the least, and the two's complement of what needs no clip (R136). -/
theorem asymq_eq (c : Int) (e : Nat) {b : Nat} (hb : 0 < b) :
    (asymq c e b : Int) = if 2 ^ (b - 1) ≤ asymqScaled c e b then 2 ^ (b - 1) - 1
      else if asymqScaled c e b < -(2 ^ (b - 1)) then 2 ^ (b - 1) else asymqScaled c e b % 2 ^ b := by
  obtain ⟨b, rfl⟩ : ∃ b', b = b' + 1 := ⟨b - 1, by omega⟩
  rw [asymq, Nat.add_sub_cancel, Int.pow_succ]
  generalize asymqScaled c e (b + 1) = v
  have hP : (0 : Int) < 2 ^ b := by positivity
  generalize (2 : Int) ^ b = P at hP ⊢
  rw [Int.toNat_of_nonneg (Int.emod_nonneg _ (by omega))]
  split
  · rw [show clip v (-P) (P - 1) = P - 1 by simp only [clip]; omega, Int.emod_eq_of_lt (by omega) (by omega)]
  · split
    · rw [show clip v (-P) (P - 1) = P - P * 2 by simp only [clip]; omega, Int.sub_emod_right, Int.emod_eq_of_lt (by omega) (by omega)]
    · rw [show clip v (-P) (P - 1) = v by simp only [clip]; omega]

/-- A code has b bits (R136). -/
theorem asymq_lt (c : Int) (e b : Nat) : asymq c e b < 2 ^ b := by
  have h : (0 : Int) < 2 ^ b := by positivity
  have hlt : clip (asymqScaled c e b) (-(2 ^ (b - 1))) (2 ^ (b - 1) - 1) % 2 ^ b < 2 ^ b := Int.emod_lt_of_pos _ h
  have hcast : ((2 ^ b : Nat) : Int) = 2 ^ b := by norm_cast
  rw [asymq]
  omega

/-! ### Slots by number, and slot words -/

/-- The slot of coefficient k of a channel, as the statements count it (R16). -/
theorem slotIndex_eq (ch : BitVec 3) (k : Nat) : slotIndex ch k = 256 * ch.toNat + k := by
  rw [slotIndex, Nat.mul_comm]
  rfl

theorem slotIndex_lt_of_ch {ch : BitVec 3} {k : Nat} (hch : ch.toNat < 6) (hk : k < 256) : slotIndex ch k < 1536 :=
  slotIndex_lt_of_chOk ((chOk_iff ch).2 hch) hk

/-- Different coefficients of a channel have different slots. -/
theorem slotIndex_inj {ch : BitVec 3} {j k : Nat} : slotIndex ch j = slotIndex ch k ↔ j = k := by
  simp only [slotIndex_eq]
  omega

/-- Different coefficients have different slots, across channels too. -/
theorem slotIndex_ne {ch ch' : BitVec 3} {k k' : BitVec 8} (h : (ch, k) ≠ (ch', k')) : slotIndex ch k.toNat ≠ slotIndex ch' k'.toNat := by
  intro heq
  simp only [slotIndex_eq] at heq
  have hk := k.isLt
  have hk' := k'.isLt
  exact h (Prod.ext (BitVec.eq_of_toNat_eq (by dsimp only; omega)) (BitVec.eq_of_toNat_eq (by dsimp only; omega)))

/-- The word of a slot that is no placeholder, as a sum (R56). -/
theorem toWord_code {q : Nat} (hq : q < 2 ^ 16) (bap : BitVec 4) :
    Slot.toWord { val := BitVec.ofNat 16 q, ph := false, bap := bap } = BitVec.ofNat 32 (q + bap.toNat * 2 ^ 20) := by
  apply BitVec.eq_of_toNat_eq
  have := bap.isLt
  simp only [Slot.toWord, toNat_append_add, BitVec.toNat_ofNat, BitVec.toNat_ofBool, Bool.toNat_false]
  omega

/-! ### One QCOEF -/

/-- QCOEF of an element that raises no error: the element's effect, then completion (R144, R214). -/
theorem exec_qcoef_of_ok {s u : State} {ch : BitVec 3} {k : BitVec 8} {bap : BitVec 4} {exp : BitVec 5}
    (h : qelem s (slotIndex ch k.toNat) s.qin.toInt exp.toNat bap = .ok u) :
    exec (.qcoef ch k bap exp) s = .next { u with done := true, busy := false } := by
  change (qelem s (slotIndex ch k.toNat) s.qin.toInt exp.toNat bap).outcome = _
  rw [h, outcome_ok]

/-- QCOEF of an element that raises an error before it writes anything (R146, R210). -/
theorem exec_qcoef_of_fail {s : State} {ch : BitVec 3} {k : BitVec 8} {bap : BitVec 4} {exp : BitVec 5} {c : ErrCode} {info : Word}
    (h : qelem s (slotIndex ch k.toNat) s.qin.toInt exp.toNat bap = .fail s c info) :
    exec (.qcoef ch k bap exp) s = .next { s.raise c info with done := true, busy := false } := by
  change (qelem s (slotIndex ch k.toNat) s.qin.toInt exp.toNat bap).outcome = _
  rw [h, outcome_fail]

/-- Settles O28: QBLK's rule is this assignment. -/
theorem qblkClosesAllGroups : Obligations.QblkClosesAllGroups := ⟨by decide, fun _ => rfl⟩

/-- Settles O34: an element checks the exponent, then the range, before it writes. -/
theorem qcoefErrorsWriteNothing : Obligations.QcoefErrorsWriteNothing := by
  intro s ch k bap exp info hch hbap hinfo
  have hi : slotIndex ch k.toNat < 1536 := slotIndex_lt_of_ch hch k.isLt
  have hexp := exp.isLt
  have hword : elemInfo (slotIndex ch k.toNat) bap exp.toNat = info := by
    rw [elemInfo_eq (by omega) (by omega), slotIndex_eq, hinfo]
  exact ⟨fun he => exec_qcoef_of_fail (hword ▸ qelem_badExp hbap he),
    fun he h5 hr => exec_qcoef_of_fail (hword ▸ qelem_qRange hbap h5 he hr)⟩

/-! ### Classes in no group -/

/-- What an element of a class in no group writes into its slot: 0, the symmetric or the asymmetric code (R132, R133, R136). -/
def plainSlot (c : Int) (e : Nat) (bap : BitVec 4) : Slot where
  val := match classKind bap with
    | .zero | .grouped _ => 0#16
    | .symmetric => BitVec.ofNat 16 (symq c e (Config.levels bap.toNat)).toNat
    | .asymmetric => BitVec.ofNat 16 (asymq c e (Config.qbits bap.toNat))
  ph := false
  bap := bap

theorem classKind_asymmetric {bap : BitVec 4} (h : 6 ≤ bap.toNat) : classKind bap = .asymmetric := by
  revert bap
  decide

/-- The code bits of an asymmetric class (R131). -/
theorem qbits_spec {bap : BitVec 4} (h : 6 ≤ bap.toNat) :
    Config.qbits bap.toNat = (if bap = 15#4 then 16 else if bap = 14#4 then 14 else bap.toNat - 1) ∧
      0 < Config.qbits bap.toNat ∧ Config.qbits bap.toNat ≤ 16 := by
  revert bap
  decide

/-- A legal element of class 3 or 5 has its code in range (R135). -/
theorem symqInRange_of_legal {c : Int} {e : Nat} {bap : BitVec 4} (hk : classKind bap = .symmetric) (legal : elementLegal c e bap) :
    e ≤ 24 ∧ symqInRange (symq c e (Config.levels bap.toNat)) (Config.levels bap.toNat) = true ∧ Config.levels bap.toNat ≤ 15 := by
  have class_spec : ∀ b : BitVec 4, classKind b = .symmetric →
      b ≠ 0#4 ∧ b.toNat < 6 ∧ Config.levels b.toNat % 2 = 1 ∧ Config.levels b.toNat ≤ 15 := by decide
  obtain ⟨h0, h6, hodd, hle⟩ := class_spec bap hk
  obtain ⟨he, hrange⟩ := legal.resolve_left h0
  exact ⟨he, (symqInRange_iff c he hodd).2 (hrange.resolve_left (Nat.not_le.2 h6)), hle⟩

/-- A legal element of a class in no group writes its own slot and QOUT (R144). -/
theorem qelem_plain {s : State} {i : Nat} {c : Int} {e : Nat} {bap : BitVec 4} (hg : ∀ g, classKind bap ≠ .grouped g)
    (legal : elementLegal c e bap) : qelem s i c e bap = .ok (latchQout (s.setSlot i (plainSlot c e bap)) i) := by
  cases hk : classKind bap with
  | zero =>
    obtain rfl := classKind_eq_zero hk
    exact qelem_zero s i c e
  | grouped g => exact absurd hk (hg g)
  | symmetric =>
    obtain ⟨he, hin, -⟩ := symqInRange_of_legal hk legal
    simp only [qelem_symmetric hk he hin, plainSlot, hk]
  | asymmetric =>
    have he : e ≤ 24 := (legal.resolve_left (by rintro rfl; cases hk)).1
    simp only [qelem_asymmetric hk he, plainSlot, hk]

/-- QCOEF of a legal element in no group: its slot, QOUT, and nothing else (R144). -/
theorem exec_qcoef_plain (s : State) {ch : BitVec 3} (k : BitVec 8) {bap : BitVec 4} {exp : BitVec 5} {x : Slot} (hch : ch.toNat < 6)
    (hg : ∀ g, classKind bap ≠ .grouped g) (legal : elementLegal s.qin.toInt exp.toNat bap)
    (hx : plainSlot s.qin.toInt exp.toNat bap = x) :
    ∃ t : State, exec (.qcoef ch k bap exp) s = .next t ∧ t.slot (256 * ch.toNat + k.toNat) = x ∧
      bytesKept (slotByte (256 * ch.toNat + k.toNat)) s t ∧
      { t with mem := s.mem } = { s with qout := x.toWord, busy := false, done := true } := by
  rw [← slotIndex_eq, ← hx]
  generalize hy : plainSlot s.qin.toInt exp.toNat bap = y
  have hslot : (s.setSlot (slotIndex ch k.toNat) y).slot (slotIndex ch k.toNat) = y :=
    slot_setSlot_self (slotIndex_lt_of_ch hch k.isLt) s y
  refine ⟨_, exec_qcoef_of_ok (qelem_plain hg legal), ?_, fun a ha => ?_, ?_⟩
  · rw [hy]; exact hslot
  · exact readByte_setSlot_of_outside ha s _
  · rw [hy, latchQout, hslot]; rfl

/-- Settles O29: class 0 is legal with any operands. -/
theorem qcoefClassZeroWritesZeroSlot : Obligations.QcoefClassZeroWritesZeroSlot := by
  intro s ch k exp hch
  exact exec_qcoef_plain s k hch (fun _ => ClassKind.noConfusion) (.inl rfl) rfl

/-- Settles O30: the code is SYMQ, in range by hypothesis. -/
theorem qcoefSymmetricWritesItsCode : Obligations.QcoefSymmetricWritesItsCode := by
  intro s ch k bap exp L q hch hexp hbap hqL hq
  have hL : L % 2 = 1 ∧ L ≤ 15 := by omega
  have hcode : symq s.qin.toInt exp.toNat L = (q : Int) := by rw [symq_eq_shifts _ _ hL.1, hq]
  have hrange := (symqInRange_iff _ hexp hL.1).1 (symqInRange_of_code hcode (by omega))
  have hclass : classKind bap = .symmetric ∧ Config.levels bap.toNat = L := by
    rcases hbap with ⟨rfl, rfl⟩ | ⟨rfl, rfl⟩ <;> exact ⟨rfl, rfl⟩
  have hx : plainSlot s.qin.toInt exp.toNat bap = { val := BitVec.ofNat 16 q, ph := false, bap := bap } := by
    simp [plainSlot, hclass.1, hclass.2, hcode]
  obtain ⟨t, hexec, hslot, hbytes, hregs⟩ := exec_qcoef_plain s k hch (by simp [hclass.1]) (.inr ⟨hexp, .inr hrange⟩) hx
  exact ⟨t, hexec, hslot, hbytes, by rw [hregs, toWord_code (by omega)]⟩

/-- Settles O31: the clip leaves the b-bit code that the statement writes out. -/
theorem qcoefAsymmetricWritesClippedCode : Obligations.QcoefAsymmetricWritesClippedCode := by
  intro s ch k bap exp b v q hch hexp h6 hb hv hq
  obtain ⟨hbits, hpos, -⟩ := qbits_spec h6
  rw [← hbits] at hb
  subst hb
  have hcode : (asymq s.qin.toInt exp.toNat (Config.qbits bap.toNat) : Int) = q := by rw [asymq_eq _ _ hpos, asymqScaled_eq, ← hv, hq]
  have hx : plainSlot s.qin.toInt exp.toNat bap = { val := BitVec.ofInt 16 q, ph := false, bap := bap } := by
    simp only [plainSlot, classKind_asymmetric h6, ← hcode, BitVec.ofInt_natCast]
  obtain ⟨t, hexec, hslot, hbytes, hregs⟩ := exec_qcoef_plain s k hch (by simp [classKind_asymmetric h6]) (.inr ⟨hexp, .inl h6⟩) hx
  exact ⟨t, hexec, hslot, hbytes, by rw [hregs, hslot]⟩


/-! ### Grouped classes -/

/-- The registers after a group element: the counter advances, and an opening member becomes the head (R138). -/
theorem groupElem_regs (s : State) (g : Grp) (i q : Nat) :
    { groupElem s g i q with mem := s.mem } =
      (if s.cnt g = 0 then s.setHead g i else s).setCnt g ((s.cnt g + 1) % g.size) := by
  rw [groupElem, groupSlots_frame]
  generalize (groupSlots s g i q).mem = m
  split <;> cases g <;> rfl

/-- QCOEF of a grouped class in range is a group element (R138, R144). -/
theorem exec_qcoef_grouped {s : State} {ch : BitVec 3} {k : BitVec 8} {g : Grp} {exp : BitVec 5} {q : Nat} (hexp : exp.toNat ≤ 24)
    (hq : q ≤ g.levels - 1) (hcode : symq s.qin.toInt exp.toNat g.levels = (q : Int)) :
    exec (.qcoef ch k (BitVec.ofNat 4 g.bap) exp) s = .next { latchQout (groupElem s g (slotIndex ch k.toNat) q) (slotIndex ch k.toNat)
      with done := true, busy := false } := by
  obtain ⟨hk, hL, -, -, hpos⟩ := g.bap_spec
  apply exec_qcoef_of_ok
  rw [qelem_grouped hk hexp (by rw [hL]; exact symqInRange_of_code hcode (by omega)), hL, hcode, Int.toNat_natCast]

/-- Completion and QOUT over a group element's registers. -/
theorem groupElem_completed_regs (s : State) (g : Grp) (i q : Nat) :
    { ({ latchQout (groupElem s g i q) i with done := true, busy := false } : State) with mem := s.mem } =
      { (if s.cnt g = 0 then s.setHead g i else s).setCnt g ((s.cnt g + 1) % g.size) with
        qout := ((groupElem s g i q).slot i).toWord, busy := false, done := true } := by
  rw [← groupElem_regs s g i q]
  rfl

/-- Settles O32: the group element of a closed group writes the slot, then the head and the counter. -/
theorem qcoefFirstMemberOpensGroup : Obligations.QcoefFirstMemberOpensGroup := by
  intro s ch k g exp q hch hexp h0 hq hcode
  rw [← slotIndex_eq]
  refine ⟨_, exec_qcoef_grouped hexp hq hcode, ?_, fun a ha => ?_, ?_⟩
  · refine (slot_groupElem_first q h0 (slotIndex_lt_of_ch hch k.isLt)).trans ?_
    rw [Nat.mul_comm]
    cases g <;> rfl
  · exact readByte_groupElem (s := s) ha (.inl h0)
  · rw [groupElem_completed_regs, if_pos h0, h0]
    cases g <;> rfl

/-- The word of a group's placeholder (R56, R141). -/
theorem toWord_placeholder (g : Grp) : Slot.toWord { val := 128#16, ph := true, bap := BitVec.ofNat 4 g.bap } =
    0x00010080#32 ||| BitVec.ofNat 32 (g.bap * 2 ^ 20) := by
  cases g <;> decide

/-- Settles O33: the group element of an open group adds into the head first, then writes the placeholder, then counts. -/
theorem qcoefLaterMemberAddsIntoHead : Obligations.QcoefLaterMemberAddsIntoHead := by
  intro s ch k g exp q hch hexp h0 hsize hhead hq hcode
  rw [← slotIndex_eq]
  have hne : s.cnt g ≠ 0 := by omega
  obtain ⟨hown, hadd⟩ := slot_groupElem_later (g := g) q hne (slotIndex_lt_of_ch hch k.isLt) hhead
  refine ⟨_, exec_qcoef_grouped hexp hq hcode, hown, hadd, fun a ha => ?_, ?_⟩
  · obtain ⟨hi, hh⟩ := Bool.or_eq_false_iff.1 ha
    exact readByte_groupElem (s := s) hi (.inr hh)
  · rw [groupElem_completed_regs, if_neg hne, hown, toWord_placeholder]
    cases g <;> rfl

/-! ### The field of a group -/

/-- A group of class `g` has `n` members (0 when it is complete), and its head slot `i` holds the field `f` (R138). -/
structure GroupHolds (s : State) (g : Grp) (n i f : Nat) : Prop where
  cnt : s.cnt g = n
  head : s.head g = i
  slot : s.slot i = { val := BitVec.ofNat 16 f, ph := false, bap := BitVec.ofNat 4 g.bap }

theorem cnt_groupElem (s : State) (g : Grp) (i q : Nat) : (groupElem s g i q).cnt g = (s.cnt g + 1) % g.size := by
  have h := congrArg (fun u => u.cnt g) (groupElem_regs s g i q)
  rw [cnt_setCnt_self _ _ (g.next_lt _)] at h
  rw [← h]
  cases g <;> rfl

theorem head_groupElem (s : State) (g : Grp) {i : Nat} (q : Nat) (hi : i < 1536) :
    (groupElem s g i q).head g = if s.cnt g = 0 then i else s.head g := by
  have h := congrArg (fun u => u.head g) (groupElem_regs s g i q)
  rw [head_setCnt, apply_ite (fun u : State => u.head g), head_setHead_self _ _ hi] at h
  rw [← h]
  cases g <;> rfl

/-- The first member: the field is its code times L^(N-1) (R139). -/
theorem groupHolds_first {s : State} {g : Grp} {i : Nat} (q : Nat) (h0 : s.cnt g = 0) (hi : i < 1536) :
    GroupHolds (groupElem s g i q) g 1 i (q * g.levels ^ (g.size - 1)) where
  cnt := by
    rw [cnt_groupElem, h0]
    cases g <;> rfl
  head := by rw [head_groupElem s g q hi, if_pos h0]
  slot := slot_groupElem_first q h0 hi

/-- A later member in another slot adds its code times L^(N-1-n) to the field of n members (R140). -/
theorem GroupHolds.later {s : State} {g : Grp} {n i f j : Nat} (h : GroupHolds s g n i f) (q : Nat) (hn : n ≠ 0) (hi : i < 1536)
    (hj : j < 1536) (hij : i ≠ j) : GroupHolds (groupElem s g j q) g ((n + 1) % g.size) i (f + q * g.levels ^ (g.size - 1 - n)) where
  cnt := by rw [cnt_groupElem, h.cnt]
  head := by rw [head_groupElem s g q hj, h.cnt, if_neg hn, h.head]
  slot := by
    have hhead := (slot_groupElem_later q (h.cnt ▸ hn) hj (h.head ▸ hi)).2 (h.head ▸ hij)
    rw [h.head, h.slot, h.cnt] at hhead
    rw [hhead, BitVec.ofNat_add]

/-- What holds of a group does not depend on QIN, which the host writes between commands (R36). -/
theorem GroupHolds.withQin {s : State} {g : Grp} {n i f : Nat} (h : GroupHolds s g n i f) (v : Word) :
    GroupHolds { s with qin := v } g n i f := by
  cases g <;> exact ⟨h.cnt, h.head, h.slot⟩

/-- The completion of QCOEF keeps what its group element left (R214). -/
theorem GroupHolds.of_exec {s t : State} {ch : BitVec 3} {k : BitVec 8} {g : Grp} {e : BitVec 5} {c : Word} {q n i f : Nat}
    (h : GroupHolds (groupElem { s with qin := c } g (slotIndex ch k.toNat) q) g n i f) (he : e.toNat ≤ 24) (hq : q < g.levels)
    (hcode : symq c.toInt e.toNat g.levels = (q : Int))
    (hexec : exec (.qcoef ch k (BitVec.ofNat 4 g.bap) e) { s with qin := c } = .next t) : GroupHolds t g n i f := by
  rw [exec_qcoef_grouped (s := { s with qin := c }) he (Nat.le_pred_of_lt hq) hcode] at hexec
  obtain rfl := Host.Outcome.next.inj hexec
  generalize groupElem { s with qin := c } g (slotIndex ch k.toNat) q = u at h
  cases g <;> exact ⟨h.cnt, h.head, h.slot⟩

/-- Two members of a group, whatever the host puts into QIN for each: the field has both codes (R138 to R140). -/
theorem groupHolds_two {s t₀ t₁ : State} {g : Grp} {ch₀ ch₁ : BitVec 3} {k₀ k₁ : BitVec 8} {e₀ e₁ : BitVec 5} {c₀ c₁ : Word}
    {q₀ q₁ : Nat} (h0 : s.cnt g = 0) (hch₀ : ch₀.toNat < 6) (hch₁ : ch₁.toNat < 6) (he₀ : e₀.toNat ≤ 24) (he₁ : e₁.toNat ≤ 24)
    (hne : (ch₀, k₀) ≠ (ch₁, k₁)) (hq₀ : q₀ < g.levels) (hq₁ : q₁ < g.levels)
    (hcode₀ : symq c₀.toInt e₀.toNat g.levels = (q₀ : Int)) (hcode₁ : symq c₁.toInt e₁.toNat g.levels = (q₁ : Int))
    (hexec₀ : exec (.qcoef ch₀ k₀ (BitVec.ofNat 4 g.bap) e₀) { s with qin := c₀ } = .next t₀)
    (hexec₁ : exec (.qcoef ch₁ k₁ (BitVec.ofNat 4 g.bap) e₁) { t₀ with qin := c₁ } = .next t₁) :
    GroupHolds t₁ g (2 % g.size) (slotIndex ch₀ k₀.toNat)
      (q₀ * g.levels ^ (g.size - 1) + q₁ * g.levels ^ (g.size - 1 - 1)) := by
  have hi₀ := slotIndex_lt_of_ch hch₀ k₀.isLt
  have hi₁ := slotIndex_lt_of_ch hch₁ k₁.isLt
  have closed : ({ s with qin := c₀ } : State).cnt g = 0 := by cases g <;> exact h0
  have one := (groupHolds_first q₀ closed hi₀).of_exec he₀ hq₀ hcode₀ hexec₀
  exact ((one.withQin c₁).later q₁ one_ne_zero hi₀ hi₁ (slotIndex_ne hne)).of_exec he₁ hq₁ hcode₁ hexec₁

/-- Settles O37: the field is q₀ * L^2 + q₁ * L + q₂, or q₀ * 11 + q₁, and its digits to the base L are the codes. -/
theorem groupFieldRoundTrip : Obligations.GroupFieldRoundTrip := by
  refine ⟨?_, ?_⟩
  · intro s t₀ t₁ t₂ g L ch₀ ch₁ ch₂ k₀ k₁ k₂ e₀ e₁ e₂ c₀ c₁ c₂ q₀ q₁ q₂ hg h0 hch₀ hch₁ hch₂ he₀ he₁ he₂ hne₁ hne₂ hq₀ hq₁ hq₂
      hcode₀ hcode₁ hcode₂ hexec₀ hexec₁ hexec₂
    obtain ⟨rfl, hsize, hL⟩ : L = g.levels ∧ g.size = 3 ∧ (g.levels = 3 ∨ g.levels = 5) := by
      rcases hg with ⟨rfl, rfl⟩ | ⟨rfl, rfl⟩ <;> decide
    have hi₀ := slotIndex_lt_of_ch hch₀ k₀.isLt
    have hi₂ := slotIndex_lt_of_ch hch₂ k₂.isLt
    have two := groupHolds_two h0 hch₀ hch₁ he₀ he₁ hne₁ hq₀ hq₁ hcode₀ hcode₁ hexec₀ hexec₁
    have three := ((two.withQin c₂).later q₂ (by rw [hsize]; decide) hi₀ hi₂ (slotIndex_ne hne₂)).of_exec he₂ hq₂ hcode₂ hexec₂
    have hfield : (t₂.slot (slotIndex ch₀ k₀.toNat)).val.toNat = q₀ * (g.levels * g.levels) + q₁ * g.levels + q₂ := by
      rw [three.slot, BitVec.toNat_ofNat, hsize]
      rcases hL with hL | hL <;> rw [hL] at hq₀ hq₁ hq₂ ⊢ <;> norm_num only <;> omega
    rw [← slotIndex_eq, three.cnt, hfield, three.slot, hsize]
    refine ⟨rfl, rfl, ?_⟩
    rcases hL with hL | hL <;> rw [hL] at hq₀ hq₁ hq₂ ⊢ <;> omega
  · intro s t₀ t₁ ch₀ ch₁ k₀ k₁ e₀ e₁ c₀ c₁ q₀ q₁ h0 hch₀ hch₁ he₀ he₁ hne hq₀ hq₁ hcode₀ hcode₁ hexec₀ hexec₁
    have two := groupHolds_two (g := .g4) (congrArg BitVec.toNat h0) hch₀ hch₁ he₀ he₁ hne hq₀ hq₁ hcode₀ hcode₁ hexec₀ hexec₁
    have hfield : (t₁.slot (slotIndex ch₀ k₀.toNat)).val.toNat = q₀ * 11 + q₁ := by
      rw [two.slot, BitVec.toNat_ofNat, show Grp.g4.levels = 11 from rfl, show Grp.g4.size = 2 from rfl]
      omega
    rw [← slotIndex_eq, hfield, two.slot]
    exact ⟨BitVec.eq_of_toNat_eq two.cnt, rfl, by omega, by omega⟩


/-! ### Runs of elements -/

/-- QRUN of a run that raises no error, and of one that stops at an error (R145, R210). -/
theorem exec_qrun_of_ok {s t : State} {ch : BitVec 3} {n : BitVec 9} (h : qrunFrom ch n.toNat 0 s = .ok t) :
    exec (.qrun ch n) s = .next { t with done := true, busy := false } := by
  change (qrunFrom ch n.toNat 0 s).outcome = _
  rw [h, outcome_ok]

theorem exec_qrun_of_fail {s t : State} {ch : BitVec 3} {n : BitVec 9} {c : ErrCode} {info : Word}
    (h : qrunFrom ch n.toNat 0 s = .fail t c info) :
    exec (.qrun ch n) s = .next { t.raise c info with done := true, busy := false } := by
  change (qrunFrom ch n.toNat 0 s).outcome = _
  rw [h, outcome_fail]

/-- A run that raised no error, one element longer: the element runs in the state the run left, with the operands the host wrote
(R145). -/
theorem qrunFrom_extend {s t : State} {ch : BitVec 3} {k : Nat} (hk : k < 256) (h : qrunFrom ch k 0 s = .ok t) :
    qrunFrom ch (k + 1) 0 s = qelem t (slotIndex ch k) (s.coef (slotIndex ch k)).toInt (s.expm (slotIndex ch k)).toNat
      (s.bapm (slotIndex ch k)) := by
  have outside : ∀ a, inRange slotBase 0x2000 a = false → t.readByte a = s.readByte a := fun a ha => by
    have := readByte_qrunFrom (ch := ch) (m := k) (k := 0) (by omega) s ha
    rwa [h] at this
  obtain ⟨hcoef, hexpm, hbapm⟩ := operands_of_bytes outside (slotIndex_lt ch hk)
  rw [qrunFrom_snoc h, Nat.zero_add, runElem, hcoef, hexpm, hbapm]

/-- Completion neither reads nor writes QIN (R214). -/
theorem complete_with_qin (r : CmdResult) (v : Word) :
    ({ (CmdResult.mk { r.st with qin := v } r.err).complete with qin := r.st.qin } : State) = r.complete := by
  obtain ⟨s, _ | e⟩ := r <;> rfl

/-- QCOEF of the element that QRUN runs next: the same, but for QIN (R144, R145). -/
theorem exec_qcoef_of_run {t u : State} {ch : BitVec 3} {n : Nat} (hn : n < 256) (he : (t.expm (slotIndex ch n)).toNat < 32)
    (h : exec (.qcoef ch (BitVec.ofNat 8 n) (t.bapm (slotIndex ch n)) ((t.expm (slotIndex ch n)).extractLsb' 0 5))
      { t with qin := t.coef (slotIndex ch n) } = .next u) : (runElem ch n t).complete = { u with qin := t.qin } := by
  have hexp : ((t.expm (slotIndex ch n)).extractLsb' 0 5).toNat = (t.expm (slotIndex ch n)).toNat := by
    simp only [BitVec.extractLsb'_toNat, Nat.shiftRight_zero]
    omega
  change (qelem _ (slotIndex ch (BitVec.ofNat 8 n).toNat) _ _ _).outcome = _ at h
  rw [qelem_qin, hexp, BitVec.toNat_ofNat, Nat.mod_eq_of_lt hn, outcome_eq_next] at h
  obtain rfl := Host.Outcome.next.inj h
  have hqin : (runElem ch n t).st.qin = t.qin := by
    obtain ⟨-, -, -, -, -, -, -, -, hqin, -⟩ := (qelem_frame t (slotIndex ch n) _ _ _).kept
    exact hqin
  rw [← hqin]
  exact (complete_with_qin (runElem ch n t) _).symm

/-- Settles O38: the longer run is the shorter one and the element that QCOEF runs. -/
theorem qrunExtendsByOneQcoef : Obligations.QrunExtendsByOneQcoef := by
  intro s t u ch n hn hrun he hqcoef
  rw [← slotIndex_eq] at he hqcoef
  have hqin : t.qin = s.qin := by
    obtain ⟨-, -, -, -, -, -, -, -, hqin, -⟩ := (qrunFrom_frame ch n 0 s).kept
    rwa [hrun] at hqin
  have toNat_count : ∀ m : Nat, m ≤ 256 → (BitVec.ofNat 9 m).toNat = m := fun m hm => by
    rw [BitVec.toNat_ofNat, Nat.mod_eq_of_lt (by omega)]
  refine ⟨exec_qrun_of_ok (by rw [toNat_count n (by omega), hrun]; rfl), ?_⟩
  change (qrunFrom ch (BitVec.ofNat 9 (n + 1)).toNat 0 s).outcome = _
  rw [toNat_count (n + 1) (by omega), qrunFrom_snoc hrun, Nat.zero_add, outcome_eq_next, exec_qcoef_of_run hn he hqcoef, hqin]

/-- Settles O40: the failing element answers the state it was given, and a longer run answers the same. -/
theorem qrunStopsAtFirstError : Obligations.QrunStopsAtFirstError := by
  intro s t ch k n info hch hk hn hrun hbap hinfo
  rw [← slotIndex_eq] at hbap hinfo ⊢
  have hi : slotIndex ch k < 1536 := slotIndex_lt_of_ch hch (by omega)
  have hword : elemInfo (slotIndex ch k) (s.bapm (slotIndex ch k)) (s.expm (slotIndex ch k)).toNat = info := by
    rw [elemInfo_eq (by omega) (BitVec.isLt _), hinfo]
  have hextend := qrunFrom_extend (by omega) hrun
  refine ⟨fun he => exec_qrun_of_fail (qrunFrom_of_err hk ?_), fun he hillegal => exec_qrun_of_fail (qrunFrom_of_err hk ?_)⟩
  · rw [hextend, qelem_badExp hbap he, hword, CmdResult.fail]
  · simp only [elementLegal, hbap, he, false_or, true_and, not_or, not_le] at hillegal
    rw [hextend, qelem_qRange hbap (by omega) he hillegal.2, hword, CmdResult.fail]

/-! ### A run over legal elements -/

/-- A legal element raises no error (R146). -/
theorem qelem_ok_of_legal (s : State) (i : Nat) {c : Int} {e : Nat} {bap : BitVec 4} (legal : elementLegal c e bap) :
    ∃ t, qelem s i c e bap = .ok t :=
  ⟨(qelem s i c e bap).st, by rw [CmdResult.ok, ← (elementLegal_iff s i c e bap).1 legal]⟩

/-- A property of the number of elements done and the state, kept by every element of a run over legal operands, holds at its end
(R145). -/
theorem qrunFrom_legal_induct {P : Nat → State → Prop} {ch : BitVec 3} {s : State} {n : Nat} (hn : n ≤ 256)
    (legal : ∀ k, k < n → elementLegal (s.coef (slotIndex ch k)).toInt (s.expm (slotIndex ch k)).toNat (s.bapm (slotIndex ch k)))
    (start : P 0 s)
    (step : ∀ k t u, k < n → P k t → qelem t (slotIndex ch k) (s.coef (slotIndex ch k)).toInt (s.expm (slotIndex ch k)).toNat
      (s.bapm (slotIndex ch k)) = .ok u → P (k + 1) u) :
    ∃ t, qrunFrom ch n 0 s = .ok t ∧ P n t := by
  induction n with
  | zero => exact ⟨s, rfl, start⟩
  | succ n ih =>
    obtain ⟨t, hrun, hP⟩ := ih (by omega) (fun k hk => legal k (by omega)) (fun k t u hk => step k t u (by omega))
    obtain ⟨u, hu⟩ := qelem_ok_of_legal t (slotIndex ch n) (legal n (by omega))
    exact ⟨u, (qrunFrom_extend (by omega) hrun).trans hu, step n t u (by omega) hP hu⟩

/-- An element that raised no error is done. -/
theorem elemDone_of_ok {s t : State} {i : Nat} {c : Int} {e : Nat} {bap : BitVec 4} (h : qelem s i c e bap = .ok t) :
    ElemDone s i c e bap t := by
  rcases qelem_cases s i c e bap with ⟨u, hu, hdone⟩ | ⟨hf, -⟩ | ⟨hf, -⟩
  · obtain rfl : u = t := (CmdResult.mk.inj (hu.symm.trans h)).1
    exact hdone
  · cases hf.symm.trans h
  · cases hf.symm.trans h

/-- Where the head of an open group lies after k elements of a run: where it was, if the group was open before, or in a slot of the
class that the run has passed (R138). -/
def HeadOrigin (s : State) (ch : BitVec 3) (k : Nat) (g : Grp) (i : Nat) : Prop :=
  (s.cnt g ≠ 0 ∧ i = s.head g) ∨ ∃ j, j < k ∧ i = slotIndex ch j ∧ classKind (s.bapm (slotIndex ch j)) = .grouped g

theorem HeadOrigin.mono {s : State} {ch : BitVec 3} {k : Nat} {g : Grp} {i : Nat} (h : HeadOrigin s ch k g i) :
    HeadOrigin s ch (k + 1) g i := h.imp_right fun ⟨j, hj, hi⟩ => ⟨j, Nat.lt_succ_of_lt hj, hi⟩

/-- What holds in `t` after the elements 0 to k - 1 of a run from `s` (R144, R145). -/
structure RunHolds (s : State) (ch : BitVec 3) (k : Nat) (t : State) : Prop where
  heads : ∀ g, t.head g < 1536
  origin : ∀ g, t.cnt g ≠ 0 → HeadOrigin s ch k g (t.head g)
  bap : ∀ j, j < k → (t.slot (slotIndex ch j)).bap = s.bapm (slotIndex ch j)
  code : (∀ g, s.cnt g = 0) → ∀ j, j < k → (∀ g, classKind (s.bapm (slotIndex ch j)) ≠ .grouped g) → t.slot (slotIndex ch j) =
    plainSlot (s.coef (slotIndex ch j)).toInt (s.expm (slotIndex ch j)).toNat (s.bapm (slotIndex ch j))
  bytes : ∀ a, (∀ j, j < k → slotByte (slotIndex ch j) a = false) → (∀ g, s.cnt g ≠ 0 → slotByte (s.head g) a = false) →
    t.readByte a = s.readByte a

theorem runHolds_zero {s : State} (ch : BitVec 3) (h : ∀ g, s.head g < 1536) : RunHolds s ch 0 s where
  heads := h
  origin _ hg := .inl ⟨hg, rfl⟩
  bap _ hj := absurd hj (Nat.not_lt_zero _)
  code _ _ hj := absurd hj (Nat.not_lt_zero _)
  bytes _ _ _ := rfl

section
variable {s t u : State} {ch : BitVec 3} {k : Nat} {c : Int} {e : Nat}

/-- An element that is done leaves each open group's head at a slot where a head may lie. -/
theorem RunHolds.origin_succ (h : RunHolds s ch k t) (hi : slotIndex ch k < 1536)
    (hdone : ElemDone t (slotIndex ch k) c e (s.bapm (slotIndex ch k)) u) (g : Grp) (hg : u.cnt g ≠ 0) :
    HeadOrigin s ch (k + 1) g (u.head g) := by
  obtain ⟨hother, hown⟩ := hdone.groups hi g
  by_cases hk : classKind (s.bapm (slotIndex ch k)) = .grouped g
  · rw [(hown hk).2]
    split
    · exact .inr ⟨k, Nat.lt_succ_self k, rfl, hk⟩
    · exact (h.origin g ‹_›).mono
  · rw [(hother hk).1] at hg
    rw [(hother hk).2]
    exact (h.origin g hg).mono

theorem RunHolds.heads_succ (h : RunHolds s ch k t) (hi : slotIndex ch k < 1536)
    (hdone : ElemDone t (slotIndex ch k) c e (s.bapm (slotIndex ch k)) u) (g : Grp) : u.head g < 1536 := by
  obtain ⟨hother, hown⟩ := hdone.groups hi g
  by_cases hk : classKind (s.bapm (slotIndex ch k)) = .grouped g
  · rw [(hown hk).2]
    split
    · exact hi
    · exact h.heads g
  · rw [(hother hk).2]
    exact h.heads g

/-- An element touches its own slot, and its group's head where one may lie. -/
theorem RunHolds.readByte_succ (h : RunHolds s ch k t) (hdone : ElemDone t (slotIndex ch k) c e (s.bapm (slotIndex ch k)) u) {a : Nat}
    (hown : slotByte (slotIndex ch k) a = false) (hhead : ∀ g i, HeadOrigin s ch k g i → slotByte i a = false) :
    u.readByte a = t.readByte a := by
  refine hdone.bytes hown fun g _ => ?_
  by_cases hg : t.cnt g = 0
  · exact .inl hg
  · exact .inr (hhead g _ (h.origin g hg))

/-- From a state with no open group, an element keeps the slots of ungrouped classes that the run has passed. -/
theorem RunHolds.slot_succ (h : RunHolds s ch k t) (hdone : ElemDone t (slotIndex ch k) c e (s.bapm (slotIndex ch k)) u)
    (hclosed : ∀ g, s.cnt g = 0) {j : Nat} (hj : j < k) (hplain : ∀ g, classKind (s.bapm (slotIndex ch j)) ≠ .grouped g) :
    u.slot (slotIndex ch j) = t.slot (slotIndex ch j) := by
  refine slot_congr fun a ha => h.readByte_succ hdone ?_ fun g i horigin => ?_
  · exact slotByte_disjoint (by rw [Ne, slotIndex_inj]; omega) ha
  · rcases horigin with ⟨hopen, -⟩ | ⟨j', -, rfl, hgrouped⟩
    · exact absurd (hclosed g) hopen
    · refine slotByte_disjoint (fun heq => ?_) ha
      rw [slotIndex_inj.1 heq] at hgrouped
      exact hplain g hgrouped

/-- One more legal element of the run. -/
theorem RunHolds.succ (h : RunHolds s ch k t) (hi : slotIndex ch k < 1536)
    (legal : elementLegal (s.coef (slotIndex ch k)).toInt (s.expm (slotIndex ch k)).toNat (s.bapm (slotIndex ch k)))
    (hu : qelem t (slotIndex ch k) (s.coef (slotIndex ch k)).toInt (s.expm (slotIndex ch k)).toNat (s.bapm (slotIndex ch k)) = .ok u) :
    RunHolds s ch (k + 1) u := by
  have hdone := elemDone_of_ok hu
  obtain ⟨hbap, hothers⟩ := hdone.bap hi h.heads
  refine ⟨h.heads_succ hi hdone, h.origin_succ hi hdone, fun j hj => ?_, fun hclosed j hj hplain => ?_, fun a hslots hheads => ?_⟩
  · obtain hj | rfl := Nat.lt_succ_iff_lt_or_eq.1 hj
    · rw [hothers _ (by rw [Ne, slotIndex_inj]; omega), h.bap j hj]
    · exact hbap
  · obtain hj | rfl := Nat.lt_succ_iff_lt_or_eq.1 hj
    · rw [h.slot_succ hdone hclosed hj hplain, h.code hclosed j hj hplain]
    · rw [qelem_plain hplain legal] at hu
      obtain rfl := (CmdResult.mk.inj hu).1
      exact slot_setSlot_self hi t _
  · have hpassed : ∀ j, j < k → slotByte (slotIndex ch j) a = false := fun j hj => hslots j (Nat.lt_succ_of_lt hj)
    refine (h.readByte_succ hdone (hslots k (Nat.lt_succ_self k)) fun g i horigin => ?_).trans (h.bytes a hpassed hheads)
    rcases horigin with ⟨hopen, rfl⟩ | ⟨j, hj, rfl, -⟩
    · exact hheads g hopen
    · exact hpassed j hj

end

/-- A legal run completes, with everything its elements did (R145). -/
theorem qrunFrom_legal {s : State} {ch : BitVec 3} {n : Nat} (hch : ch.toNat < 6) (hn : n ≤ 256) (hheads : ∀ g, s.head g < 1536)
    (legal : ∀ k, k < n → elementLegal (s.coef (slotIndex ch k)).toInt (s.expm (slotIndex ch k)).toNat (s.bapm (slotIndex ch k))) :
    ∃ t, qrunFrom ch n 0 s = .ok t ∧ RunHolds s ch n t :=
  qrunFrom_legal_induct hn legal (runHolds_zero ch hheads) fun k _ _ hk h hu =>
    h.succ (slotIndex_lt_of_ch hch (by omega)) (legal k hk) hu

/-- The code of class 3 or 5 is SYMQ itself (R133, R135). -/
theorem plainSlot_symmetric {c : Int} {e : Nat} {bap : BitVec 4} (hk : classKind bap = .symmetric) (legal : elementLegal c e bap) :
    (plainSlot c e bap).ph = false ∧ ((plainSlot c e bap).val.toNat : Int) = symq c e (Config.levels bap.toNat) := by
  obtain ⟨-, hin, hle⟩ := symqInRange_of_legal hk legal
  rw [symqInRange, decide_eq_true_eq] at hin
  refine ⟨rfl, ?_⟩
  simp only [plainSlot, hk, BitVec.toNat_ofNat]
  omega

/-- The code of an asymmetric class is ASYMQ itself (R136). -/
theorem plainSlot_asymmetric (c : Int) (e : Nat) {bap : BitVec 4} (h6 : 6 ≤ bap.toNat) :
    (plainSlot c e bap).ph = false ∧ (plainSlot c e bap).val.toNat = asymq c e (Config.qbits bap.toNat) := by
  obtain ⟨-, -, h16⟩ := qbits_spec h6
  refine ⟨rfl, ?_⟩
  simp only [plainSlot, classKind_asymmetric h6, BitVec.toNat_ofNat]
  exact Nat.mod_eq_of_lt ((asymq_lt c e _).trans_le (Nat.pow_le_pow_right (by decide) h16))

/-- Settles O39: the facts that every element of the run keeps, read off at its end. -/
theorem qrunQuantizesChannel : Obligations.QrunQuantizesChannel := by
  intro s ch n hch hn hheads legal
  simp only [← slotIndex_eq] at legal ⊢
  obtain ⟨t, hrun, h⟩ := qrunFrom_legal hch hn hheads legal
  refine ⟨_, exec_qrun_of_ok hrun, h.bap, fun hclosed k hk => ⟨fun hbap => ?_, fun hbap => ?_, fun h6 => ?_⟩, fun a ha => ?_, ?_, ?_⟩
  · exact (h.code hclosed k hk (by rw [hbap]; exact fun _ => ClassKind.noConfusion)).trans (by rw [hbap]; rfl)
  · have hclass : classKind (s.bapm (slotIndex ch k)) = .symmetric := by rcases hbap with hbap | hbap <;> rw [hbap] <;> rfl
    have hslot := h.code hclosed k hk (by rw [hclass]; exact fun _ => ClassKind.noConfusion)
    exact hslot ▸ plainSlot_symmetric hclass (legal k hk)
  · have hslot := h.code hclosed k hk (by rw [classKind_asymmetric h6]; exact fun _ => ClassKind.noConfusion)
    exact hslot ▸ plainSlot_asymmetric _ _ h6
  · simp only [Bool.or_eq_false_iff, Bool.and_eq_false_imp, decide_eq_true_eq] at ha
    obtain ⟨⟨⟨hrange, h1⟩, h2⟩, h4⟩ := ha
    refine h.bytes a (fun j hj => ?_) fun g hg => ?_
    · simp only [slotByte, inRange_false_iff, slotAddr, slotIndex_eq] at hrange ⊢
      omega
    · cases g
      · exact h1 hg
      · exact h2 hg
      · exact h4 hg
  · have hframe : quantFrame s t := by
      have := qrunFrom_frame ch n.toNat 0 s
      rwa [hrun] at this
    rw [quantFrame] at hframe
    rw [hframe]
  · rintro rfl
    obtain rfl : s = t := (CmdResult.mk.inj hrun).1
    rfl

end Sys2Proof.Proofs

/-!
PROOFS. The bit writer (42_bitpack.md) and the finished frame (43_crc.md): what PUTBITS, FLUSH and MPACK leave when their bits fit, the
field that does not fit, and FBEGIN and FINAL.
-/
namespace Sys2Proof.Proofs

open Sys2Proof Sys2Proof.Machine

/-! ### After the writer -/

/-- A command that only appended bits has, when it is done, changed nothing but the memories, BITPOS, BUSY and DONE (R202, R214). -/
theorem registers_of_wrote {bits : List Bool} {s t : State} (h : Wrote bits s t) :
    ({ t with done := true, busy := false, mem := s.mem } : State) =
      { s with bitpos := BitVec.ofNat 32 (s.bitpos.toNat + bits.length), busy := false, done := true } := by
  rw [← h.pos, BitVec.ofNat_toNat, BitVec.setWidth_eq, h.frame]

/-- BITPOS moved on by a number of bits, as a sum of words (R161). -/
theorem ofNat_toNat_add (p : Word) (n : Nat) : BitVec.ofNat 32 (p.toNat + n) = p + BitVec.ofNat 32 n := by
  rw [BitVec.ofNat_add, BitVec.ofNat_toNat, BitVec.setWidth_eq]

/-- The bit of the stream that a place in an appended string has become (R160). -/
theorem streamBit_of_wrote {bits : List Bool} {s t : State} (h : Wrote bits s t) {j : Nat} {b : Bool} (hb : bits[j]? = some b) :
    streamBit t (s.bitpos.toNat + j) = b := by
  have hj : j < bits.length := (List.getElem?_eq_some_iff.1 hb).1
  exact Option.some.inj ((h.here j hj).trans hb)

/-! ### FBEGIN and PUTBITS -/

/-- Settles O41: FBEGIN's rule is this assignment. -/
theorem fbeginStartsFrame : Obligations.FbeginStartsFrame := ⟨decode_eq_ok_iff_encode.2 ⟨rfl, rfl⟩, fun _ => rfl⟩

/-- Bit j of a field, counted from its most significant bit (R162). -/
theorem lowBits_getElem? {w j : Nat} (v : Word) (hj : j < w) : (lowBits w v)[j]? = some (v.getLsbD (w - 1 - j)) := by
  rw [lowBits, List.getElem?_map, List.getElem?_range hj, Option.map_some]

/-- Within the writer's capacity PUTBITS's information word is BITPOS itself (R42, R207). -/
theorem putbitsInfo_eq {s : State} (h : s.bitpos.toNat ≤ 32768) : putbitsInfo s = s.bitpos := by
  apply BitVec.eq_of_toNat_eq
  rw [putbitsInfo, toNat_append_add, BitVec.extractLsb'_toNat, BitVec.toNat_ofNat]
  omega

/-- Settles O42: PutBits appends the low bits of PUTDATA, or refuses before it writes. -/
theorem putbitsWritesFieldOrRefuses : Obligations.PutbitsWritesFieldOrRefuses := by
  intro s w _ hpos
  have hexec : exec (.putbits w) s = (putBits s w.toNat s.putdata (putbitsInfo s)).outcome := rfl
  rcases putBits_cases s w.toNat s.putdata (putbitsInfo s) with ⟨hfits, t, hput, hw⟩ | ⟨hover, hput⟩
  · refine ⟨fun _ => ?_, fun hover => absurd hfits (by omega)⟩
    rw [hexec, hput]
    have hrest := hw.rest
    have hbytes := hw.bytes
    have hregs := registers_of_wrote hw
    rw [lowBits_length] at hrest hbytes hregs
    rw [ofNat_toNat_add] at hregs
    exact ⟨_, outcome_ok t, fun j hj => streamBit_of_wrote hw (lowBits_getElem? s.putdata hj), hw.before, hrest, hbytes, hregs⟩
  · refine ⟨fun hfits => absurd hfits (by omega), fun _ => ?_⟩
    rw [hexec, hput, putbitsInfo_eq hpos]
    exact outcome_fail s .bitOvf s.bitpos

/-! ### FLUSH -/

/-- The next byte boundary, as the number of zero bits up to it (R166). -/
theorem add_bits_to_boundary (p : Nat) : p + (8 - p % 8) % 8 = (p + 7) / 8 * 8 := by omega

/-- Settles O43: FLUSH appends the zero bits up to the next byte boundary. -/
theorem flushFillsByteWithZeros : Obligations.FlushFillsByteWithZeros := by
  refine ⟨decode_eq_ok_iff_encode.2 ⟨rfl, rfl⟩, fun s hpos => ?_⟩
  have hw := flushWriter_wrote hpos
  have hbytes := hw.bytes
  have hregs := registers_of_wrote hw
  rw [List.length_replicate, add_bits_to_boundary] at hbytes hregs
  refine ⟨_, outcome_ok (flushWriter s), hw.before, fun p hp hlt => ?filled, hbytes, hregs⟩
  case filled =>
    obtain ⟨j, rfl⟩ := Nat.exists_eq_add_of_le hp
    rw [← add_bits_to_boundary] at hlt
    exact streamBit_of_wrote hw (List.getElem?_replicate_of_lt (by omega))

/-! ### MPACK -/

/-- The width table of R163. -/
theorem mantWidth_of_table (b : BitVec 4) :
    [0, 5, 7, 3, 7, 4, 5, 6, 7, 8, 9, 10, 11, 12, 14, 16][b.toNat]? = some (Config.mantWidth b.toNat) := by
  revert b
  decide

/-- A slot that is no placeholder emits the low bits of its VAL in its class's width (R163, R168). -/
theorem fieldBits_of_table {x : Slot} {w : Nat} (hp : x.ph = false)
    (hw : [0, 5, 7, 3, 7, 4, 5, 6, 7, 8, 9, 10, 11, 12, 14, 16][x.bap.toNat]? = some w) :
    fieldBits x = (List.range w).map fun j => x.val.getLsbD (w - 1 - j) := by
  obtain rfl := Option.some.inj ((mantWidth_of_table x.bap).symm.trans hw)
  rw [fieldBits, if_neg (by rw [hp]; exact Bool.false_ne_true)]

/-- MPACK of a run that raises no error, and of one that stops at an error (R167, R210). -/
theorem exec_mpack_of_ok {s t : State} {ch : BitVec 3} {n : BitVec 9} (h : mpackFrom ch n.toNat 0 s = .ok t) :
    exec (.mpack ch n) s = .next { t with done := true, busy := false } := by
  change (mpackFrom ch n.toNat 0 s).outcome = _
  rw [h, outcome_ok]

theorem exec_mpack_of_fail {s t : State} {ch : BitVec 3} {n : BitVec 9} {c : ErrCode} {info : Word}
    (h : mpackFrom ch n.toNat 0 s = .fail t c info) :
    exec (.mpack ch n) s = .next { t.raise c info with done := true, busy := false } := by
  change (mpackFrom ch n.toNat 0 s).outcome = _
  rw [h, outcome_fail]

/-- Settles O44: the widths are R163's table, and a run whose fields fit appends them. -/
theorem mpackAppendsMantissaFields : Obligations.MpackAppendsMantissaFields := by
  refine ⟨fun x hp => if_pos hp, fun x w => fieldBits_of_table, fun s ch n _ hn hfits => ?_⟩
  obtain ⟨t, hrun, hw⟩ := mpackFrom_wrote hn hfits
  have hregs := registers_of_wrote hw
  rw [ofNat_toNat_add] at hregs
  exact ⟨_, exec_mpack_of_ok hrun, hw.here, hw.before, hw.rest, hw.bytes, hregs⟩

/-- A run whose fields fit, one slot longer, when that slot's field does not: BITOVF, in the state the run left (R162, R167). -/
theorem mpackFrom_of_overflow {s : State} {ch : BitVec 3} {k : Nat} (hk : k < 256)
    (hfits : s.bitpos.toNat + (emittedBits s ch k).length ≤ 32768)
    (hover : 32768 < s.bitpos.toNat + (emittedBits s ch (k + 1)).length) :
    ∃ t, mpackFrom ch k 0 s = .ok t ∧ mpackFrom ch (k + 1) 0 s = .fail t .bitOvf (mpackInfo t (slotIndex ch k)) := by
  obtain ⟨t, hrun, hw⟩ := mpackFrom_wrote (Nat.le_of_lt hk) hfits
  refine ⟨t, hrun, ?_⟩
  have hslot : t.slot (slotIndex ch k) = s.slot (slotIndex ch k) := hw.slot (slotIndex_lt ch hk)
  have hpos := hw.pos
  rw [emittedBits_succ, List.length_append, ← hslot] at hover
  rw [mpackFrom_snoc hrun, Nat.zero_add]
  rcases packSlot_cases t (slotIndex ch k) with ⟨hroom, -⟩ | ⟨-, hnone⟩ | ⟨-, hfail⟩
  · omega
  · rw [hnone, List.length_nil] at hover
    omega
  · exact hfail

/-- Settles O45: the run up to slot k is as it was, slot k overflows, and a longer run answers the same. -/
theorem mpackStopsAtFirstOverflow : Obligations.MpackStopsAtFirstOverflow := by
  intro s u ch k n _ hk hn hfits hover hexec
  obtain ⟨t, hrun, hfail⟩ := mpackFrom_of_overflow (by omega) hfits hover
  have hcount : (BitVec.ofNat 9 k).toNat = k := by rw [BitVec.toNat_ofNat, Nat.mod_eq_of_lt (by omega)]
  rw [exec_mpack_of_ok (t := t) (by rw [hcount, hrun])] at hexec
  obtain rfl := Host.Outcome.next.inj hexec
  rw [exec_mpack_of_fail (mpackFrom_of_err hk hfail), ← slotIndex_eq]
  rfl

/-! ### FINAL -/

/-- FINAL's rule on a legal frame whose fields fit (R188). -/
theorem finalBody_of_fits {s : State} (h4 : 4 ≤ s.fsw.toNat) (h2048 : s.fsw.toNat ≤ 2048) (hnb : fieldBytes s ≤ 2 * s.fsw.toNat - 2) :
    finalBody s = .ok (finishFrame { s with frameBytes := 0#16 } s.fsw.toNat) := by
  rcases finalBody_cases s with ⟨hsize, -⟩ | ⟨-, -, hover, -⟩ | ⟨-, -, -, hok⟩
  · omega
  · exact absurd hover (not_lt.2 hnb)
  · exact hok

/-- Settles O58: the finished frame holds what the statement lists, its five-eighths point by R184's default rule. -/
theorem finalPlacesBothCrcs : Obligations.FinalPlacesBothCrcs := by
  rintro s _ _ _ rfl h4 h2048 rfl rfl hnb
  obtain ⟨hregs, hkept, hflushed, hpadded, hcrc1, hhigh1, hlow1, hcrc2, hhigh2, hlow2, hbytes, -⟩ :=
    finishFrame_spec { s with frameBytes := 0#16 } h4 h2048 hnb
  have hexec : exec .final s = (finalBody s).outcome := rfl
  rw [hexec, finalBody_of_fits h4 h2048 hnb]
  refine ⟨_, outcome_ok _, hkept, hflushed, hpadded, hcrc1, hhigh1, hlow1, hcrc2, hhigh2, hlow2, hbytes, ?_⟩
  rw [hregs]

end Sys2Proof.Proofs

/-!
PROOFS. The CRC unit (43_crc.md): CRC16, ZAPP and INV with the commands that apply them, the order of x modulo the generator, and the two
CRC regions of a finished frame.
-/
namespace Sys2Proof.Proofs

open Sys2Proof Sys2Proof.Machine

/-! ### CRC16, ZAPP and INV -/

/-- One step of the register, with the generator written out (R180). -/
theorem crcStep_eq (r : Half) (b : Bool) : crcStep r b = if r.getLsbD 15 ^^ b then (r <<< 1) ^^^ 0x8005#16 else r <<< 1 := rfl

/-- A byte's bits go into the register from the most significant one down (R181). -/
theorem crcBitsOf_eq_foldl (n : Nat) (b : Byte) (r : Half) :
    crcBitsOf n b r = (List.range n).reverse.foldl (fun r j => crcStep r (b.getLsbD j)) r := by
  induction n generalizing r with
  | zero => rfl
  | succ n ih => rw [crcBitsOf, ih, List.range_succ, List.reverse_append]; rfl

/-- The CRC of a string one byte longer (R181). -/
theorem crc16_snoc (bs : List Byte) (b : Byte) : crc16 (bs ++ [b]) = crcBitsOf 8 b (crc16 bs) := by
  rw [crc16, crcFrom_append]
  rfl

/-- ZAPP's last step (R182). -/
theorem zapp_snoc (r : Half) (k : Nat) : zapp r (k + 1) = crcStep (zapp r k) false := zapp_add r k 1

/-- Settles O56: both directions are inductions on the count over one step and its inverse. -/
theorem invUndoesZapp : Obligations.InvUndoesZapp := ⟨fun r k => ⟨inv_zapp r k, zapp_inv r k⟩, by decide⟩

/-! ### The CRC commands -/

/-- CRCRANGE's information word: start in the high half, length in the low half (R207). -/
theorem append_eq_ofNat (x y : Half) : x ++ y = BitVec.ofNat 32 (x.toNat * 2 ^ 16 + y.toNat) := by
  rw [← toNat_append_add, BitVec.ofNat_toNat, BitVec.setWidth_eq]

theorem exec_crccalc (s : State) : exec .crccalc s = (crccalcBody s).outcome := rfl

/-- CRCCALC of a range of FBUF, and of one that leaves it (R185). -/
theorem crccalcBody_of_le {s : State} (h : s.crcStart.toNat + s.crcLen.toNat ≤ 4096) :
    crccalcBody s = .ok { s with crcVal := crc16 (s.fbufBytes s.crcStart.toNat s.crcLen.toNat) } := if_neg (Nat.not_lt.2 h)

theorem crccalcBody_of_gt {s : State} (h : 4096 < s.crcStart.toNat + s.crcLen.toNat) :
    crccalcBody s = .fail s .crcRange (s.crcStart ++ s.crcLen) := if_pos h

/-- Settles O54: the recursion of CRC16 from the string's end, and CRCCALC by its range check. -/
theorem crccalcComputesOrRefuses : Obligations.CrccalcComputesOrRefuses := by
  refine ⟨rfl, fun bs b => ?_, by decide +kernel, decode_eq_ok_iff_encode.2 ⟨rfl, rfl⟩, fun s => ⟨fun hin => ?_, fun hout => ?_⟩⟩
  · rw [crc16_snoc, crcBitsOf_eq_foldl]
    simp only [crcStep_eq]
    rfl
  · rw [exec_crccalc, crccalcBody_of_le hin, outcome_ok]
    rfl
  · rw [exec_crccalc, crccalcBody_of_gt hout, outcome_fail, append_eq_ofNat]

/-- Settles O55: ZAPP by its last step, its link to CRC16 by linearity in the register, and the commands by their rules. -/
theorem crczappAndCrcinvChangeCrcval : Obligations.CrczappAndCrcinvChangeCrcval := by
  refine ⟨fun r => ⟨rfl, fun k => ?_⟩, fun r => (crc16_two r).symm, decode_eq_ok_iff_encode.2 ⟨rfl, rfl⟩,
    decode_eq_ok_iff_encode.2 ⟨rfl, rfl⟩, fun s => ⟨outcome_ok _, outcome_ok _⟩⟩
  rw [zapp_snoc, crcStep_eq, Bool.xor_false]

/-! ### The order of x modulo the generator -/

/-- x^n modulo the generator by squaring, for an exponent of at most `k` binary digits. -/
def xPow : Nat → Nat → Half
  | 0, _ => 1#16
  | k + 1, n => zapp (polyMul (xPow k (n / 2)) (xPow k (n / 2)) 16) (n % 2)

theorem zapp_one_eq_xPow {k n : Nat} (h : n < 2 ^ k) : zapp 1#16 n = xPow k n := by
  induction k generalizing n with
  | zero =>
    obtain rfl : n = 0 := by omega
    rfl
  | succ k ih =>
    calc zapp 1#16 n = zapp 1#16 (n / 2 + n / 2 + n % 2) := congrArg (zapp 1#16) (by omega)
      _ = zapp (polyMul (zapp 1#16 (n / 2)) (zapp 1#16 (n / 2)) 16) (n % 2) := by rw [zapp_add, zapp_one_add]
      _ = xPow (k + 1) n := by rw [ih (by omega), xPow]

theorem zapp_one_order : zapp 1#16 32767 = 1#16 := by
  rw [zapp_one_eq_xPow (k := 15) (by decide)]
  decide +kernel

/-- Every register comes back after 32767 zero bits (R193). -/
theorem zapp_periodic (r : Half) : Function.Periodic (zapp r) 32767 := fun k => by
  rw [Nat.add_comm, zapp_add, zapp_period zapp_one_order]

/-- Removing zero bits is appending those that complete the period (R193). -/
theorem inv_eq_zapp (r : Half) (k : Nat) : inv r k = zapp r ((32767 - k % 32767) % 32767) := by
  generalize hm : (32767 - k % 32767) % 32767 = m
  have hback : zapp (zapp r m) k = r := by
    rw [← zapp_add, ← (zapp_periodic r).map_mod_nat, show (m + k) % 32767 = 0 by omega, zapp]
  calc inv r k = inv (zapp (zapp r m) k) k := by rw [hback]
    _ = zapp r m := inv_zapp _ k

/-- Settles O57: x^32767 and the three smaller powers by squaring, then the period for every register. -/
theorem zappPeriod : Obligations.ZappPeriod := by
  refine ⟨zapp_one_order, ?_, ?_, ?_, fun r k => ⟨((zapp_periodic r).map_mod_nat k).symm, inv_eq_zapp r k⟩⟩
  · rw [zapp_one_eq_xPow (k := 13) (by decide)]
    decide +kernel
  · rw [zapp_one_eq_xPow (k := 11) (by decide)]
    decide +kernel
  · rw [zapp_one_eq_xPow (k := 8) (by decide)]
    decide +kernel

/-! ### FINAL's errors and the finished frame -/

/-- An error raised at completion, or before it, is the same (R209, R214). -/
theorem raise_complete (s : State) (c : ErrCode) (info : Word) :
    { s.raise c info with done := true, busy := false } = ({ s with busy := false, done := true } : State).raise c info := rfl

/-- Settles O59: the two refusals of FINAL, in their order. -/
theorem finalFailureDropsFrame : Obligations.FinalFailureDropsFrame := by
  intro s
  have hexec : exec .final s = (finalBody s).outcome := rfl
  have hnb : fieldBytes s = (s.bitpos.toNat + 7) / 8 := rfl
  rw [hexec]
  rcases finalBody_cases s with ⟨hsize, hbody⟩ | ⟨h4, h2048, hover, hbody⟩ | ⟨h4, h2048, hfits, hbody⟩
  · refine ⟨fun _ => ?_, fun _ _ _ => by omega⟩
    rw [hbody, outcome_fail, raise_complete, BitVec.ofNat_toNat]
  · refine ⟨fun _ => by omega, fun _ _ _ => ?_⟩
    rw [hbody, outcome_fail, raise_complete, hnb]
  · exact ⟨fun _ => by omega, fun _ _ _ => by omega⟩

/-- A run of FBUF that ends with the CRC of what stands before it has CRC 0 (R190). -/
theorem crc16_of_trailing_crc {t : State} {a n : Nat} {c : Half} (hc : c = crc16 (t.fbufBytes a n))
    (hhigh : t.fbuf (a + n) = c.extractLsb' 8 8) (hlow : t.fbuf (a + n + 1) = c.extractLsb' 0 8) :
    crc16 (t.fbufBytes a (n + 2)) = 0#16 := by
  have htail : t.fbufBytes (a + n) 2 = [c.extractLsb' 8 8, c.extractLsb' 0 8] := by
    rw [fbufBytes_succ, fbufBytes_succ, hhigh, hlow]
    rfl
  rw [fbufBytes_append, htail, hc, crc16_append_crc]

/-- A run of FBUF that begins with the CRC1 value of what stands after it has CRC 0 (R189, R190). -/
theorem crc16_of_leading_crc {t : State} {a n : Nat} {c : Half} (hc : c = inv (crc16 (t.fbufBytes (a + 2) n)) (16 + 8 * n))
    (hhigh : t.fbuf a = c.extractLsb' 8 8) (hlow : t.fbuf (a + 1) = c.extractLsb' 0 8) :
    crc16 (t.fbufBytes a (n + 2)) = 0#16 := by
  rw [fbufBytes_succ, fbufBytes_succ, hhigh, hlow]
  exact crc16_inv_cons _ (by rw [fbufBytes_length]; exact hc)

/-- Settles O60: FINAL leaves CRC1 before its region and CRC2 after its own (R188), and both regions check. -/
theorem finalizedFrameChecks : Obligations.FinalizedFrameChecks := by
  rintro s t fs f hfs h4 h2048 hf hnb hexec
  obtain ⟨u, hu, -, -, -, hcrc1, hhigh1, hlow1, hcrc2, hhigh2, hlow2, -⟩ :=
    finalPlacesBothCrcs s fs f _ hfs h4 h2048 hf rfl hnb
  obtain rfl : t = u := Host.Outcome.next.inj (hexec.symm.trans hu)
  constructor
  · rw [show 16 * f - 16 = 16 + 8 * (2 * f - 4) by omega] at hcrc1
    rw [show 2 * f - 2 = 2 * f - 4 + 2 by omega]
    exact crc16_of_leading_crc hcrc1 hhigh1 hlow1
  · rw [show 2 * fs - 2 = 2 * f + (2 * fs - 2 - 2 * f) by omega] at hhigh2
    rw [show 2 * fs - 1 = 2 * f + (2 * fs - 2 - 2 * f) + 1 by omega] at hlow2
    rw [show 2 * fs - 2 * f = 2 * fs - 2 - 2 * f + 2 by omega]
    exact crc16_of_trailing_crc hcrc2 hhigh2 hlow2

end Sys2Proof.Proofs

/-!
PROOFS. All commands at once (44_control.md): that every command completes, and the column 'writes' of R202's table, part by part of the
state; and NOP.
-/
namespace Sys2Proof.Proofs

open Sys2Proof Sys2Proof.Machine

/-! ### Completion -/

/-- Settles O27: NOP's rule is the completion alone. -/
theorem nopOnlyCompletes : Obligations.NopOnlyCompletes := ⟨decode_eq_ok_iff_encode.2 ⟨rfl, rfl⟩, fun _ => rfl⟩

/-- Completion, with an error or without, writes DONE, BUSY and the error registers alone (R210, R214). -/
theorem complete_keeps (r : CmdResult) :
    ∃ bits code info, r.complete = { r.st with
      done := true, busy := false, errBits := bits, errCode := code, errInfo := info } := by
  obtain ⟨u, _ | e⟩ := r
  · exact ⟨_, _, _, rfl⟩
  · exact ⟨_, _, _, rfl⟩

/-- Settles O8: what every command's rule keeps, its completion keeps too. -/
theorem everyCommandCompletes : Obligations.EveryCommandCompletes := by
  intro i s
  obtain ⟨r, hexec, hkept, -⟩ := exec_result i s
  obtain ⟨ctrl, lastCmd, sampled, qin, putdata, fsw, crcStart, crcLen, crcBits, memDraw, draws, rst, inputs, resp, -⟩ := hkept
  obtain ⟨bits, code, info, hcomplete⟩ := complete_keeps r
  refine ⟨r.complete, hexec, ?_⟩
  rw [hcomplete]
  exact ⟨rfl, rfl, ctrl, lastCmd, sampled, qin, putdata, fsw, crcStart, crcLen, crcBits, memDraw, draws, rst, inputs, resp⟩

/-! ### The parts of the state that commands write -/

/-- The parts of R202's column 'writes', and the operand memories, which no command writes. -/
inductive StatePart where
  /-- GRPCNT and the three heads. -/
  | groups
  /-- QOUT and SLOT. -/
  | slots
  | bitPos
  | frameBuffer
  | tdStat
  | tdRes
  | tails
  | crcVal
  /-- CRC1, CRC2 and FRAMEBYTES. -/
  | frameResults
  /-- COEF, EXPM, BAPM, TDWIN and TDNEW. -/
  | operands

/-- The commands that write a part (R202). -/
def StatePart.writers : StatePart → List Opcode
  | .groups => [.qblk, .qcoef, .qrun]
  | .slots => [.qcoef, .qrun]
  | .bitPos => [.fbegin, .putbits, .flush, .mpack, .final]
  | .frameBuffer => [.putbits, .flush, .mpack, .final]
  | .tdStat => [.tdrun, .tdpush]
  | .tdRes => [.tdpush]
  | .tails => [.tdpush, .tdclr]
  | .crcVal => [.crccalc, .crczapp, .crcinv]
  | .frameResults => [.fbegin, .final]
  | .operands => []

/-- The values a part's registers hold together. -/
abbrev StatePart.Regs : StatePart → Type
  | .groups => BitVec 2 × BitVec 2 × BitVec 1 × BitVec 11 × BitVec 11 × BitVec 11
  | .slots | .bitPos => Word
  | .tdStat => BitVec 12
  | .tdRes => BitVec 6
  | .crcVal => Half
  | .frameResults => Half × Half × Half
  | .frameBuffer | .tails | .operands => Unit

/-- The registers of a part. -/
def StatePart.regs (s : State) : (p : StatePart) → p.Regs
  | .groups => (s.cnt1, s.cnt2, s.cnt4, s.head1, s.head2, s.head4)
  | .slots => s.qout
  | .bitPos => s.bitpos
  | .tdStat => s.tdstat
  | .tdRes => s.tdres
  | .crcVal => s.crcVal
  | .frameResults => (s.crc1, s.crc2, s.frameBytes)
  | .frameBuffer | .tails | .operands => ()

theorem regs_groups_eq_iff {s t : State} : StatePart.regs t .groups = StatePart.regs s .groups ↔
    t.cnt1 = s.cnt1 ∧ t.cnt2 = s.cnt2 ∧ t.cnt4 = s.cnt4 ∧ t.head1 = s.head1 ∧ t.head2 = s.head2 ∧ t.head4 = s.head4 := by
  simp only [StatePart.regs, Prod.mk.injEq]

theorem regs_frameResults_eq_iff {s t : State} : StatePart.regs t .frameResults = StatePart.regs s .frameResults ↔
    t.crc1 = s.crc1 ∧ t.crc2 = s.crc2 ∧ t.frameBytes = s.frameBytes := by
  simp only [StatePart.regs, Prod.mk.injEq]

/-- The offsets of a part's memories (R71). -/
def StatePart.place : StatePart → Nat → Bool
  | .slots => inRange slotBase 0x1800
  | .frameBuffer => inRange fbufBase 0x1000
  | .tails => inTdtail
  | .operands => fun a => inRange coefBase 0x1800 a || inRange expmBase 0x1800 a || inRange bapmBase 0x1800 a ||
      inRange tdwinBase 0x0800 a || inRange tdnewBase 0x0400 a
  | .groups | .bitPos | .tdStat | .tdRes | .crcVal | .frameResults => noByte

/-- A part keeps its value: its registers, and the bytes of its memories. -/
structure StatePart.Kept (p : StatePart) (s t : State) : Prop where
  regs : p.regs t = p.regs s
  bytes : ∀ a, p.place a = true → t.readByte a = s.readByte a

theorem StatePart.Kept.refl (p : StatePart) (s : State) : p.Kept s s := ⟨rfl, fun _ _ => rfl⟩

theorem StatePart.Kept.trans {p : StatePart} {s t u : State} (h : p.Kept s t) (h' : p.Kept t u) : p.Kept s u :=
  ⟨h'.regs.trans h.regs, fun a ha => (h'.bytes a ha).trans (h.bytes a ha)⟩

/-- Completion writes no part: DONE, BUSY and the error registers belong to none (R210, R214). -/
theorem StatePart.Kept.complete {p : StatePart} {s : State} {r : CmdResult} (h : p.Kept s r.st) : p.Kept s r.complete := by
  obtain ⟨bits, code, info, hcomplete⟩ := complete_keeps r
  rw [hcomplete]
  refine h.trans ⟨?_, fun _ _ => rfl⟩
  cases p <;> rfl

/-- A part that a command does not write is none of those it writes. -/
theorem StatePart.ne_of_not_writer {p q : StatePart} (op : Opcode) (hp : op ∉ p.writers) (hq : op ∈ q.writers := by decide) :
    p ≠ q := by
  rintro rfl
  exact hp hq

/-- The memories of two parts share no byte: SLOT's window, TDTAIL and FBUF lie apart, and the operands outside all three (R71). -/
theorem StatePart.place_apart {p : StatePart} {a : Nat} (ha : p.place a = true) :
    (p ≠ .slots → inRange slotBase 0x2000 a = false) ∧ (p ≠ .tails → inTdtail a = false) ∧ (p ≠ .frameBuffer → a < fbufBase) := by
  rw [inTdtail_eq, inRange_false_iff, inRange_false_iff, slotBase, tdtailBase, fbufBase]
  cases p with
  | slots =>
    have ha := (inRange_iff slotBase 0x1800 a).1 ha
    rw [slotBase] at ha
    exact ⟨fun h => absurd rfl h, fun _ => by omega, fun _ => by omega⟩
  | tails =>
    have ha := (inRange_iff tdtailBase 0x1800 a).1 ha
    rw [tdtailBase] at ha
    exact ⟨fun _ => by omega, fun h => absurd rfl h, fun _ => by omega⟩
  | frameBuffer =>
    have ha := (inRange_iff fbufBase 0x1000 a).1 ha
    rw [fbufBase] at ha
    exact ⟨fun _ => by omega, fun _ => by omega, fun h => absurd rfl h⟩
  | operands =>
    simp only [StatePart.place, Bool.or_eq_true, inRange_iff, coefBase, expmBase, bapmBase, tdwinBase, tdnewBase] at ha
    omega
  | _ => cases ha

/-! ### What each family of commands writes -/

theorem StatePart.kept_groups {p : StatePart} (h : p ≠ .groups) (s : State) (n1 n2 : BitVec 2) (n4 : BitVec 1) (h1 h2 h4 : BitVec 11) :
    p.Kept s { s with cnt1 := n1, cnt2 := n2, cnt4 := n4, head1 := h1, head2 := h2, head4 := h4 } := by
  refine ⟨?regs, fun _ _ => rfl⟩
  cases p with
  | groups => contradiction
  | _ => rfl

/-- QCOEF and QRUN write group state, QOUT and SLOT. -/
theorem StatePart.kept_of_quant {p : StatePart} {s t : State} (hgroups : p ≠ .groups) (hslots : p ≠ .slots) (hf : quantFrame s t)
    (hb : ∀ a, inRange slotBase 0x2000 a = false → t.readByte a = s.readByte a) : p.Kept s t := by
  refine ⟨?regs, fun a ha => ?bytes⟩
  case regs =>
    rw [hf]
    cases p with
    | groups | slots => contradiction
    | _ => rfl
  case bytes =>
    obtain ⟨hout, -, -⟩ := place_apart ha
    exact hb a (hout hslots)

/-- An element writes bytes of the SLOT window alone, whether it completes or not. -/
theorem readByte_qelem (s : State) {i : Nat} (hi : i < 2048) (c : Int) (e : Nat) (bap : BitVec 4) {a : Nat}
    (ha : inRange slotBase 0x2000 a = false) : (qelem s i c e bap).st.readByte a = s.readByte a := by
  rcases qelem_cases s i c e bap with ⟨t, ht, hd⟩ | ⟨hf, -⟩ | ⟨hf, -⟩
  · rw [ht]; exact hd.bytes_of_slot hi ha
  · rw [hf]; rfl
  · rw [hf]; rfl

/-- PUTBITS, FLUSH and MPACK write BITPOS and FBUF. -/
theorem StatePart.kept_of_writer {p : StatePart} {s t : State} (hpos : p ≠ .bitPos) (hbuf : p ≠ .frameBuffer) (h : WriterKeeps s t) :
    p.Kept s t := by
  refine ⟨?regs, fun a ha => ?bytes⟩
  case regs =>
    rw [h.frame]
    cases p with
    | bitPos => contradiction
    | _ => rfl
  case bytes =>
    obtain ⟨-, -, hlow⟩ := place_apart ha
    exact h.bytes a (hlow hbuf)

/-- FBEGIN's registers, which FINAL writes too: BITPOS and the frame's results. -/
theorem StatePart.kept_frame {p : StatePart} (hpos : p ≠ .bitPos) (hres : p ≠ .frameResults) (s : State) (c1 c2 n : Half) (b : Word) :
    p.Kept s { s with crc1 := c1, crc2 := c2, frameBytes := n, bitpos := b } := by
  refine ⟨?regs, fun _ _ => rfl⟩
  cases p with
  | bitPos | frameResults => contradiction
  | _ => rfl

/-- FINAL writes FBUF beside them, and clears FRAMEBYTES where a check fails. -/
theorem StatePart.kept_finalBody {p : StatePart} (hpos : p ≠ .bitPos) (hbuf : p ≠ .frameBuffer) (hres : p ≠ .frameResults) (s : State) :
    p.Kept s (finalBody s).st := by
  have cleared : p.Kept s { s with frameBytes := 0#16 } := kept_frame hpos hres s s.crc1 s.crc2 0#16 s.bitpos
  rcases finalBody_cases s with ⟨-, h⟩ | ⟨-, -, -, h⟩ | ⟨h4, h2048, hnb, h⟩ <;> rw [h]
  · exact cleared
  · exact cleared
  · obtain ⟨hregs, -, -, -, -, -, -, -, -, -, hbytes, -⟩ := finishFrame_spec { s with frameBytes := 0#16 } h4 h2048 hnb
    refine cleared.trans ⟨?regs, fun a ha => hbytes a ?outside⟩
    case regs =>
      change p.regs (finishFrame { s with frameBytes := 0#16 } s.fsw.toNat) = _
      rw [hregs]
      exact (kept_frame hpos hres _ _ _ _ _).regs
    case outside =>
      obtain ⟨-, -, hlow⟩ := place_apart ha
      have hlow := hlow hbuf
      simp only [frameByte, Bool.or_eq_false_iff, decide_eq_false_iff_not]
      omega

theorem StatePart.kept_tdstat {p : StatePart} (h : p ≠ .tdStat) (s : State) (v : BitVec 12) : p.Kept s { s with tdstat := v } := by
  refine ⟨?regs, fun _ _ => rfl⟩
  cases p with
  | tdStat => contradiction
  | _ => rfl

theorem StatePart.kept_tdres {p : StatePart} (h : p ≠ .tdRes) (s : State) (v : BitVec 6) : p.Kept s { s with tdres := v } := by
  refine ⟨?regs, fun _ _ => rfl⟩
  cases p with
  | tdRes => contradiction
  | _ => rfl

theorem StatePart.kept_tdrunBody {p : StatePart} (h : p ≠ .tdStat) (s : State) : p.Kept s (tdrunBody s).st := by
  unfold tdrunBody
  split
  · exact .refl p s
  · exact kept_tdstat h s _

/-- A channel's tail lies in TDTAIL, so writing it keeps every other part (R71, R75). -/
theorem StatePart.kept_writeTail {p : StatePart} (htails : p ≠ .tails) (s : State) {ch : BitVec 3} (hch : ch.toNat < 6) {vs : List Word}
    (hlen : vs.length = 256) : p.Kept s (s.writeWords (tailAddr ch) vs) := by
  obtain ⟨-, hbytes⟩ := tail_writeWords s hch hlen
  refine ⟨?regs, fun a ha => hbytes a ?outside⟩
  case regs => cases p <;> rfl
  case outside =>
    obtain ⟨-, hout, -⟩ := place_apart ha
    have hout := hout htails
    rw [inTdtail_eq, inRange_false_iff, tdtailBase] at hout
    rw [inRange_false_iff, tailAddr_eq]
    omega

/-- TDPUSH reports in TDSTAT and TDRES, and shifts the tail of its channel (R118). -/
theorem StatePart.kept_tdpushBody {p : StatePart} (hstat : p ≠ .tdStat) (hres : p ≠ .tdRes) (htails : p ≠ .tails) (s : State)
    {ch : BitVec 3} (hch : ch.toNat < 6) : p.Kept s (tdpushBody ch s).st := by
  have report : ∀ v w, p.Kept s { s with tdstat := v, tdres := w } := fun v w => (kept_tdstat hstat s v).trans (kept_tdres hres _ w)
  unfold tdpushBody
  split
  · split
    · exact .refl p s
    · have hlen : s.tdnew.length = 256 := readWords_length s tdnewBase 256
      generalize s.tdnew = new at hlen ⊢
      exact (report _ _).trans (kept_writeTail htails _ hch hlen)
  · exact report _ _

theorem StatePart.kept_clearTails {p : StatePart} (h : p ≠ .tails) (s : State) : p.Kept s s.clearTails := by
  refine ⟨?regs, fun a ha => ?bytes⟩
  case regs => cases p <;> rfl
  case bytes =>
    obtain ⟨-, hout, -⟩ := place_apart ha
    exact readByte_clearTails_of_other (hout h) s

theorem StatePart.kept_crcVal {p : StatePart} (h : p ≠ .crcVal) (s : State) (v : Half) : p.Kept s { s with crcVal := v } := by
  refine ⟨?regs, fun _ _ => rfl⟩
  cases p with
  | crcVal => contradiction
  | _ => rfl

theorem StatePart.kept_crccalcBody {p : StatePart} (h : p ≠ .crcVal) (s : State) : p.Kept s (crccalcBody s).st := by
  unfold crccalcBody
  split
  · exact .refl p s
  · exact kept_crcVal h s _

/-! ### The column 'writes' -/

/-- A legal command's rule keeps every part it is not listed to write (R202). -/
theorem StatePart.kept_rule {i : Instr} (hwf : i.wf = true) (s : State) :
    ∃ r : CmdResult, exec i s = r.outcome ∧ ∀ p : StatePart, opcodeOf i ∉ p.writers → p.Kept s r.st := by
  cases i with
  | nop => exact ⟨_, rfl, fun p _ => .refl p s⟩
  | qblk => exact ⟨_, rfl, fun p hp => kept_groups (ne_of_not_writer .qblk hp) s _ _ _ _ _ _⟩
  | qcoef ch k bap exp =>
    exact ⟨_, rfl, fun p hp => kept_of_quant (ne_of_not_writer .qcoef hp) (ne_of_not_writer .qcoef hp) (qelem_frame _ _ _ _ _)
      fun a ha => readByte_qelem s (slotIndex_lt ch k.isLt) _ _ _ ha⟩
  | qrun ch n =>
    obtain ⟨-, hn⟩ := Bool.and_eq_true_iff.1 hwf
    have hn := (countOk_iff n).1 hn
    exact ⟨_, rfl, fun p hp => kept_of_quant (ne_of_not_writer .qrun hp) (ne_of_not_writer .qrun hp) (qrunFrom_frame _ _ _ _)
      fun a ha => readByte_qrunFrom (by omega) s ha⟩
  | fbegin =>
    exact ⟨_, rfl, fun p hp => kept_frame (ne_of_not_writer .fbegin hp) (ne_of_not_writer .fbegin hp) s _ _ _ _⟩
  | putbits w =>
    exact ⟨_, rfl, fun p hp => kept_of_writer (ne_of_not_writer .putbits hp) (ne_of_not_writer .putbits hp) (putBits_keeps _ _ _ _).1⟩
  | flush =>
    exact ⟨_, rfl, fun p hp => kept_of_writer (ne_of_not_writer .flush hp) (ne_of_not_writer .flush hp) (flushWriter_keeps s)⟩
  | mpack ch n =>
    exact ⟨_, rfl, fun p hp => kept_of_writer (ne_of_not_writer .mpack hp) (ne_of_not_writer .mpack hp) (mpackFrom_keeps _ _ _ _).1⟩
  | tdrun => exact ⟨_, rfl, fun p hp => kept_tdrunBody (ne_of_not_writer .tdrun hp) s⟩
  | tdpush ch =>
    exact ⟨_, rfl, fun p hp => kept_tdpushBody (ne_of_not_writer .tdpush hp)
      (ne_of_not_writer .tdpush hp) (ne_of_not_writer .tdpush hp) s ((chOk_iff ch).1 hwf)⟩
  | tdclr => exact ⟨_, rfl, fun p hp => kept_clearTails (ne_of_not_writer .tdclr hp) s⟩
  | crccalc => exact ⟨_, rfl, fun p hp => kept_crccalcBody (ne_of_not_writer .crccalc hp) s⟩
  | crczapp => exact ⟨_, rfl, fun p hp => kept_crcVal (ne_of_not_writer .crczapp hp) s _⟩
  | crcinv => exact ⟨_, rfl, fun p hp => kept_crcVal (ne_of_not_writer .crcinv hp) s _⟩
  | final =>
    exact ⟨_, rfl, fun p hp => kept_finalBody (ne_of_not_writer .final hp)
      (ne_of_not_writer .final hp) (ne_of_not_writer .final hp) s⟩

/-- A legal command keeps every part it is not listed to write (R202). -/
theorem StatePart.kept_exec {i : Instr} {s t : State} (hwf : i.wf = true) (hexec : exec i s = .next t) {p : StatePart}
    (hp : opcodeOf i ∉ p.writers) : p.Kept s t := by
  obtain ⟨r, hr, hkept⟩ := kept_rule hwf s
  rw [hr, outcome_eq_next] at hexec
  obtain rfl := Host.Outcome.next.inj hexec
  exact (hkept p hp).complete

/-- Settles O10: the statement's clauses are the parts, one by one. -/
theorem commandsWriteOnlyTheirOwnState : Obligations.CommandsWriteOnlyTheirOwnState := by
  intro i s t hwf hexec
  have kept : ∀ p : StatePart, opcodeOf i ∉ p.writers → p.Kept s t := fun _ hp => StatePart.kept_exec hwf hexec hp
  refine ⟨fun h => ?groups, fun h => ⟨(kept .slots h).regs, (kept .slots h).bytes⟩, fun h => (kept .bitPos h).regs,
    fun h => (kept .frameBuffer h).bytes, fun h => (kept .tdStat h).regs, fun h => ?tdRes, fun h => (kept .tails h).bytes,
    fun h => (kept .crcVal h).regs, fun h => ?frameResults, (kept .operands List.not_mem_nil).bytes⟩
  case groups => exact regs_groups_eq_iff.1 (kept .groups h).regs
  case tdRes => exact (kept .tdRes (mt List.mem_singleton.1 h)).regs
  case frameResults => exact regs_frameResults_eq_iff.1 (kept .frameResults h).regs

end Sys2Proof.Proofs

/-!
PROOFS. Errors (60_exceptions.md): what raising one does to ERRBITS and the latch, the refused CMD write, and the at most one error of a
command.
-/
namespace Sys2Proof.Proofs

open Sys2Proof Sys2Proof.Machine

/-! ### Raising an error -/

/-- Every code has one of the bits 1 to 12 of ERRBITS (R206). -/
theorem errCode_num_bounds (c : ErrCode) : 1 ≤ c.num ∧ c.num ≤ 12 := by cases c <;> decide

/-- Of the twelve stored bits, an error sets the one below its number, because bit 0 of ERRBITS is not stored (R33, R206). -/
theorem errBit_getLsbD (c : ErrCode) (j : Nat) : (errBit c).getLsbD j = decide (c.num - 1 = j) := by
  have hlt : c.num - 1 < 12 := by have := errCode_num_bounds c; omega
  rw [errBit, ← BitVec.twoPow_eq, BitVec.getLsbD_twoPow, decide_eq_true hlt, Bool.true_and]

/-- In ERRBITS as the host reads it, an error sets the bit of its number and keeps the others (R206, R209). -/
theorem errBitsWord_raise (s : State) (c : ErrCode) (info : Word) (n : Nat) :
    (s.raise c info).errBitsWord.getLsbD n = (s.errBitsWord.getLsbD n || decide (n = c.num)) := by
  obtain ⟨hpos, -⟩ := errCode_num_bounds c
  rw [errBitsWord_getLsbD, errBitsWord_getLsbD, State.raise_errBits, BitVec.getLsbD_or, errBit_getLsbD, Bool.and_or_distrib_left,
    ← Bool.decide_and]
  have hbit : (1 ≤ n ∧ c.num - 1 = n - 1) ↔ n = c.num := by omega
  rw [decide_eq_decide.2 hbit]

/-- Settles O18: the table of codes, then what raising an error does, bit by bit of ERRBITS. -/
theorem raiseLatchesFirstError : Obligations.RaiseLatchesFirstError := by
  refine ⟨⟨rfl, rfl, rfl, rfl, rfl, rfl, rfl, rfl, rfl, rfl, rfl, rfl⟩, fun s c info => ?_⟩
  obtain ⟨-, first, later, frame⟩ := raise_spec s c info
  exact ⟨frame, fun n _ _ => errBitsWord_raise s c info n, first, later⟩

/-! ### A word written to CMD while busy -/

/-- A 32-bit write of CMD while BUSY = 1 raises BUSYCMD with its word; CMD is not engine-owned, so the bus permits it (R84, R215). -/
theorem step_writeCmd_busy {s : State} {w : Word} {rest : List Input} (hr : s.rst = false) (hb : s.busy = true)
    (hin : s.inputs = .write .b32 0x000C#16 w :: rest) :
    step s = .next ((({ s with inputs := rest } : State).raise .busyCmd w).respond (.write false)) := by
  have hrefused : ({ s with inputs := rest } : State).writeCmd w = ({ s with inputs := rest } : State).raise .busyCmd w := if_pos hb
  rw [← hrefused]
  exact step_writeReg (r := .cmd) hr (.inr rfl) hin

/-- Settles O6: the write raises BUSYCMD and answers, and that changes the error registers alone. -/
theorem busyCommandWriteRefused : Obligations.BusyCommandWriteRefused := by
  intro s w rest hr hb hin
  refine ⟨false, ?_⟩
  rw [step_writeCmd_busy hr hb hin, raise_respond]
  rfl

/-! ### The error of a command -/

/-- The rule of a command, before its completion, leaves the error registers alone (R209, R210). -/
theorem errorRegisters_of_hostKept {s t : State} (h : hostKept s t) :
    t.errBits = s.errBits ∧ t.errCode = s.errCode ∧ t.errInfo = s.errInfo := by
  obtain ⟨-, -, -, -, -, -, -, -, -, -, -, -, -, -, hbits, hcode, hinfo⟩ := h
  exact ⟨hbits, hcode, hinfo⟩

/-- Settles O9: only the completion touches the error registers, and it raises the one error the rule ended with, if any. -/
theorem commandRaisesAtMostOneError : Obligations.CommandRaisesAtMostOneError := by
  intro i s t hexec
  obtain ⟨r, hr, hkept, herr⟩ := exec_result i s
  rw [hr, outcome_eq_next] at hexec
  obtain rfl := Host.Outcome.next.inj hexec
  obtain ⟨-, -, completed, failed⟩ := complete_spec r
  obtain ⟨hbits, hcode, hinfo⟩ := errorRegisters_of_hostKept hkept
  rcases herr with hnone | ⟨e, hsome, hge, hle⟩
  · rw [completed hnone]
    exact .inl ⟨hbits, hcode, hinfo⟩
  · obtain ⟨raised, first, later, -⟩ := raise_spec r.st e.code e.info
    rw [hbits] at raised first later
    rw [hcode, hinfo] at later
    rw [failed e hsome]
    exact .inr ⟨e.code.num, hge, hle, raised, fun h0 => (first h0).1, later⟩

end Sys2Proof.Proofs

/-!
PROOFS. Hard reset (70_reset_and_hazards.md): the accesses refused silently while `rst` is asserted, and what its deassertion leaves.
-/
namespace Sys2Proof.Proofs

open Sys2Proof Sys2Proof.Machine

/-! ### Accesses under rst -/

/-- A read under `rst` answers 0 and does nothing else (R235). -/
theorem step_read_of_rst {s : State} {size : AccessSize} {off : BitVec 16} {rest : List Input} (hr : s.rst = true)
    (hin : s.inputs = .read size off :: rest) : step s = .next { s with inputs := rest, resp := .read 0#32 false } := by
  obtain ⟨silent, -, -, -⟩ := hostRead_cases { s with inputs := rest } size off
  rw [step_of_read hin, silent hr]
  rfl

/-- A write under `rst` is answered and does nothing else (R235). -/
theorem step_write_of_rst {s : State} {size : AccessSize} {off : BitVec 16} {v : Word} {rest : List Input} (hr : s.rst = true)
    (hin : s.inputs = .write size off v :: rest) : step s = .next { s with inputs := rest, resp := .write false } := by
  obtain ⟨silent, -, -, -⟩ := hostWrite_cases { s with inputs := rest } size off v
  rw [step_of_write hin, silent hr]
  rfl

/-! ### The deassertion of rst -/

/-- `rst` going from asserted to deasserted is the hard reset (R236). -/
theorem step_deassertRst {s : State} {rest : List Input} (hr : s.rst = true) (hin : s.inputs = .rst false :: rest) :
    step s = .next ({ s with inputs := rest } : State).hardReset := by
  have hset : ({ s with inputs := rest } : State).setRst false = ({ s with inputs := rest } : State).hardReset := if_pos hr
  rw [step_of_rst hin, hset]

/-- Every register of a hard reset machine reads its value of R65 (R236). -/
theorem regRead_hardReset (s : State) (r : Reg) : s.hardReset.regRead r = if r = .id then 0x41515443#32 else 0#32 := by
  rw [← regRead_reset r]
  cases r <;> rfl

/-- A hard reset leaves the tails +0.0: it lists no cell, so no cell of a tail (R59, R65, R236). -/
theorem readByte_hardReset_of_tail (s : State) {a : Nat} (h : inTdtail a = true) : s.hardReset.readByte a = 0#8 := by
  have hcleared : s.hardReset.clearTails = s.hardReset := rfl
  exact hcleared ▸ readByte_clearTails_of_tail h s.hardReset

/-- A hard reset leaves irq low: `rst` is deasserted and no condition is enabled (R63, R65, R236). -/
theorem irq_hardReset (s : State) : s.hardReset.irq = false := by
  obtain ⟨-, -, -, hlow⟩ := resetValues
  have hsame : s.hardReset.irq = State.reset.irq := rfl
  exact hsame.trans hlow

/-- Settles O23: under `rst` the two accesses only answer; the deassertion is the hard reset. -/
theorem hardResetByRst : Obligations.HardResetByRst := by
  intro s rest hr
  refine ⟨fun _ _ hin => step_read_of_rst hr hin, fun _ _ _ hin => step_write_of_rst hr hin, fun hin => ?_⟩
  exact ⟨_, step_deassertRst hr hin, regRead_hardReset _, rfl, rfl, irq_hardReset _, fun _ ha => readByte_hardReset_of_tail _ ha, rfl⟩

end Sys2Proof.Proofs
